-- ==== Sys2Proof/Word.lean ====
section
/-! DEFINITION. The two widths the machine computes with: the 32-bit word (00_scope.md R6 `XLEN`, R8 `u32`) and the
byte (10_state.md R30). Their arithmetic is that of `BitVec`: `+`, `-`, `*` are modulo 2^32 (R8). -/

namespace Sys2Proof

/-- A register, address, instruction word or pipeline slot: `XLEN = ILEN = 32` (R6, R20, R27). -/
abbrev Word := BitVec 32

/-- One memory byte (R30). -/
abbrev Byte := BitVec 8

end Sys2Proof
end

