-- ==== Sys2Proof/Config.lean ====
section
/-! DEFINITION. What is fixed for a whole run: the parameters of 00_scope.md R6, each with the alternatives the spec gives
it, the syscall numbers a host knows (60_exceptions.md R245), and the FREE VALUES, which are opaque constants with no
body: nothing can evaluate one or prove a value of one.
The default settings are not here but in `Sys2Proof/Machine/Params.lean`. -/

namespace Sys2Proof

/-- `BYTE_ORDER` (R6, R55, D2). -/
inductive ByteOrder where
  | little
  | big
deriving DecidableEq, Repr, Inhabited

/-- `MISALIGNED_DATA` and `MISALIGNED_FETCH` (R6, R57, R82, D3, D4): performed byte by byte, or the `fault` of
93_implementation_defined.md (I3, I4): a memory error or a fatal condition (log 6). -/
inductive MisalignedPolicy where
  | bytes
  | fault
deriving DecidableEq, Repr, Inhabited

/-- `IMM_EXTEND` (R6, R86, D8). -/
inductive ImmExtend where
  | sign
  | zero
deriving DecidableEq, Repr, Inhabited

/-- `SUB_CARRY` (R6, R116, D10): the negation folded into the carry-in, or done first. -/
inductive SubCarry where
  | fused
  | negateFirst
deriving DecidableEq, Repr, Inhabited

/-- `TRAP_SAVE` (R6, R211, D25): which two pipeline slots go to r30 and r31. -/
inductive TrapSave where
  /-- r30 <- current, r31 <- delaySlot (the default). -/
  | currentAndDelay
  /-- r30 <- delaySlot, r31 <- speculativeNext. -/
  | delayAndSpeculative
deriving DecidableEq, Repr, Inhabited

/-- `SHIFT_LARGE` (R6, R137, D14): the spec's default function, or nothing known of the result (I1, "any value"). -/
inductive ShiftLarge where
  | specDefault
  | anyValue
deriving DecidableEq, Repr, Inhabited

/-- `RESET_REGS` (R6, R35, D29, I13): registers 0 after reset, or registers that fault when r1 to r31 is read before its
first write (log 12). -/
inductive ResetRegs where
  | zero
  | unwritten
deriving DecidableEq, Repr, Inhabited

/-- The four shifts, as the argument `op` of `SHIFT_LARGE(op, a, n)` (R137). -/
inductive ShiftOp where
  | ashr
  | lshr
  | ashl
  | rotl
deriving DecidableEq, Repr, Inhabited

/-- The host services 60_exceptions.md R245 names. -/
inductive Service where
  | exit
  | fflush
  | fputs
  | fgets
  | fputc
  | fgetc
deriving DecidableEq, Repr, Inhabited

/-- The configuration of a run (R6, R34, R36, R260). It is not state: no step changes it. -/
structure Config where
  /-- Size of the guest image in bytes (R51). -/
  memLen : Nat
  /-- Size of the stack region in bytes (R51). -/
  stackSize : Nat
  /-- `ERRNO_CELL`, where the host writes an error code (R52, R245, D36). -/
  errnoCell : Option Word
  byteOrder : ByteOrder
  misalignedData : MisalignedPolicy
  misalignedFetch : MisalignedPolicy
  immExtend : ImmExtend
  subCarry : SubCarry
  shiftLarge : ShiftLarge
  branchCheckNotTaken : Bool
  trapSave : TrapSave
  trapClearsIe : Bool
  resetRegs : ResetRegs
  /-- `TRAP_WORD_LIMIT` (R213, D27). -/
  trapWordLimit : Word
  /-- The syscall numbers the host knows beside EXIT = 1 (R245, D34, I10). -/
  services : List (Word × Service)
deriving DecidableEq, Repr

/-- FREE VALUE. `TRAP_WORD_LIMIT` at reset: OPEN, no value in the source (D27; log 3). -/
opaque Config.openTrapWordLimit : Word

/-- FREE VALUE. `ERRNO_CELL` at reset: OPEN, an optional address with no known default (D36; log 4). -/
opaque Config.openErrnoCell : Option Word

/-- FREE VALUE. `SHIFT_LARGE(op, a, n)` where nothing is known of it (I1; log 9). -/
opaque Config.freeShift : ShiftOp → Word → Word → Word

/-- FREE VALUE. The new r1 of the host's k-th answer (R245, I11; log 21). -/
opaque Config.hostResult : Nat → Word

/-- FREE VALUE. The bytes the host's k-th answer stores in an FGETS buffer (R245, I11; log 21). -/
opaque Config.hostBytes : Nat → List Byte

/-- FREE VALUE. The error code the host's k-th answer writes at `ERRNO_CELL` (R245, I12; log 21). -/
opaque Config.hostErrno : Nat → Word

/-- FREE VALUE. Whether the host's k-th answer, to a console read, ever comes (R245, I11; log 24). -/
opaque Config.hostReturns : Nat → Bool

/-- FREE VALUE. EXIT's code in the host's k-th answer (R245, C9; log 25). -/
opaque Config.hostExitCode : Nat → Word

end Sys2Proof
end

