-- ==== Sys2Proof/Syntax.lean ====
section
/-! DEFINITION. The instructions: one constructor per row of `spec/opcode_table.json`, in the table's order, with every
field its row decodes (30_encoding.md R83, R84, R90), also those its rule ignores. -/

namespace Sys2Proof

/-- The number of a general register, 0 to 31 (10_state.md R20). -/
abbrev Reg := Fin 32

/-- The second operand field resolved to what it names (R86): an immediate of 16 bits not yet extended, or a register. -/
inductive Operand2 where
  | imm (v : BitVec 16)
  | reg (r : Reg)
deriving DecidableEq, Repr

/-- The fields of the register format (R83): `dst` bits 26:22, `c` bit 21, `src1` bits 20:16, `rawSrc2` bits 15:0. -/
structure RegForm where
  dst : Reg
  c : Bool
  src1 : Reg
  src2 : Operand2
deriving DecidableEq, Repr

/-- The instructions of the opcode map (R89, R91). `off` is `off22` of the branch format (R84). -/
inductive Instr where
  /-- TRAP0, opcode 0x00 (R210). -/
  | trap0 (f : RegForm)
  /-- BSP, opcode 0x01 with condition 0 (R186). -/
  | bsp (off : BitVec 22)
  /-- BMZ, opcode 0x01 with condition 1 (R186). -/
  | bmz (off : BitVec 22)
  /-- BGT, opcode 0x01 with condition 2 (R186). -/
  | bgt (off : BitVec 22)
  /-- BLE, opcode 0x01 with condition 3 (R186). -/
  | ble (off : BitVec 22)
  /-- BGE, opcode 0x01 with condition 4 (R186). -/
  | bge (off : BitVec 22)
  /-- BLT, opcode 0x01 with condition 5 (R186). -/
  | blt (off : BitVec 22)
  /-- BHI, opcode 0x01 with condition 6 (R186). -/
  | bhi (off : BitVec 22)
  /-- BLS, opcode 0x01 with condition 7 (R186). -/
  | bls (off : BitVec 22)
  /-- BCC, opcode 0x01 with condition 8 (R186). -/
  | bcc (off : BitVec 22)
  /-- BCS, opcode 0x01 with condition 9 (R186). -/
  | bcs (off : BitVec 22)
  /-- BPL, opcode 0x01 with condition 10 (R186). -/
  | bpl (off : BitVec 22)
  /-- BMI, opcode 0x01 with condition 11 (R186). -/
  | bmi (off : BitVec 22)
  /-- BNE, opcode 0x01 with condition 12 (R186). -/
  | bne (off : BitVec 22)
  /-- BEQ, opcode 0x01 with condition 13 (R186). -/
  | beq (off : BitVec 22)
  /-- BVC, opcode 0x01 with condition 14 (R186). -/
  | bvc (off : BitVec 22)
  /-- BVS, opcode 0x01 with condition 15 (R186). -/
  | bvs (off : BitVec 22)
  /-- Opcode 0x01 with a condition of 16 to 31, all five bits of it (R184). -/
  | bccIllegal (cond : BitVec 5) (off : BitVec 22)
  /-- BSR, opcode 0x02 (R190). -/
  | bsr (link : Reg) (off : BitVec 22)
  /-- LEA, opcode 0x03 (R168). -/
  | lea (f : RegForm)
  /-- LEAS, opcode 0x04 (R169). -/
  | leas (f : RegForm)
  /-- SUBR, opcode 0x05 (R124). -/
  | subr (f : RegForm)
  /-- XOR, opcode 0x06 (R130). -/
  | xor (f : RegForm)
  /-- XORN, opcode 0x07 (R131). -/
  | xorn (f : RegForm)
  /-- ADD, opcode 0x08 (R120). -/
  | add (f : RegForm)
  /-- SUB, opcode 0x09 (R121). -/
  | sub (f : RegForm)
  /-- ADDC, opcode 0x0A (R122). -/
  | addc (f : RegForm)
  /-- SUBC, opcode 0x0B (R123). -/
  | subc (f : RegForm)
  /-- AND, opcode 0x0C (R126). -/
  | and (f : RegForm)
  /-- ANDN, opcode 0x0D (R127). -/
  | andn (f : RegForm)
  /-- OR, opcode 0x0E (R128). -/
  | or (f : RegForm)
  /-- ORN, opcode 0x0F (R129). -/
  | orn (f : RegForm)
  /-- LD, opcode 0x10 (R155). -/
  | ld (f : RegForm)
  /-- LDH, opcode 0x11 (R156). -/
  | ldh (f : RegForm)
  /-- LDUH, opcode 0x12 (R157). -/
  | lduh (f : RegForm)
  /-- STH, opcode 0x13 (R161). -/
  | sth (f : RegForm)
  /-- ST, opcode 0x14 (R160). -/
  | st (f : RegForm)
  /-- LDB, opcode 0x15 (R158). -/
  | ldb (f : RegForm)
  /-- LDUB, opcode 0x16 (R159). -/
  | ldub (f : RegForm)
  /-- STB, opcode 0x17 (R162). -/
  | stb (f : RegForm)
  /-- ASHR, opcode 0x18 (R140). -/
  | ashr (f : RegForm)
  /-- LSHR, opcode 0x19 (R141). -/
  | lshr (f : RegForm)
  /-- ASHL, opcode 0x1A (R142). -/
  | ashl (f : RegForm)
  /-- ROTL, opcode 0x1B (R143). -/
  | rotl (f : RegForm)
  /-- Opcode 0x1C, which no source describes (R220). -/
  | op1C (f : RegForm)
  /-- Opcode 0x1D, which no source describes (R220). -/
  | op1D (f : RegForm)
  /-- JSR, opcode 0x1E (R195). -/
  | jsr (f : RegForm)
  /-- TRAP, opcode 0x1F (R212). -/
  | trap (f : RegForm)
deriving DecidableEq, Repr

end Sys2Proof
end

