-- ==== Sys2Proof/WellFormed.lean ====
section
/-! DEFINITION. Which terms of `Instr` some word encodes (30_encoding.md). Two checks: an immediate is not one of the 32
values that name a register (R86, R87), and the condition of an illegal conditional branch is 16 to 31 (R184). -/

namespace Sys2Proof

/-- An immediate field lies outside `[0xFFE0, 0xFFFF]` (R87). -/
def Operand2.wf : Operand2 → Bool
  | .imm v => decide (v.toNat < 0xFFE0)
  | .reg _ => true

/-- The operand 2 of a register-format instruction can be encoded. -/
def RegForm.wf (f : RegForm) : Bool := f.src2.wf

/-- Some word encodes the instruction. -/
def Instr.wf : Instr → Bool
  | .trap0 f => f.wf
  | .bsp _ => true
  | .bmz _ => true
  | .bgt _ => true
  | .ble _ => true
  | .bge _ => true
  | .blt _ => true
  | .bhi _ => true
  | .bls _ => true
  | .bcc _ => true
  | .bcs _ => true
  | .bpl _ => true
  | .bmi _ => true
  | .bne _ => true
  | .beq _ => true
  | .bvc _ => true
  | .bvs _ => true
  | .bccIllegal cond _ => decide (16 ≤ cond.toNat)
  | .bsr _ _ => true
  | .lea f => f.wf
  | .leas f => f.wf
  | .subr f => f.wf
  | .xor f => f.wf
  | .xorn f => f.wf
  | .add f => f.wf
  | .sub f => f.wf
  | .addc f => f.wf
  | .subc f => f.wf
  | .and f => f.wf
  | .andn f => f.wf
  | .or f => f.wf
  | .orn f => f.wf
  | .ld f => f.wf
  | .ldh f => f.wf
  | .lduh f => f.wf
  | .sth f => f.wf
  | .st f => f.wf
  | .ldb f => f.wf
  | .ldub f => f.wf
  | .stb f => f.wf
  | .ashr f => f.wf
  | .lshr f => f.wf
  | .ashl f => f.wf
  | .rotl f => f.wf
  | .op1C f => f.wf
  | .op1D f => f.wf
  | .jsr f => f.wf
  | .trap f => f.wf

end Sys2Proof
end

