-- ==== Sys2Proof/Decode.lean ====
section
/-! DEFINITION. From bits to instructions and back (30_encoding.md). Decoding is total over all 2^32 words (R88), so the
only thing a decoder of bytes rejects, by name, is a string of fewer than four bytes (R85). Beside it the encoder, written
from the same two formats. -/

namespace Sys2Proof

/-! ### Byte order (20_memory.md R55) -/

/-- The `n` bytes of `v` as they lie in memory from the lowest address up: byte `k` is bits `8k+7 : 8k` (R55), or the
reverse of that under the other setting of `BYTE_ORDER`. -/
def bytesOf (order : ByteOrder) (n : Nat) (v : Word) : List Byte :=
  let le := (List.range n).map fun k => v.extractLsb' (8 * k) 8
  match order with
  | .little => le
  | .big => le.reverse

/-- `b0 | b1 << 8 | b2 << 16 | ...` (R55). -/
def wordOfLittle : List Byte → Word
  | [] => 0
  | b :: bs => b.setWidth 32 ||| (wordOfLittle bs <<< 8)

/-- The value that bytes in memory have, lowest address first (R55). -/
def wordOf (order : ByteOrder) (bs : List Byte) : Word :=
  match order with
  | .little => wordOfLittle bs
  | .big => wordOfLittle bs.reverse

/-! ### Fields (R83, R84, R86) -/

/-- `opcode = bits[31:27]` (R83). -/
def opcodeField (w : Word) : BitVec 5 := w.extractLsb' 27 5

/-- `bits[26:22]`: `dst`, or the condition or link of the branch format (R83, R84). -/
def dstField (w : Word) : BitVec 5 := w.extractLsb' 22 5

/-- `affectStatus = bit[21]` (R83). -/
def cField (w : Word) : Bool := w.getLsbD 21

/-- `src1Reg = bits[20:16]` (R83). -/
def src1Field (w : Word) : BitVec 5 := w.extractLsb' 16 5

/-- `rawSrc2 = bits[15:0]` (R83). -/
def rawSrc2Field (w : Word) : BitVec 16 := w.extractLsb' 0 16

/-- `off22 = bits[21:0]` (R84). -/
def off22Field (w : Word) : BitVec 22 := w.extractLsb' 0 22

/-- The register a five-bit field names. -/
def regOfBits (b : BitVec 5) : Reg := b.toFin

/-- The five-bit field that names a register. -/
def bitsOfReg (r : Reg) : BitVec 5 := BitVec.ofFin r

/-- `rawSrc2` is a register, `rawSrc2 - 0xFFE0`, when it lies in `[0xFFE0, 0xFFFF]`, else an immediate (R86). -/
def decodeOperand2 (raw : BitVec 16) : Operand2 :=
  if 0xFFE0 ≤ raw.toNat then .reg (Fin.ofNat 32 (raw.toNat - 0xFFE0)) else .imm raw

/-- The field that names an operand 2 (R86, R93: `rN` is `0xFFE0 + N`). -/
def encodeOperand2 : Operand2 → BitVec 16
  | .imm v => v
  | .reg r => BitVec.ofNat 16 (0xFFE0 + r.val)

/-- The register format's fields of a word (R83). -/
def decodeRegForm (w : Word) : RegForm :=
  { dst := regOfBits (dstField w)
    c := cField w
    src1 := regOfBits (src1Field w)
    src2 := decodeOperand2 (rawSrc2Field w) }

/-! ### Decoding (R85, R88, R89) -/

/-- Opcode 0x01: the condition is all five bits of `bits[26:22]` (R184, R185). -/
def decodeBcc (cond : BitVec 5) (off : BitVec 22) : Instr :=
  match cond.toNat with
  | 0 => .bsp off
  | 1 => .bmz off
  | 2 => .bgt off
  | 3 => .ble off
  | 4 => .bge off
  | 5 => .blt off
  | 6 => .bhi off
  | 7 => .bls off
  | 8 => .bcc off
  | 9 => .bcs off
  | 10 => .bpl off
  | 11 => .bmi off
  | 12 => .bne off
  | 13 => .beq off
  | 14 => .bvc off
  | 15 => .bvs off
  | _ => .bccIllegal cond off

/-- A register-format instruction by its opcode (R89). -/
def decodeReg (opcode : Nat) (f : RegForm) : Instr :=
  match opcode with
  | 0 => .trap0 f
  | 3 => .lea f
  | 4 => .leas f
  | 5 => .subr f
  | 6 => .xor f
  | 7 => .xorn f
  | 8 => .add f
  | 9 => .sub f
  | 10 => .addc f
  | 11 => .subc f
  | 12 => .and f
  | 13 => .andn f
  | 14 => .or f
  | 15 => .orn f
  | 16 => .ld f
  | 17 => .ldh f
  | 18 => .lduh f
  | 19 => .sth f
  | 20 => .st f
  | 21 => .ldb f
  | 22 => .ldub f
  | 23 => .stb f
  | 24 => .ashr f
  | 25 => .lshr f
  | 26 => .ashl f
  | 27 => .rotl f
  | 28 => .op1C f
  | 29 => .op1D f
  | 30 => .jsr f
  | _ => .trap f

/-- The instruction a word is, for each of the 2^32 words: the format follows from the opcode alone (R85, R88, R89). -/
def decodeWord (w : Word) : Instr :=
  match (opcodeField w).toNat with
  | 1 => decodeBcc (dstField w) (off22Field w)
  | 2 => .bsr (regOfBits (dstField w)) (off22Field w)
  | opcode => decodeReg opcode (decodeRegForm w)

/-- Why a string of bytes is no instruction. -/
inductive DecodeError where
  /-- Fewer than the four bytes every instruction has (R85). -/
  | truncated
deriving DecidableEq, Repr

/-- Decode the first instruction of a string of bytes, lowest address first, and answer it with the bytes after it. -/
def decodeBytes (order : ByteOrder) : List Byte → Except DecodeError (Instr × List Byte)
  | b0 :: b1 :: b2 :: b3 :: rest => .ok (decodeWord (wordOf order [b0, b1, b2, b3]), rest)
  | _ => .error .truncated

/-! ### Encoding -/

/-- A word of the register format (R83). -/
def packReg (opcode : BitVec 5) (f : RegForm) : Word :=
  opcode ++ bitsOfReg f.dst ++ BitVec.ofBool f.c ++ bitsOfReg f.src1 ++ encodeOperand2 f.src2

/-- A word of the branch format (R84). -/
def packBranch (opcode condOrLink : BitVec 5) (off : BitVec 22) : Word :=
  opcode ++ condOrLink ++ off

/-- The word of an instruction (R83, R84, R89). -/
def encode : Instr → Word
  | .trap0 f => packReg 0x00 f
  | .bsp off => packBranch 0x01 0 off
  | .bmz off => packBranch 0x01 1 off
  | .bgt off => packBranch 0x01 2 off
  | .ble off => packBranch 0x01 3 off
  | .bge off => packBranch 0x01 4 off
  | .blt off => packBranch 0x01 5 off
  | .bhi off => packBranch 0x01 6 off
  | .bls off => packBranch 0x01 7 off
  | .bcc off => packBranch 0x01 8 off
  | .bcs off => packBranch 0x01 9 off
  | .bpl off => packBranch 0x01 10 off
  | .bmi off => packBranch 0x01 11 off
  | .bne off => packBranch 0x01 12 off
  | .beq off => packBranch 0x01 13 off
  | .bvc off => packBranch 0x01 14 off
  | .bvs off => packBranch 0x01 15 off
  | .bccIllegal cond off => packBranch 0x01 cond off
  | .bsr link off => packBranch 0x02 (bitsOfReg link) off
  | .lea f => packReg 0x03 f
  | .leas f => packReg 0x04 f
  | .subr f => packReg 0x05 f
  | .xor f => packReg 0x06 f
  | .xorn f => packReg 0x07 f
  | .add f => packReg 0x08 f
  | .sub f => packReg 0x09 f
  | .addc f => packReg 0x0A f
  | .subc f => packReg 0x0B f
  | .and f => packReg 0x0C f
  | .andn f => packReg 0x0D f
  | .or f => packReg 0x0E f
  | .orn f => packReg 0x0F f
  | .ld f => packReg 0x10 f
  | .ldh f => packReg 0x11 f
  | .lduh f => packReg 0x12 f
  | .sth f => packReg 0x13 f
  | .st f => packReg 0x14 f
  | .ldb f => packReg 0x15 f
  | .ldub f => packReg 0x16 f
  | .stb f => packReg 0x17 f
  | .ashr f => packReg 0x18 f
  | .lshr f => packReg 0x19 f
  | .ashl f => packReg 0x1A f
  | .rotl f => packReg 0x1B f
  | .op1C f => packReg 0x1C f
  | .op1D f => packReg 0x1D f
  | .jsr f => packReg 0x1E f
  | .trap f => packReg 0x1F f

/-- The instruction the decoder reads from a table word of `nbits` bits, every bit above them 0: the word is laid out as
memory holds it (R55) and its bytes are decoded. -/
def decodeTableWord (nbits w : Nat) : Option Instr :=
  match decodeBytes .little (bytesOf .little 4 (BitVec.ofNat 32 (w % 2 ^ nbits))) with
  | .ok (i, _) => some i
  | .error _ => none

end Sys2Proof
end

