-- ==== Sys2Proof/Machine/Params.lean ====
section
/-! DEFINITION. The settings a run starts with: each parameter of 00_scope.md R6 at the default the spec states; the two
parameters the spec leaves OPEN (D27, D36) at opaque constants, so that no value is chosen for them. -/

namespace Sys2Proof.Machine

/-- UNVERIFIED (the spec's defaults, R6 with D2, D3, D4, D8, D10, D14, D20, D25, D26, D29: logs 5 to 12).
DESIGN CHOICE, unsafe: `memLen = 0`, no image loaded (logs 1, 2); `services` empty, as D34 and I10 refuse unknown numbers
(log 22). `trapWordLimit` and `errnoCell` are free values (logs 3, 4). -/
def defaultConfig : Config :=
  { memLen := 0
    stackSize := 32768
    errnoCell := Config.openErrnoCell
    byteOrder := .little
    misalignedData := .bytes
    misalignedFetch := .bytes
    immExtend := .sign
    subCarry := .fused
    shiftLarge := .specDefault
    branchCheckNotTaken := false
    trapSave := .currentAndDelay
    trapClearsIe := false
    resetRegs := .zero
    trapWordLimit := Config.openTrapWordLimit
    services := [] }

end Sys2Proof.Machine
end

