-- ==== Sys2Proof/Machine/State.lean ====
section
/-! DEFINITION. The state of the block as plain data (10_state.md R20 to R36), the reasons a step can stop, and the state
after reset (R35). -/

namespace Sys2Proof.Machine

/-- The six bits of SR (R24). SR is never read or written as a word by an instruction (R25); `StatusReg.toBits` is its
layout. -/
structure StatusReg where
  /-- Carry, bit 0. -/
  c : Bool
  /-- Overflow, bit 1. -/
  v : Bool
  /-- Zero, bit 2. -/
  z : Bool
  /-- Negative, bit 3. -/
  n : Bool
  /-- InterruptEnable, bit 4. -/
  ie : Bool
  /-- PreviousInterruptEnable, bit 5. -/
  pie : Bool
deriving DecidableEq, Repr

/-- The halt reasons: R231's closed list in the order of its codes 1 to 4, then the two fatal conditions that only the
`fault` settings of R6's parameters raise, for which the spec gives a treatment (93_implementation_defined.md) and no name
(DESIGN CHOICE, logs 6, 12). -/
inductive HaltReason where
  /-- TRAP0, and TRAP failing its envelope (R210, R213). -/
  | illegalOpcode
  /-- A conditional branch with condition 16 to 31 (R184). -/
  | illegalBranchCond
  /-- A taken Bcc, a BSR or a JSR to a target outside `[0, memLen)` (R187). -/
  | branchTargetOutOfRange
  /-- A fetch past `memTop` (R81). -/
  | fetchOutOfRange
  /-- A fetch at a `PC0` that is not a multiple of 4, only under `MISALIGNED_FETCH = fault` (R82, D4, I4; log 6). -/
  | misalignedFetch
  /-- A read of r1 to r31 before its first write, only under `RESET_REGS = unwritten` (R35, D29, I13; log 12). -/
  | unwrittenRegister
deriving DecidableEq, Repr

/-- `RunState` (R31). -/
inductive RunState where
  | running
  | halted (reason : HaltReason)
  | exited (code : Word)
deriving DecidableEq, Repr

/-- The kinds of memory-access error (R233), in the order of the spec's codes 16 and 17, then the one that only
`MISALIGNED_DATA = fault` raises (DESIGN CHOICE, log 6). -/
inductive MemErrKind where
  | outOfRange
  | stackUnderflow
  /-- A data address that is not a multiple of the access width, only under `MISALIGNED_DATA = fault` (R57, D3, I3). -/
  | misaligned
deriving DecidableEq, Repr

/-- One record of `MemErrLog`: kind, instruction address, effective address (R32, R233). -/
structure MemErr where
  kind : MemErrKind
  pc : Word
  ea : Word
deriving DecidableEq, Repr

/-- Memory as (address, byte) pairs. Canonical form (`Memory.wf`, Machine/Ops.lean): addresses strictly rising, no listed
byte 0, because an unlisted address reads 0 (R35's stack region; log 31). -/
abbrev Memory := List Host.Cell

/-- The state of the block (10_state.md), its fixed configuration (log 1), which registers have been written (what R35's
`unwritten` looks at; log 12), and the model's own counter of host answers (log 21). -/
structure State where
  /-- `x[0]` to `x[31]` (R20). -/
  regs : Vector Word 32
  /-- THE MODEL'S OWN: which registers have been written since reset, for `RESET_REGS = unwritten` (R35 and D29, "before its
  first write"; log 12). -/
  written : Vector Bool 32
  /-- The status register (R24). -/
  sr : StatusReg
  /-- `current`, the address of the instruction being executed (R27). -/
  pc0 : Word
  /-- `delaySlot`, the address of the next instruction (R27). -/
  pc1 : Word
  /-- `speculativeNext`, which a control transfer overwrites (R27). -/
  pc2 : Word
  /-- `Mem[0 .. memTop-1]` (R30). -/
  mem : Memory
  /-- Running, halted or exited (R31). -/
  runState : RunState
  /-- The memory-access errors so far, oldest first (R32). -/
  memErrLog : List MemErr
  /-- Whether a step met an instruction without a meaning (R33). -/
  refused : Bool
  /-- The configuration, fixed for the run (R6, R36). -/
  config : Config
  /-- THE MODEL'S OWN: how many syscalls the host has answered; it selects the next free answer (log 21). -/
  hostCalls : Nat
deriving DecidableEq, Repr

/-- Why the model's machine stops without a next state. -/
inductive Fault where
  /-- Raised by `step` from a halted state: no step is enabled (R31). Safe: the spec's own stuck state. -/
  | runHalted
  /-- Raised by `step` from an exited state: no step is enabled (R31). Safe: the spec's own stuck state. -/
  | runExited
  /-- Raised by TRAP when a console read of the host never returns (R245; log 24). Safe: no step completes. -/
  | hostNeverReturns
deriving DecidableEq, Repr

/-- Why the model gives no step. -/
inductive Refusal where
  /-- Raised by `exec` for an instruction without a meaning in this model. Safe. -/
  | notModelled (mnemonic : String)
  /-- Raised by `step` from a state with `Refused = true`: no step is enabled (R33, R236). Safe. -/
  | runRefused
deriving DecidableEq, Repr

/-- SR as the word R25 lays out: bit 0 C, bit 1 V, bit 2 Z, bit 3 N, bit 4 IE, bit 5 PIE. -/
def StatusReg.toBits (sr : StatusReg) : BitVec 6 :=
  BitVec.ofBool sr.pie ++ BitVec.ofBool sr.ie ++ BitVec.ofBool sr.n ++ BitVec.ofBool sr.z ++ BitVec.ofBool sr.v
    ++ BitVec.ofBool sr.c

/-- The status register a word of R25's layout stands for. -/
def StatusReg.ofBits (b : BitVec 6) : StatusReg :=
  { c := b.getLsbD 0, v := b.getLsbD 1, z := b.getLsbD 2, n := b.getLsbD 3, ie := b.getLsbD 4, pie := b.getLsbD 5 }

/-- The state after reset (R35, R261): registers and SR 0, no register written, pipeline 0, 4, 8, no memory listed, running,
before any image is supplied. `State.launch` (Machine/Ops.lean) is this state with a host's image and configuration (R260;
log 2). -/
def State.reset : State :=
  { regs := Vector.replicate 32 0
    written := Vector.replicate 32 false
    sr := { c := false, v := false, z := false, n := false, ie := false, pie := false }
    pc0 := 0
    pc1 := 4
    pc2 := 8
    mem := []
    runState := .running
    memErrLog := []
    refused := false
    config := defaultConfig
    hostCalls := 0 }

end Sys2Proof.Machine
end

