-- ==== Sys2Proof/Machine/Ops.lean ====
section
/-! DEFINITION. The named operations over registers, memory, pipeline and run state (00_scope.md R9), the access check
(20_memory.md R62), taking a trap (43_trap.md R211) and the restore beside it (42_control_flow.md R196). -/

namespace Sys2Proof.Machine

/-! ### Registers (R9, R20, R21) -/

/-- `x[i]`: the live value, also of register 0. -/
def State.reg (s : State) (i : Reg) : Word := s.regs[i]

/-- `x[i] <- v`, which marks register `i` written (R35); discarded when `i = 0` (R21). -/
def State.setReg (s : State) (i : Reg) (v : Word) : State :=
  { s with
    regs := if i = 0 then s.regs else s.regs.set i v
    written := if i = 0 then s.written else s.written.set i true }

/-- Register `i` has been written since reset (R35). -/
def State.hasWritten (s : State) (i : Reg) : Bool := s.written[i]

/-- Reading register `i` is no fault: always under `RESET_REGS = zero`; under `unwritten` for register 0 (C7) and for every
register already written (R35, D29). -/
def State.readable (s : State) (i : Reg) : Bool :=
  s.config.resetRegs == .zero || i == 0 || s.hasWritten i

/-- All of these registers can be read (R35). -/
def State.canRead (s : State) (rs : List Reg) : Bool := rs.all s.readable

/-- Replace the status register. -/
def State.setSr (s : State) (sr : StatusReg) : State := { s with sr := sr }

/-! ### Memory (R30, R50, R55) -/

/-- One past the last byte of memory: `memLen + stackSize` (R6). -/
def State.memTop (s : State) : Nat := s.config.memLen + s.config.stackSize

/-- The byte at an address; an address that is not listed reads 0 (R35). -/
def Memory.read : Memory → Nat → Byte
  | [], _ => 0
  | (b, v) :: rest, a => if b = a then v else Memory.read rest a

/-- Put a byte in its place among rising addresses. -/
def Memory.insert : Memory → Nat → Byte → Memory
  | [], a, v => [(a, v)]
  | (b, w) :: rest, a, v => if a < b then (a, v) :: (b, w) :: rest else (b, w) :: Memory.insert rest a v

/-- Replace the byte at an address, keeping the canonical form: writing 0 removes the entry. -/
def Memory.write (m : Memory) (a : Nat) (v : Byte) : Memory :=
  let cleared : Memory := m.filter fun cell => cell.1 != a
  if v = 0 then cleared else Memory.insert cleared a v

/-- Write bytes at rising addresses. -/
def Memory.writeBytes (m : Memory) (a : Nat) : List Byte → Memory
  | [] => m
  | v :: vs => Memory.writeBytes (Memory.write m a v) (a + 1) vs

/-- Read `n` bytes at rising addresses. -/
def Memory.readBytes (m : Memory) (a : Nat) : Nat → List Byte
  | 0 => []
  | n + 1 => Memory.read m a :: Memory.readBytes m (a + 1) n

/-- The canonical form: addresses strictly rising, no listed byte is 0. -/
abbrev Memory.wf (m : Memory) : Prop :=
  List.Pairwise (fun x y : Host.Cell => x.1 < y.1) m ∧ ∀ cell ∈ m, cell.2 ≠ 0

/-- `MemRead(addr, n)` (R9, R55): the bytes `addr .. addr+n-1` in `BYTE_ORDER`. -/
def State.memRead (s : State) (addr : Word) (n : Nat) : Word :=
  wordOf s.config.byteOrder (Memory.readBytes s.mem addr.toNat n)

/-- `MemWrite(addr, n, v)` (R9, R55): the low `n` bytes of `v` in `BYTE_ORDER`. -/
def State.memWrite (s : State) (addr : Word) (n : Nat) (v : Word) : State :=
  { s with mem := Memory.writeBytes s.mem addr.toNat (bytesOf s.config.byteOrder n v) }

/-- A store's write: nothing when the access is aborted (R63, R152). -/
def State.storeChecked (s : State) (err : Option MemErrKind) (addr : Word) (n : Nat) (v : Word) : State :=
  { s with mem := if err.isSome then s.mem else (s.memWrite addr n v).mem }

/-- A load's read: 0 when the access is aborted (R63, R151). -/
def State.loadRaw (s : State) (err : Option MemErrKind) (addr : Word) (n : Nat) : Word :=
  if err.isSome then 0 else s.memRead addr n

/-- `Fetch(PC0)` (R80): the four bytes at the current slot, in the byte order of data. -/
def State.fetchWord (s : State) : Word := s.memRead s.pc0 4

/-- The fetch would leave memory: `PC0 + 4 > memTop` (R81). -/
def State.fetchFails (s : State) : Bool := decide (s.memTop < s.pc0.toNat + 4)

/-- Fetching here is a fatal condition, under `MISALIGNED_FETCH = fault` only (R82, D4, I4; log 6). -/
def State.fetchMisaligned (s : State) : Bool :=
  s.config.misalignedFetch == .fault && decide (s.pc0.toNat % 4 ≠ 0)

/-- An access that is a memory error for its alignment, under `MISALIGNED_DATA = fault` only (R57, D3, I3; log 6). -/
def State.dataMisaligned (s : State) (ea : Word) (n : Nat) : Bool :=
  s.config.misalignedData == .fault && decide (ea.toNat % n ≠ 0)

/-- `CheckAccess(EA, n, spInvolved)` (R60, R61, R62): without wrap-around, out of range before stack underflow, and
alignment last, where it is checked at all (R57; the order of the last is a DESIGN CHOICE, log 6). -/
def State.checkAccess (s : State) (ea : Word) (n : Nat) (spInvolved : Bool) : Option MemErrKind :=
  if s.memTop ≤ ea.toNat ∨ s.memTop < ea.toNat + n then some .outOfRange
  else if spInvolved ∧ ea.toNat < s.config.memLen then some .stackUnderflow
  else if s.dataMisaligned ea n then some .misaligned
  else none

/-! ### Pipeline and run state (R181, R231, R233, R236) -/

/-- `Advance()` (R181): shift left; the new last slot is the new delay slot plus 4, modulo 2^32. -/
def State.advance (s : State) : State := { s with pc0 := s.pc1, pc1 := s.pc2, pc2 := s.pc2 + 4 }

/-- `PC2 <- target` (R181): what a control transfer does before the advance. -/
def State.setTarget (s : State) (target : Word) : State := { s with pc2 := target }

/-- `raise Fatal(reason)` (R231, R232): halted, no advance; what was written before stays. -/
def State.fatal (s : State) (reason : HaltReason) : State := { s with runState := .halted reason }

/-- A read of registers: `after`, or, where one may not be read, a fatal condition with nothing written (R35, D29, I13;
log 12). -/
def State.guardReads (s : State) (rs : List Reg) (after : State) : State :=
  if s.canRead rs then after else s.fatal .unwrittenRegister

/-- `raise Refuse(reason)` (R33, R236): marked, nothing else. -/
def State.refuse (s : State) : State := { s with refused := true }

/-- The record `raise MemError(kind, EA)` appends (R233): kind, the instruction's address, the effective address. -/
def State.memErr (s : State) (ea : Word) (kind : MemErrKind) : MemErr := { kind := kind, pc := s.pc0, ea := ea }

/-- The outcome of an access check: an error is appended to the log, and the instruction goes on (R63, R233). -/
def State.recordCheck (s : State) (err : Option MemErrKind) (ea : Word) : State :=
  { s with memErrLog := s.memErrLog ++ err.toList.map (s.memErr ea) }

/-- The target range check: `target >=u memLen` (R187). -/
def State.targetOutOfRange (s : State) (target : Word) : Bool := decide (s.config.memLen ≤ target.toNat)

/-- The end of a control transfer (R186, R190, R195): fatal outside `[0, memLen)`, else `PC2 <- target` and advance. -/
def State.transfer (s : State) (target : Word) : State :=
  if s.targetOutOfRange target then s.fatal .branchTargetOutOfRange else (s.setTarget target).advance

/-- The link write of BSR and JSR: `x[link] <- PC0 + 8` (R191); nothing for link 0 (R21). -/
def State.writeLink (s : State) (link : Reg) : State := s.setReg link (s.pc0 + 8)

/-! ### Taking a trap, and the restore (R211, R196) -/

/-- The two pipeline slots a trap saves, for r30 and r31 (R211, `TRAP_SAVE`). -/
def State.trapSlots (s : State) : Word × Word :=
  match s.config.trapSave with
  | .currentAndDelay => (s.pc0, s.pc1)
  | .delayAndSpeculative => (s.pc1, s.pc2)

/-- `TrapEntry()` (R211): r30 and r31 take the two live slots, PIE takes IE, and IE is cleared under `TRAP_CLEARS_IE`
only. No control transfer, no mode (R237, R243). -/
def State.trapEntry (s : State) : State :=
  ((s.setReg 30 s.trapSlots.1).setReg 31 s.trapSlots.2).setSr
    { s.sr with pie := s.sr.ie, ie := if s.config.trapClearsIe then false else s.sr.ie }

/-- `SR.IE <- SR.PIE` when `c = 1`, PIE unchanged: JSR's restore, the only return from a trap's effect there is (R196,
R238). -/
def State.restoreIe (s : State) (c : Bool) : State :=
  s.setSr (if c then { s.sr with ie := s.sr.pie } else s.sr)

/-! ### Loading (R260; log 2) -/

/-- The launch (R260): the host's image placed verbatim at `[0, memLen)`, `memLen` its length, the host's other settings, and
the reset state of R35 for everything else. -/
def State.launch (image : List Byte) (cfg : Config) : State :=
  { State.reset with
    mem := Memory.writeBytes [] 0 image
    config := { cfg with memLen := image.length } }

/-- The host's load of one instruction at the current slot: its four bytes, and an image long enough to hold them. -/
def State.placeFetchWord (s : State) (w : Word) : State :=
  { s.memWrite s.pc0 4 w with config := { s.config with memLen := max s.config.memLen (s.pc0.toNat + 4) } }

end Sys2Proof.Machine
end

