-- ==== Sys2Proof/Machine/Operands.lean ====
section
/-! DEFINITION. Operand forms: operand 2 (30_encoding.md R86), the effective address (20_memory.md R58), the branch offset
(R84), and the shifts (40_alu.md R136, R137, R140 to R143). -/

namespace Sys2Proof.Machine

/-- An immediate extended to 32 bits (R86, `IMM_EXTEND`). -/
def extendImm (mode : ImmExtend) (v : BitVec 16) : Word :=
  match mode with
  | .sign => v.signExtend 32
  | .zero => v.setWidth 32

/-- `op2` (R86): a register's live value, register 0's too, or the extended immediate. -/
def State.op2 (s : State) (src2 : Operand2) : Word :=
  match src2 with
  | .reg r => s.reg r
  | .imm v => extendImm s.config.immExtend v

/-- The register operand 2 reads, when it is one (R86). -/
def operandSources : Operand2 → List Reg
  | .reg r => [r]
  | .imm _ => []

/-- The registers a register-format instruction reads for `x[src1]` and `op2` (R58, R114). -/
def formSources (f : RegForm) : List Reg := f.src1 :: operandSources f.src2

/-- `EA = (x[src1] + op2 * elementSize) mod 2^32` (R58). -/
def State.effAddr (s : State) (size : Nat) (f : RegForm) : Word :=
  s.reg f.src1 + s.op2 f.src2 * BitVec.ofNat 32 size

/-- `spInvolved` (R61): r29 is the base or the register-form offset. -/
def spInvolved (f : RegForm) : Bool := decide (f.src1 = 29) || decide (f.src2 = .reg 29)

/-- `boff = sext_22(off22) * 4` (R84). -/
def branchOffset (off : BitVec 22) : Word := off.signExtend 32 * 4

/-- The target of a conditional branch or BSR: `(PC0 + sext_22(off22) * 4) mod 2^32` (R186, R190). -/
def State.branchTarget (s : State) (off : BitVec 22) : Word := s.pc0 + branchOffset off

/-- The spec's default of `SHIFT_LARGE(op, a, n)` (R137; UNVERIFIED, log 9). -/
def shiftLargeDefault (op : ShiftOp) (a n : Word) : Word :=
  match op with
  | .ashr => if a.msb then BitVec.allOnes 32 else 0
  | .lshr => 0
  | .ashl => 0
  | .rotl =>
    let k := n.toNat % 32
    if k = 0 then a else (a <<< k) ||| (a >>> (32 - k))

/-- `SHIFT_LARGE(op, a, n)` (R137): the default, or a free value of the operands (I1; log 9). -/
def shiftLarge (mode : ShiftLarge) (op : ShiftOp) (a n : Word) : Word :=
  match mode with
  | .specDefault => shiftLargeDefault op a n
  | .anyValue => Config.freeShift op a n

/-- A shift by fewer than 32 (R140 to R143). -/
def shiftSmall (op : ShiftOp) (a : Word) (n : Nat) : Word :=
  match op with
  | .ashr => a.sshiftRight n
  | .lshr => a >>> n
  | .ashl => a <<< n
  | .rotl => if n = 0 then a else (a <<< n) ||| (a >>> (32 - n))

/-- `a` shifted by the unsigned 32-bit amount `n` (R136). -/
def shift (mode : ShiftLarge) (op : ShiftOp) (a n : Word) : Word :=
  if n.toNat < 32 then shiftSmall op a n.toNat else shiftLarge mode op a n

end Sys2Proof.Machine
end

