-- ==== Sys2Proof/Machine/Flags.lean ====
section
/-! DEFINITION. The flag engine (40_alu.md R110 to R116, 41_memory_access.md R150) and the condition table
(42_control_flow.md R185). -/

namespace Sys2Proof.Machine

/-- What `AddWithCarry` answers: the 32-bit result, the carry out and the overflow (R110). -/
structure AddResult where
  r : Word
  carry : Bool
  overflow : Bool
deriving DecidableEq, Repr

/-- `AddWithCarry(a, b, cin)` (R110, R115): the exact sum, its low 32 bits, its bit 32, and the signed overflow. -/
def addWithCarry (a b : Word) (cin : Bool) : AddResult :=
  let sum : Nat := a.toNat + b.toNat + cin.toNat
  let r : Word := BitVec.ofNat 32 sum
  { r := r, carry := sum.testBit 32, overflow := a.msb == b.msb && r.msb != a.msb }

/-- `x - y` (R116): `AddWithCarry(x, ~y, 1)`, or `AddWithCarry(x, -y, 0)` under `SUB_CARRY = negate_first` (R6). -/
def subtract (mode : SubCarry) (x y : Word) : AddResult :=
  match mode with
  | .fused => addWithCarry x (~~~y) true
  | .negateFirst => addWithCarry x (-y) false

/-- `(v & mask) == 0` at width `w` bits (R112, R150). -/
def zeroAt (w : Nat) (v : Word) : Bool := v.setWidth w == 0

/-- `v[w - 1]` (R112, R150). -/
def negAt (w : Nat) (v : Word) : Bool := v.getLsbD (w - 1)

/-- The Z, N mask (R111, R150): with `c = 1` write Z and N from `v` at width `w`; C, V, IE, PIE keep their values. -/
def State.writeZN (s : State) (c : Bool) (w : Nat) (v : Word) : State :=
  s.setSr (if c then { s.sr with z := zeroAt w v, n := negAt w v } else s.sr)

/-- The C, V, Z, N mask of the add/sub family (R111, R114). -/
def State.writeCVZN (s : State) (c : Bool) (a : AddResult) : State :=
  s.setSr (if c then { s.sr with c := a.carry, v := a.overflow, z := zeroAt 32 a.r, n := negAt 32 a.r } else s.sr)

/-- The sixteen condition codes, 0 to 15 in this order (R185). -/
inductive Cond where
  | sp
  | mz
  | gt
  | le
  | ge
  | lt
  | hi
  | ls
  | cc
  | cs
  | pl
  | mi
  | ne
  | eq
  | vc
  | vs
deriving DecidableEq, Repr

/-- The condition table (R185). -/
def Cond.holds (cond : Cond) (sr : StatusReg) : Bool :=
  match cond with
  | .sp => !sr.n && !sr.z
  | .mz => sr.n || sr.z
  | .gt => !sr.z && (sr.n == sr.v)
  | .le => sr.z || (sr.n != sr.v)
  | .ge => sr.n == sr.v
  | .lt => sr.n != sr.v
  | .hi => sr.c && !sr.z
  | .ls => !sr.c || sr.z
  | .cc => !sr.c
  | .cs => sr.c
  | .pl => !sr.n
  | .mi => sr.n
  | .ne => !sr.z
  | .eq => sr.z
  | .vc => !sr.v
  | .vs => sr.v

end Sys2Proof.Machine
end

