-- ==== Sys2Proof/Machine/Alu.lean ====
section
/-! DEFINITION. The ALU (40_alu.md): the add/sub family, the logical family and the shifts, each one line over the common
pseudocode of R114. None reaches memory or logs, and none halts but for a read that `RESET_REGS = unwritten` forbids. -/

namespace Sys2Proof.Machine

/-- The outcome type of every meaning. -/
abbrev Result := Host.Outcome State Fault Refusal

/-- R114 for the add/sub family: `a`, `b` and the C flag are read before anything is written (R113). -/
def addSubOp (compute : Word → Word → Bool → AddResult) (f : RegForm) (s : State) : Result :=
  let res := compute (s.reg f.src1) (s.op2 f.src2) s.sr.c
  .next (s.guardReads (formSources f) ((s.setReg f.dst res.r).writeCVZN f.c res).advance)

/-- R114 for the logical family and the shifts: only Z and N are written (R111). -/
def logicOp (compute : Word → Word → Word) (f : RegForm) (s : State) : Result :=
  let r := compute (s.reg f.src1) (s.op2 f.src2)
  .next (s.guardReads (formSources f) ((s.setReg f.dst r).writeZN f.c 32 r).advance)

/-! ### Add/sub family -/

/-- ADD (R120). -/
def execAdd (f : RegForm) (s : State) : Result := addSubOp (fun a b _ => addWithCarry a b false) f s

/-- SUB (R121): `a - b`. -/
def execSub (f : RegForm) (s : State) : Result := addSubOp (fun a b _ => subtract s.config.subCarry a b) f s

/-- ADDC (R122): `a + b + C`. -/
def execAddc (f : RegForm) (s : State) : Result := addSubOp (fun a b c => addWithCarry a b c) f s

/-- SUBC (R123): `AddWithCarry(a, ~b, C)`, under either setting of `SUB_CARRY` (log 8). -/
def execSubc (f : RegForm) (s : State) : Result := addSubOp (fun a b c => addWithCarry a (~~~b) c) f s

/-- SUBR (R124): `b - a`. -/
def execSubr (f : RegForm) (s : State) : Result := addSubOp (fun a b _ => subtract s.config.subCarry b a) f s

/-! ### Logical family -/

/-- AND (R126). -/
def execAnd (f : RegForm) (s : State) : Result := logicOp (fun a b => a &&& b) f s

/-- ANDN (R127). -/
def execAndn (f : RegForm) (s : State) : Result := logicOp (fun a b => a &&& ~~~b) f s

/-- OR (R128). -/
def execOr (f : RegForm) (s : State) : Result := logicOp (fun a b => a ||| b) f s

/-- ORN (R129). -/
def execOrn (f : RegForm) (s : State) : Result := logicOp (fun a b => a ||| ~~~b) f s

/-- XOR (R130). -/
def execXor (f : RegForm) (s : State) : Result := logicOp (fun a b => a ^^^ b) f s

/-- XORN (R131). -/
def execXorn (f : RegForm) (s : State) : Result := logicOp (fun a b => a ^^^ ~~~b) f s

/-! ### Shifts -/

/-- ASHR (R140). -/
def execAshr (f : RegForm) (s : State) : Result := logicOp (shift s.config.shiftLarge .ashr) f s

/-- LSHR (R141). -/
def execLshr (f : RegForm) (s : State) : Result := logicOp (shift s.config.shiftLarge .lshr) f s

/-- ASHL (R142). -/
def execAshl (f : RegForm) (s : State) : Result := logicOp (shift s.config.shiftLarge .ashl) f s

/-- ROTL (R143). -/
def execRotl (f : RegForm) (s : State) : Result := logicOp (shift s.config.shiftLarge .rotl) f s

end Sys2Proof.Machine
end

