-- ==== Sys2Proof/Machine/ControlFlow.lean ====
section
/-! DEFINITION. The branch controller (42_control_flow.md): the sixteen conditional branches, the illegal conditions, BSR
and JSR. -/

namespace Sys2Proof.Machine

/-- A conditional branch (R186): taken, it transfers; not taken, its target is checked only under
`BRANCH_CHECK_NOT_TAKEN` (R189). No flag is written. -/
def branchOp (cond : Cond) (off : BitVec 22) (s : State) : Result :=
  let target := s.branchTarget off
  if cond.holds s.sr then .next (s.transfer target)
  else if s.config.branchCheckNotTaken && s.targetOutOfRange target then .next (s.fatal .branchTargetOutOfRange)
  else .next s.advance

/-- BSP: condition 0 (R185, R186). -/
def execBsp (off : BitVec 22) (s : State) : Result := branchOp .sp off s

/-- BMZ: condition 1 (R185, R186). -/
def execBmz (off : BitVec 22) (s : State) : Result := branchOp .mz off s

/-- BGT: condition 2 (R185, R186). -/
def execBgt (off : BitVec 22) (s : State) : Result := branchOp .gt off s

/-- BLE: condition 3 (R185, R186). -/
def execBle (off : BitVec 22) (s : State) : Result := branchOp .le off s

/-- BGE: condition 4 (R185, R186). -/
def execBge (off : BitVec 22) (s : State) : Result := branchOp .ge off s

/-- BLT: condition 5 (R185, R186). -/
def execBlt (off : BitVec 22) (s : State) : Result := branchOp .lt off s

/-- BHI: condition 6 (R185, R186). -/
def execBhi (off : BitVec 22) (s : State) : Result := branchOp .hi off s

/-- BLS: condition 7 (R185, R186). -/
def execBls (off : BitVec 22) (s : State) : Result := branchOp .ls off s

/-- BCC: condition 8 (R185, R186). -/
def execBcc (off : BitVec 22) (s : State) : Result := branchOp .cc off s

/-- BCS: condition 9 (R185, R186). -/
def execBcs (off : BitVec 22) (s : State) : Result := branchOp .cs off s

/-- BPL: condition 10 (R185, R186). -/
def execBpl (off : BitVec 22) (s : State) : Result := branchOp .pl off s

/-- BMI: condition 11 (R185, R186). -/
def execBmi (off : BitVec 22) (s : State) : Result := branchOp .mi off s

/-- BNE: condition 12 (R185, R186). -/
def execBne (off : BitVec 22) (s : State) : Result := branchOp .ne off s

/-- BEQ: condition 13 (R185, R186). -/
def execBeq (off : BitVec 22) (s : State) : Result := branchOp .eq off s

/-- BVC: condition 14 (R185, R186). -/
def execBvc (off : BitVec 22) (s : State) : Result := branchOp .vc off s

/-- BVS: condition 15 (R185, R186). -/
def execBvs (off : BitVec 22) (s : State) : Result := branchOp .vs off s

/-- A conditional branch with condition 16 to 31: fatal, whatever the flags and the offset (R184). -/
def execBccIllegal (_cond : BitVec 5) (_off : BitVec 22) (s : State) : Result := .next (s.fatal .illegalBranchCond)

/-- BSR (R190): the link is written before the target is checked (D21). -/
def execBsr (link : Reg) (off : BitVec 22) (s : State) : Result :=
  .next ((s.writeLink link).transfer (s.branchTarget off))

/-- JSR's target: `(x[src1] + op2 * 4) mod 2^32` (R195). -/
def State.jumpTarget (s : State) (f : RegForm) : Word := s.effAddr 4 f

/-- JSR (R195, R196): base and index are read first, then the link and, with `c = 1`, IE are written, then the target is
checked. -/
def execJsr (f : RegForm) (s : State) : Result :=
  .next (s.guardReads (formSources f) (((s.writeLink f.dst).restoreIe f.c).transfer (s.jumpTarget f)))

end Sys2Proof.Machine
end

