-- ==== Sys2Proof/Machine/MemoryAccess.lean ====
section
/-! DEFINITION. Loads, stores, LEA and LEAS (41_memory_access.md). -/

namespace Sys2Proof.Machine

/-- `d & (2^(8*size) - 1)` (R152). -/
def truncateTo (size : Nat) (d : Word) : Word := (d.setWidth (8 * size)).setWidth 32

/-- The common load (R151); a destination of 0 discards the value and keeps the checks. -/
def loadOp (size : Nat) (extend : Word → Word) (f : RegForm) (s : State) : Result :=
  let ea := s.effAddr size f
  let err := s.checkAccess ea size (spInvolved f)
  let v := extend (s.loadRaw err ea size)
  .next (s.guardReads (formSources f) (((s.recordCheck err ea).setReg f.dst v).writeZN f.c (8 * size) v).advance)

/-- The registers a store reads: base, index and data (R152, R90). -/
def storeSources (f : RegForm) : List Reg := f.dst :: formSources f

/-- The common store (R152); the data register is `dst` (R90). -/
def storeOp (size : Nat) (f : RegForm) (s : State) : Result :=
  let ea := s.effAddr size f
  let err := s.checkAccess ea size (spInvolved f)
  let d := truncateTo size (s.reg f.dst)
  .next (s.guardReads (storeSources f)
    (((s.recordCheck err ea).storeChecked err ea size d).writeZN f.c (8 * size) d).advance)

/-- LEA and LEAS: the address itself, no memory and no check (R168, R169). -/
def leaOp (size : Nat) (f : RegForm) (s : State) : Result :=
  let ea := s.effAddr size f
  .next (s.guardReads (formSources f) ((s.setReg f.dst ea).writeZN f.c (8 * size) ea).advance)

/-! ### Loads -/

/-- LD (R155): a word, no extension. -/
def execLd (f : RegForm) (s : State) : Result := loadOp 4 (fun raw => raw) f s

/-- LDH (R156): a halfword, sign-extended from bit 15. -/
def execLdh (f : RegForm) (s : State) : Result := loadOp 2 (fun raw => (raw.setWidth 16).signExtend 32) f s

/-- LDUH (R157): a halfword, zero-extended. -/
def execLduh (f : RegForm) (s : State) : Result := loadOp 2 (fun raw => (raw.setWidth 16).setWidth 32) f s

/-- LDB (R158): a byte, sign-extended from bit 7. -/
def execLdb (f : RegForm) (s : State) : Result := loadOp 1 (fun raw => (raw.setWidth 8).signExtend 32) f s

/-- LDUB (R159): a byte, zero-extended. -/
def execLdub (f : RegForm) (s : State) : Result := loadOp 1 (fun raw => (raw.setWidth 8).setWidth 32) f s

/-! ### Stores -/

/-- ST (R160). -/
def execSt (f : RegForm) (s : State) : Result := storeOp 4 f s

/-- STH (R161). -/
def execSth (f : RegForm) (s : State) : Result := storeOp 2 f s

/-- STB (R162). -/
def execStb (f : RegForm) (s : State) : Result := storeOp 1 f s

/-! ### Address arithmetic -/

/-- LEA (R168): scale 4, flags at word width. -/
def execLea (f : RegForm) (s : State) : Result := leaOp 4 f s

/-- LEAS (R169): scale 2, the whole 32-bit address written, flags at halfword width. -/
def execLeas (f : RegForm) (s : State) : Result := leaOp 2 f s

end Sys2Proof.Machine
end

