-- ==== Sys2Proof/Machine/Syscall.lean ====
section
/-! DEFINITION. The host's side of a trap as an interface (60_exceptions.md R245): which services a number names, what the
host may change, and the free values its answer is made of. The services' bodies are out of scope (00_scope.md R5). -/

namespace Sys2Proof.Machine

/-- The service a syscall number names: EXIT is 1; any other number is the host's to know (R245, D34). -/
def Config.serviceOf (cfg : Config) (num : Word) : Option Service :=
  if num = 1 then some .exit else cfg.services.lookup num

/-- The argument registers a service reads, by R245's argument lists and its ABI (r1, r2, r3; log 23). Which register carries
EXIT's code is the host's (C9), so none is named for it. -/
def Service.args : Service → List Reg
  | .exit => []
  | .fflush => [1]
  | .fputs => [1, 2]
  | .fgets => [1, 2, 3]
  | .fputc => [1, 2]
  | .fgetc => [1]

/-- The register that holds a service's file descriptor, by R245's argument lists and its ABI (r1, r2, r3; log 23). -/
def Service.fdReg : Service → Option Reg
  | .exit => none
  | .fflush => some 1
  | .fputs => some 2
  | .fgets => some 3
  | .fputc => some 2
  | .fgetc => some 1

/-- "writes only to fd 1 and 2, reads only from fd 0" (R245); FFLUSH neither writes nor reads, and takes any of the three
(DESIGN CHOICE, log 23). -/
def Service.fdAllowed (svc : Service) (fd : Word) : Bool :=
  match svc with
  | .exit => true
  | .fflush => fd == 0 || fd == 1 || fd == 2
  | .fputs => fd == 1 || fd == 2
  | .fputc => fd == 1 || fd == 2
  | .fgets => fd == 0
  | .fgetc => fd == 0

/-- The call fails on its descriptor (R245, "Descriptors"). -/
def State.badDescriptor (s : State) (svc : Service) : Bool :=
  match Service.fdReg svc with
  | none => false
  | some r => !Service.fdAllowed svc (s.reg r)

/-- The call fails on its pointer, r1 of FPUTS and FGETS (R245, "Pointers"). -/
def State.badPointer (s : State) (svc : Service) : Bool :=
  match svc with
  | .fputs => decide (s.memTop ≤ (s.reg 1).toNat)
  | .fgets => decide (s.memTop ≤ (s.reg 1).toNat)
  | _ => false

/-- The error code the host writes at `ERRNO_CELL` when one is configured inside memory: a word, whose value is free
(R245, I12; its width is a DESIGN CHOICE, log 23). -/
def State.writeErrno (s : State) : State :=
  match s.config.errnoCell with
  | none => s
  | some cell => if cell.toNat + 4 ≤ s.memTop then s.memWrite cell 4 (Config.hostErrno s.hostCalls) else s

/-- The bytes FGETS stores: at most `maxlen` (r2), none past memory (R245). -/
def State.fgetsBytes (s : State) : List Byte :=
  (Config.hostBytes s.hostCalls).take (min (s.reg 2).toNat (s.memTop - (s.reg 1).toNat))

/-- What a serviced call changes before the pipeline advances: r1, and memory as R245 allows. -/
def State.hostAnswer (s : State) (svc : Service) : State :=
  if s.badDescriptor svc then s.writeErrno.setReg 1 0xFFFFFFFF
  else if s.badPointer svc then s.setReg 1 (Config.hostResult s.hostCalls)
  else
    let stored : State :=
      if svc = .fgets then { s with mem := Memory.writeBytes s.mem (s.reg 1).toNat s.fgetsBytes } else s
    stored.setReg 1 (Config.hostResult s.hostCalls)

/-- The host has answered once more: the next answer is another free value (log 21). -/
def State.countCall (s : State) : State := { s with hostCalls := s.hostCalls + 1 }

/-- EXIT ends the run; the code is the host's (R245, C9). -/
def State.exit (s : State) : State := { s with runState := .exited (Config.hostExitCode s.hostCalls) }

/-- `raise Trap(num)` and what follows it (R212, R245): EXIT ends the run without an advance, an unknown number is
refused, any other service reads its arguments (R35, under `unwritten`; log 12) and answers, and the pipeline advances
(D28). -/
def State.callHost (s : State) (num : Word) : State :=
  match Config.serviceOf s.config num with
  | none => s.refuse
  | some .exit => s.exit.countCall
  | some svc => s.guardReads (Service.args svc) (s.hostAnswer svc).countCall.advance

/-- The call is a console read that never returns: it may read its arguments, passes the descriptor and pointer checks, and
the host's answer never comes (R245, "Blocking"; log 24). -/
def State.callHangs (s : State) (num : Word) : Bool :=
  match Config.serviceOf s.config num with
  | some .fgets =>
    s.canRead (Service.args .fgets) && !s.badDescriptor .fgets && !s.badPointer .fgets &&
      !Config.hostReturns s.hostCalls
  | some .fgetc =>
    s.canRead (Service.args .fgetc) && !s.badDescriptor .fgetc && !Config.hostReturns s.hostCalls
  | _ => false

end Sys2Proof.Machine
end

