-- ==== Sys2Proof/Machine/Trap.lean ====
section
/-! DEFINITION. The trap instructions (43_trap.md) and the two opcodes no source describes. -/

namespace Sys2Proof.Machine

/-- TRAP0 (R210): trap entry, then always fatal. -/
def execTrap0 (_f : RegForm) (s : State) : Result := .next (s.trapEntry.fatal .illegalOpcode)

/-- The syscall number a trap's operand resolves to, read after the trap entry (R212): a register among r1 to r5 that does
not hold 0, or an immediate of 1 to 255. -/
def State.syscallNumber (s : State) (src2 : Operand2) : Option Word :=
  match src2 with
  | .reg r => if 1 ≤ r.val ∧ r.val ≤ 5 ∧ s.reg r ≠ 0 then some (s.reg r) else none
  | .imm v => if 1 ≤ v.toNat ∧ v.toNat ≤ 255 then some (v.setWidth 32) else none

/-- The register a TRAP reads for its number, when it names one of r1 to r5 (R212). -/
def trapSources (src2 : Operand2) : List Reg :=
  match src2 with
  | .reg r => if 1 ≤ r.val ∧ r.val ≤ 5 then [r] else []
  | .imm _ => []

/-- The raw word exceeds `TRAP_WORD_LIMIT` (R213). -/
def State.trapWordTooLarge (s : State) (f : RegForm) : Bool :=
  decide (s.config.trapWordLimit.toNat < (encode (.trap f)).toNat)

/-- What follows a TRAP's word limit: an operand that resolves to no number is fatal, and a number goes to the host (R212,
R213). -/
def State.resolveTrap (e : State) (src2 : Operand2) : State :=
  match e.syscallNumber src2 with
  | none => e.fatal .illegalOpcode
  | some num => e.callHost num

/-- The state a TRAP ends in, from the state after its entry (R212, R213). -/
def State.afterTrap (e : State) (f : RegForm) : State :=
  if e.trapWordTooLarge f then e.fatal .illegalOpcode
  else e.guardReads (trapSources f.src2) (e.resolveTrap f.src2)

/-- The TRAP passes its envelope and calls a host service that never returns (R245). -/
def State.trapHangs (e : State) (f : RegForm) : Bool :=
  match e.syscallNumber f.src2 with
  | none => false
  | some num => e.callHangs num && e.canRead (trapSources f.src2) && !e.trapWordTooLarge f

/-- TRAP (R212). -/
def execTrap (f : RegForm) (s : State) : Result :=
  if s.trapEntry.trapHangs f then .fault .hostNeverReturns else .next (s.trapEntry.afterTrap f)

/-- Opcode 0x1C (R220, R236): `Refused <- true` and no other effect. -/
def execOp1C (_f : RegForm) (s : State) : Result := .next s.refuse

/-- Opcode 0x1D (R220, R236): `Refused <- true` and no other effect. -/
def execOp1D (_f : RegForm) (s : State) : Result := .next s.refuse

end Sys2Proof.Machine
end

