-- ==== Sys2Proof/Machine/Dispatch.lean ====
section
/-! DEFINITION. One arm per instruction: the call of its meaning. -/

namespace Sys2Proof.Machine

def exec (i : Instr) (s : State) : Host.Outcome State Fault Refusal :=
  match i with
  | .trap0 f => Sys2Proof.Machine.execTrap0 f s
  | .bsp off => Sys2Proof.Machine.execBsp off s
  | .bmz off => Sys2Proof.Machine.execBmz off s
  | .bgt off => Sys2Proof.Machine.execBgt off s
  | .ble off => Sys2Proof.Machine.execBle off s
  | .bge off => Sys2Proof.Machine.execBge off s
  | .blt off => Sys2Proof.Machine.execBlt off s
  | .bhi off => Sys2Proof.Machine.execBhi off s
  | .bls off => Sys2Proof.Machine.execBls off s
  | .bcc off => Sys2Proof.Machine.execBcc off s
  | .bcs off => Sys2Proof.Machine.execBcs off s
  | .bpl off => Sys2Proof.Machine.execBpl off s
  | .bmi off => Sys2Proof.Machine.execBmi off s
  | .bne off => Sys2Proof.Machine.execBne off s
  | .beq off => Sys2Proof.Machine.execBeq off s
  | .bvc off => Sys2Proof.Machine.execBvc off s
  | .bvs off => Sys2Proof.Machine.execBvs off s
  | .bccIllegal cond off => Sys2Proof.Machine.execBccIllegal cond off s
  | .bsr link off => Sys2Proof.Machine.execBsr link off s
  | .lea f => Sys2Proof.Machine.execLea f s
  | .leas f => Sys2Proof.Machine.execLeas f s
  | .subr f => Sys2Proof.Machine.execSubr f s
  | .xor f => Sys2Proof.Machine.execXor f s
  | .xorn f => Sys2Proof.Machine.execXorn f s
  | .add f => Sys2Proof.Machine.execAdd f s
  | .sub f => Sys2Proof.Machine.execSub f s
  | .addc f => Sys2Proof.Machine.execAddc f s
  | .subc f => Sys2Proof.Machine.execSubc f s
  | .and f => Sys2Proof.Machine.execAnd f s
  | .andn f => Sys2Proof.Machine.execAndn f s
  | .or f => Sys2Proof.Machine.execOr f s
  | .orn f => Sys2Proof.Machine.execOrn f s
  | .ld f => Sys2Proof.Machine.execLd f s
  | .ldh f => Sys2Proof.Machine.execLdh f s
  | .lduh f => Sys2Proof.Machine.execLduh f s
  | .sth f => Sys2Proof.Machine.execSth f s
  | .st f => Sys2Proof.Machine.execSt f s
  | .ldb f => Sys2Proof.Machine.execLdb f s
  | .ldub f => Sys2Proof.Machine.execLdub f s
  | .stb f => Sys2Proof.Machine.execStb f s
  | .ashr f => Sys2Proof.Machine.execAshr f s
  | .lshr f => Sys2Proof.Machine.execLshr f s
  | .ashl f => Sys2Proof.Machine.execAshl f s
  | .rotl f => Sys2Proof.Machine.execRotl f s
  | .op1C f => Sys2Proof.Machine.execOp1C f s
  | .op1D f => Sys2Proof.Machine.execOp1D f s
  | .jsr f => Sys2Proof.Machine.execJsr f s
  | .trap f => Sys2Proof.Machine.execTrap f s

end Sys2Proof.Machine
end

