-- ==== Sys2Proof/Machine/Step.lean ====
section
/-! DEFINITION. One step of the block (42_control_flow.md R180). -/

namespace Sys2Proof.Machine

/-- One step (R180), enabled only while running and not refused (R31, R33): the fetch checks (R81; R82 under
`MISALIGNED_FETCH = fault`, log 6) come before decode (R235), and everything an instruction does, its advance included, is
its meaning. -/
def step (s : State) : Host.Outcome State Fault Refusal :=
  match s.runState with
  | .halted _ => .fault .runHalted
  | .exited _ => .fault .runExited
  | .running =>
    if s.refused then .refused .runRefused
    else if s.fetchFails then .next (s.fatal .fetchOutOfRange)
    else if s.fetchMisaligned then .next (s.fatal .misalignedFetch)
    else exec (decodeWord s.fetchWord) s

/-- `s` with the instruction of a table word loaded where `step` fetches next (R260; log 2): its four bytes at `PC0`, and an
image that reaches past them. -/
def State.withFetchWord (s : State) (nbits w : Nat) : State :=
  s.placeFetchWord (BitVec.ofNat 32 (w % 2 ^ nbits))

end Sys2Proof.Machine
end

