-- ==== Sys2Proof/Safety.lean ====
section
/-! DEFINITION. The words that claims about a run use: what a launch must meet, what a good end is, and the invariant that
every step keeps. -/

namespace Sys2Proof.Machine

/-- The launch premise on the configuration: the buffer fits the address space (R262, D37). -/
abbrev State.fitsAddressSpace (s : State) : Prop := s.memTop ≤ 2 ^ 32

/-- The host's image stands in memory as it was supplied: `memLen` is its length, byte `a` of `[0, memLen)` is its byte `a`
(R260), and every later byte reads 0 (R35). -/
structure State.HoldsImage (image : List Byte) (s : State) : Prop where
  length : image.length = s.config.memLen
  bytes : ∀ (a : Nat) (h : a < image.length), Memory.read s.mem a = image[a]
  rest : ∀ a, image.length ≤ a → Memory.read s.mem a = 0

/-- The launch premises of R262, each by its name, of a machine given this image: hypotheses of claims about a run, not checks
of the machine (log 33). -/
structure State.LaunchPremises (image : List Byte) (s : State) : Prop where
  /-- `memLen + stackSize <= 2^32` (D37). -/
  fits : s.fitsAddressSpace
  /-- The image is exactly `memLen` bytes. -/
  imageLength : image.length = s.config.memLen
  /-- `RunState = Running`. -/
  running : s.runState = .running
  /-- `MemErrLog` is empty. -/
  noMemErrors : s.memErrLog = []
  /-- `Refused = false`. -/
  notRefused : s.refused = false

/-- A step is enabled: running and not refused (R180). -/
abbrev State.enabled (s : State) : Prop := s.runState = .running ∧ s.refused = false

/-- A successful end: exited, no memory error, not refused (R247). -/
def State.succeeded (s : State) : Bool :=
  (match s.runState with
    | .exited _ => true
    | _ => false) && s.memErrLog.isEmpty && !s.refused

/-- Every listed byte lies in `[0, memTop)`: the buffer has a fixed length (R30, R50). -/
abbrev State.memInRange (s : State) : Prop := ∀ cell ∈ s.mem, cell.1 < s.memTop

/-- What holds between steps: memory in canonical form and inside the buffer, the last pipeline slot four past the delay
slot (R28), register 0 reading 0 (R21), and a register that nothing has written holding its reset value 0 (R35). -/
structure State.Inv (s : State) : Prop where
  memWf : Memory.wf s.mem
  memInRange : s.memInRange
  pipeline : s.pc2 = s.pc1 + 4
  zeroReg : s.reg 0 = 0
  unwrittenZero : ∀ r, s.hasWritten r = false → s.reg r = 0

/-! ### What an instruction leaves unchanged -/

/-- The pipeline has moved on by one instruction, without a transfer (R181). -/
structure State.Advanced (s t : State) : Prop where
  pc0 : t.pc0 = s.pc1
  pc1 : t.pc1 = s.pc2
  pc2 : t.pc2 = s.pc2 + 4

/-- The pipeline stands as before. -/
structure State.SamePipeline (s t : State) : Prop where
  pc0 : t.pc0 = s.pc0
  pc1 : t.pc1 = s.pc1
  pc2 : t.pc2 = s.pc2

/-- Every register reads as before and counts as written as before. -/
structure State.SameRegs (s t : State) : Prop where
  reg : ∀ r, t.reg r = s.reg r
  written : ∀ r, t.hasWritten r = s.hasWritten r

/-- Register `d` reads `v` and is now written, but for register 0, which discards the write; every other register is as before
(R9, R21, R35). -/
structure State.SetsOnly (s t : State) (d : Reg) (v : Word) : Prop where
  reg : ∀ r, t.reg r = if r = d ∧ r ≠ 0 then v else s.reg r
  written : ∀ r, t.hasWritten r = if r = d ∧ r ≠ 0 then true else s.hasWritten r

/-- Every byte of memory reads as before. -/
abbrev State.SameMemory (s t : State) : Prop := ∀ a, Memory.read t.mem a = Memory.read s.mem a

/-- Every byte of memory outside the `n` bytes at `a` reads as before. -/
abbrev State.SameMemoryOutside (s t : State) (a n : Nat) : Prop :=
  ∀ x, (x < a ∨ a + n ≤ x) → Memory.read t.mem x = Memory.read s.mem x

/-- The refusal mark, the configuration and the count of host calls are as before. -/
structure State.SameFixed (s t : State) : Prop where
  refused : t.refused = s.refused
  config : t.config = s.config
  hostCalls : t.hostCalls = s.hostCalls

/-- Memory, run state, error log and all that `SameFixed` names are as before. -/
structure State.SameElsewhere (s t : State) : Prop extends State.SameFixed s t where
  mem : s.SameMemory t
  runState : t.runState = s.runState
  memErrLog : t.memErrLog = s.memErrLog

/-- An instruction that writes one register and flags, and moves on: every field of `t` is said (R113, R114). -/
structure State.Computes (s t : State) (d : Reg) (v : Word) (sr : StatusReg) : Prop where
  regs : s.SetsOnly t d v
  sr : t.sr = sr
  pipeline : s.Advanced t
  elsewhere : s.SameElsewhere t

/-! ### Values as integers -/

/-- An integer inside the signed 32-bit range (R115). -/
abbrev signedFits (x : Int) : Prop := -2 ^ 31 ≤ x ∧ x < 2 ^ 31

/-- The number that bytes stand for, the least significant byte first (R55). -/
def natOfBytes : List Byte → Nat
  | [] => 0
  | b :: bs => b.toNat + 256 * natOfBytes bs

/-- The number the `n` bytes at `a` stand for in the configured byte order (R55). -/
def State.numberAt (s : State) (a n : Nat) : Nat :=
  let bytes := (List.range n).map fun k => Memory.read s.mem (a + k)
  match s.config.byteOrder with
  | .little => natOfBytes bytes
  | .big => natOfBytes bytes.reverse

/-- The address the branch format reaches: `off22` words, signed, from `PC0`, modulo 2^32 (R84, R186). -/
def State.relativeTarget (s : State) (off : BitVec 22) : Word := BitVec.ofInt 32 ((s.pc0.toNat : Int) + 4 * off.toInt)

/-! ### What a trap leaves (R211, R212) -/

/-- The status register a trap leaves: PIE takes IE, and IE is cleared under `TRAP_CLEARS_IE` (R211). -/
def State.trapSr (s : State) : StatusReg :=
  { s.sr with pie := s.sr.ie, ie := s.sr.ie && !s.config.trapClearsIe }

/-- What a trap has written before anything else happens (R211): r30 and r31 take the two slots of `TRAP_SAVE`, every other
register but `r1`, which a service may answer in, is as before. -/
def State.TrapSaved (s t : State) : Prop :=
  t.sr = s.trapSr ∧
  (match s.config.trapSave with
    | .currentAndDelay => t.reg 30 = s.pc0 ∧ t.reg 31 = s.pc1
    | .delayAndSpeculative => t.reg 30 = s.pc1 ∧ t.reg 31 = s.pc2) ∧
  (∀ r, r ≠ 1 → r ≠ 30 → r ≠ 31 → t.reg r = s.reg r) ∧
  ∀ r, r ≠ 1 → t.hasWritten r = (s.hasWritten r || decide (r = 30) || decide (r = 31))

/-- Register 1 is as before: a trap that no service answered. -/
structure State.SameR1 (s t : State) : Prop where
  reg : t.reg 1 = s.reg 1
  written : t.hasWritten 1 = s.hasWritten 1

/-- The number a TRAP inside its envelope, whose register can be read, hands to the host (R212). -/
def State.TrapNumber (s : State) (f : RegForm) (num : Word) : Prop :=
  (encode (.trap f)).toNat ≤ s.config.trapWordLimit.toNat ∧
  match f.src2 with
  | .reg r => 1 ≤ r.val ∧ r.val ≤ 5 ∧ s.readable r = true ∧ s.reg r = num ∧ num ≠ 0
  | .imm v => 1 ≤ v.toNat ∧ v.toNat ≤ 255 ∧ num.toNat = v.toNat

end Sys2Proof.Machine

namespace Sys2Proof

open Sys2Proof.Machine

/-! ### Classes of instructions -/

/-- The affect-status bit of a register-format instruction; the branch format has none (R83, R84). -/
def Instr.affectStatus : Instr → Bool
  | .lea f => f.c
  | .leas f => f.c
  | .subr f => f.c
  | .xor f => f.c
  | .xorn f => f.c
  | .add f => f.c
  | .sub f => f.c
  | .addc f => f.c
  | .subc f => f.c
  | .and f => f.c
  | .andn f => f.c
  | .or f => f.c
  | .orn f => f.c
  | .ld f => f.c
  | .ldh f => f.c
  | .lduh f => f.c
  | .sth f => f.c
  | .st f => f.c
  | .ldb f => f.c
  | .ldub f => f.c
  | .stb f => f.c
  | .ashr f => f.c
  | .lshr f => f.c
  | .ashl f => f.c
  | .rotl f => f.c
  | .jsr f => f.c
  | _ => false

/-- The registers an instruction reads before it writes anything (R114, R151, R152, R195); TRAP, which reads after its trap
entry, has `trapSources`. -/
def Instr.sources : Instr → List Reg
  | .lea f => formSources f
  | .leas f => formSources f
  | .subr f => formSources f
  | .xor f => formSources f
  | .xorn f => formSources f
  | .add f => formSources f
  | .sub f => formSources f
  | .addc f => formSources f
  | .subc f => formSources f
  | .and f => formSources f
  | .andn f => formSources f
  | .or f => formSources f
  | .orn f => formSources f
  | .ld f => formSources f
  | .ldh f => formSources f
  | .lduh f => formSources f
  | .sth f => storeSources f
  | .st f => storeSources f
  | .ldb f => formSources f
  | .ldub f => formSources f
  | .stb f => storeSources f
  | .ashr f => formSources f
  | .lshr f => formSources f
  | .ashl f => formSources f
  | .rotl f => formSources f
  | .jsr f => formSources f
  | _ => []

/-- The add/sub family, which alone writes C and V (R111). -/
def Instr.isAddSub : Instr → Bool
  | .add _ => true
  | .sub _ => true
  | .addc _ => true
  | .subc _ => true
  | .subr _ => true
  | _ => false

/-- The stores. -/
def Instr.isStore : Instr → Bool
  | .st _ => true
  | .sth _ => true
  | .stb _ => true
  | _ => false

/-- The two trap instructions. -/
def Instr.isTrap : Instr → Bool
  | .trap0 _ => true
  | .trap _ => true
  | _ => false

/-- JSR. -/
def Instr.isJsr : Instr → Bool
  | .jsr _ => true
  | _ => false

/-- Where a control transfer goes; none for an instruction that is no transfer (R186, R190, R195). -/
def Instr.transferTarget (i : Instr) (s : State) : Option Word :=
  match i with
  | .bsp off => some (s.relativeTarget off)
  | .bmz off => some (s.relativeTarget off)
  | .bgt off => some (s.relativeTarget off)
  | .ble off => some (s.relativeTarget off)
  | .bge off => some (s.relativeTarget off)
  | .blt off => some (s.relativeTarget off)
  | .bhi off => some (s.relativeTarget off)
  | .bls off => some (s.relativeTarget off)
  | .bcc off => some (s.relativeTarget off)
  | .bcs off => some (s.relativeTarget off)
  | .bpl off => some (s.relativeTarget off)
  | .bmi off => some (s.relativeTarget off)
  | .bne off => some (s.relativeTarget off)
  | .beq off => some (s.relativeTarget off)
  | .bvc off => some (s.relativeTarget off)
  | .bvs off => some (s.relativeTarget off)
  | .bsr _ off => some (s.relativeTarget off)
  | .jsr f => some (s.reg f.src1 + 4 * s.op2 f.src2)
  | _ => none

/-- The five loads with their sizes, for statements that hold of each. -/
def sizedLoads (f : RegForm) : List (Instr × Nat) :=
  [(.ld f, 4), (.ldh f, 2), (.lduh f, 2), (.ldb f, 1), (.ldub f, 1)]

/-- The three stores with their sizes. -/
def sizedStores (f : RegForm) : List (Instr × Nat) := [(.st f, 4), (.sth f, 2), (.stb f, 1)]

/-- The sixteen conditional branches with the test each makes, as R185's table has it. -/
def conditionTable : List ((BitVec 22 → Instr) × (StatusReg → Bool)) :=
  [ (.bsp, fun f => decide (f.n = false ∧ f.z = false)),
    (.bmz, fun f => decide (f.n = true ∨ f.z = true)),
    (.bgt, fun f => decide (f.z = false ∧ f.n = f.v)),
    (.ble, fun f => decide (f.z = true ∨ f.n ≠ f.v)),
    (.bge, fun f => decide (f.n = f.v)),
    (.blt, fun f => decide (f.n ≠ f.v)),
    (.bhi, fun f => decide (f.c = true ∧ f.z = false)),
    (.bls, fun f => decide (f.c = false ∨ f.z = true)),
    (.bcc, fun f => decide (f.c = false)),
    (.bcs, fun f => decide (f.c = true)),
    (.bpl, fun f => decide (f.n = false)),
    (.bmi, fun f => decide (f.n = true)),
    (.bne, fun f => decide (f.z = false)),
    (.beq, fun f => decide (f.z = true)),
    (.bvc, fun f => decide (f.v = false)),
    (.bvs, fun f => decide (f.v = true)) ]

/-- One of the sixteen conditional branches (R185). -/
def Instr.IsConditionalBranch (i : Instr) : Prop := ∃ p ∈ conditionTable, ∃ off, i = p.1 off

end Sys2Proof
end

