-- ==== Sys2Proof/Certificates/Slice0/Obligations.lean ====
section
/-! DEFINITION. The statements for the provers. Each docstring names the rule of spec/ it formalises; where a clause rests on
a decision of the spec (`D<n>`) or on a choice of this model, the docstring says so and names the log entry. -/

open Sys2Proof Sys2Proof.Machine

/-! ### Encoding (30_encoding.md) -/

/-- R83, R84, R86, R89: the decoder reads back every field of every well-formed instruction from its word. The opcode
numbers are UNVERIFIED (D9, log 14). -/
def Obligations.DecodeReadsBackEveryEncodedInstruction : Prop :=
  ∀ i : Instr, i.wf = true → decodeWord (encode i) = i

/-- R88: decoding is total; every one of the 2^32 words yields a format and fields, and no bit of it is dropped. -/
def Obligations.EveryWordDecodesAndReencodesToItself : Prop :=
  ∀ w : Word, (decodeWord w).wf = true ∧ encode (decodeWord w) = w

/-- R83, R84, R89: words written out bit by bit from the formats decode to the instructions they stand for. -/
def Obligations.HandwrittenWordsDecode : Prop :=
  decodeWord 0b01000_00011_1_00001_1111111111100010#32 = .add ⟨3, true, 1, .reg 2⟩ ∧
  decodeWord 0b01001_00000_1_00101_0000000000000010#32 = .sub ⟨0, true, 5, .imm 2⟩ ∧
  decodeWord 0b01101_00011_0_00001_0000000011111111#32 = .andn ⟨3, false, 1, .imm 0xFF⟩ ∧
  decodeWord 0b11000_00011_1_00001_0000000000011111#32 = .ashr ⟨3, true, 1, .imm 31⟩ ∧
  decodeWord 0b10010_00011_1_11101_0000000000000001#32 = .lduh ⟨3, true, 29, .imm 1⟩ ∧
  decodeWord 0b10100_00100_0_11101_1111111111011111#32 = .st ⟨4, false, 29, .imm 0xFFDF⟩ ∧
  decodeWord 0b00100_00011_1_00001_1111111111111111#32 = .leas ⟨3, true, 1, .reg 31⟩ ∧
  decodeWord 0b00001_01101_0000000000000000000100#32 = .beq 4 ∧
  decodeWord 0b00001_10000_0000000000000000000100#32 = .bccIllegal 16 4 ∧
  decodeWord 0b00010_11100_1111111111111111111111#32 = .bsr 28 0x3FFFFF ∧
  decodeWord 0b11110_00000_0_11100_0000000000000000#32 = .jsr ⟨0, false, 28, .imm 0⟩ ∧
  decodeWord 0b11111_00000_0_00000_0000000000000001#32 = .trap ⟨0, false, 0, .imm 1⟩ ∧
  decodeWord 0b11100_00000_0_00000_0000000000000000#32 = .op1C ⟨0, false, 0, .imm 0⟩

/-- R85: an instruction is exactly four bytes; the decoder of bytes takes them, leaves the rest, and rejects fewer by
name. -/
def Obligations.ByteDecoderTakesFourBytes : Prop :=
  (∀ (order : ByteOrder) (w : Word) (rest : List Byte),
    decodeBytes order (bytesOf order 4 w ++ rest) = .ok (decodeWord w, rest)) ∧
  ∀ (order : ByteOrder) (bs : List Byte), bs.length < 4 → decodeBytes order bs = .error .truncated

/-- R86, R87: a field in `[0xFFE0, 0xFFFF]` is a register, read live, and any other is an immediate extended as `IMM_EXTEND`
says (D8, log 7), which under `sign` is never one of -32 to -1. -/
def Obligations.OperandTwoIsRegisterOrExtendedImmediate : Prop :=
  ∀ (s : State) (raw : BitVec 16),
    (∀ r : Reg, raw.toNat = 0xFFE0 + r.val → s.op2 (decodeOperand2 raw) = s.reg r) ∧
    (raw.toNat < 0xFFE0 → s.config.immExtend = .sign →
      (s.op2 (decodeOperand2 raw)).toInt = raw.toInt ∧ ¬(-32 ≤ raw.toInt ∧ raw.toInt < 0)) ∧
    (raw.toNat < 0xFFE0 → s.config.immExtend = .zero → (s.op2 (decodeOperand2 raw)).toNat = raw.toNat)

/-! ### The step, reset and the invariant -/

/-- R180, R80: while running, not refused and with the fetch in range, a step is the meaning of the instruction that the
four bytes at `PC0` decode to, and nothing else: the advance is the instruction's own (R181). -/
def Obligations.StepRunsTheDecodedInstruction : Prop :=
  ∀ (s : State) (i : Instr), s.enabled → s.pc0.toNat + 4 ≤ s.memTop →
    (s.config.misalignedFetch = .bytes ∨ s.pc0.toNat % 4 = 0) → i.wf = true →
    decodeBytes s.config.byteOrder (Memory.readBytes s.mem s.pc0.toNat 4) = .ok (i, []) → step s = exec i s

/-- The model's choice (DESIGN CHOICE, log 2) with R80, R260: an instruction loaded by `withFetchWord` is the one the next
step runs. -/
def Obligations.LoadedWordIsRunByTheNextStep : Prop :=
  ∀ (s : State) (w : Nat), s.enabled → (s.config.misalignedFetch = .bytes ∨ s.pc0.toNat % 4 = 0) → w < 2 ^ 32 →
    step (s.withFetchWord 32 w) = exec (decodeWord (BitVec.ofNat 32 w)) (s.withFetchWord 32 w)

/-- R31, R33: no step is enabled from a halted, an exited or a refused state. The names of the stops are the model's (log
17). -/
def Obligations.NoStepAfterTheRunHasEnded : Prop :=
  ∀ s : State,
    (∀ reason, s.runState = .halted reason → step s = .fault .runHalted) ∧
    (∀ code, s.runState = .exited code → step s = .fault .runExited) ∧
    (s.runState = .running → s.refused = true → step s = .refused .runRefused)

/-- R81 (D31, log 20): a fetch past `memTop` halts with `FetchOutOfRange` and changes nothing else. -/
def Obligations.FetchPastMemoryHalts : Prop :=
  ∀ s : State, s.enabled → s.memTop < s.pc0.toNat + 4 →
    step s = .next { s with runState := .halted .fetchOutOfRange }

/-- R35, R261 (D29, D30, logs 12, 13): the state after reset: every value R35 states, and no register counts as written. -/
def Obligations.ResetLeavesTheStatedValues : Prop :=
  (∀ r : Reg, State.reset.reg r = 0) ∧ State.reset.sr.toBits = 0 ∧
  State.reset.pc0 = 0 ∧ State.reset.pc1 = 4 ∧ State.reset.pc2 = 8 ∧
  (∀ a, Memory.read State.reset.mem a = 0) ∧ State.reset.runState = .running ∧
  State.reset.memErrLog = [] ∧ State.reset.refused = false ∧ ∀ r : Reg, State.reset.hasWritten r = false

/-- The invariant holds after reset. -/
def Obligations.ResetMeetsTheInvariant : Prop := State.reset.Inv

/-- R28, R21, R30: every step keeps the invariant: memory in canonical form and inside the buffer, `PC2 = PC1 + 4`, and
register 0 reading 0, and a register that nothing has written holding its reset value 0 (R35). It holds whatever the host
answers (log 21). -/
def Obligations.EveryStepKeepsTheInvariant : Prop :=
  ∀ s t : State, s.Inv → step s = .next t → t.Inv

/-- R30: two memories in canonical form that read alike everywhere are the same data (log 31). -/
def Obligations.CanonicalMemoriesThatReadAlikeAreEqual : Prop :=
  ∀ m m' : Memory, Memory.wf m → Memory.wf m' → (∀ a, Memory.read m a = Memory.read m' a) → m = m'

/-! ### Rules about every step -/

/-- R21: no step changes register 0; every write to it is discarded. -/
def Obligations.NoStepChangesRegisterZero : Prop :=
  ∀ s t : State, step s = .next t → t.reg 0 = s.reg 0

/-- R36, R32: the configuration is fixed for the run, and the error log only grows, by at most one record of this step. -/
def Obligations.ConfigurationFixedAndErrorLogOnlyGrows : Prop :=
  ∀ s t : State, step s = .next t → t.config = s.config ∧
    ∃ new : List MemErr, t.memErrLog = s.memErrLog ++ new ∧ new.length ≤ 1 ∧ ∀ e ∈ new, e.pc = s.pc0

/-- R181: a step that leaves the machine able to go on has advanced the pipeline: `current` is the old delay slot, the delay
slot is the old `speculativeNext` or the target of a control transfer, and `speculativeNext` is four past it; a step that
halts has not advanced. -/
def Obligations.CompletedStepsAdvanceAndHaltingStepsDoNot : Prop :=
  ∀ s t : State, step s = .next t →
    (t.enabled → t.pc0 = s.pc1 ∧ t.pc2 = t.pc1 + 4 ∧
      (t.pc1 = s.pc2 ∨ (decodeWord s.fetchWord).transferTarget s = some t.pc1)) ∧
    (∀ reason, t.runState = .halted reason → s.SamePipeline t)

/-- R231, R232, R234: what a halting step has written, reason by reason. `IllegalOpcode`: a trap, with r30, r31, PIE and
IE as its entry leaves them (D25, D26, log 11). `BranchTargetOutOfRange`: by the decoded instruction, BSR its link
register with `PC0 + 8`, JSR its own and, with `c = 1`, IE from PIE (D21, D22, log 27), a conditional branch nothing. The
other reasons: nothing, but for the trap entry of a TRAP that goes on to read a register it may not. Memory, the error
log, C, V, Z, N, the configuration and the count of host calls stand as before. The two reasons beside R231's four are the
model's (DESIGN CHOICE, logs 6, 12). -/
def Obligations.HaltingStepsKeepMemoryLogAndFlags : Prop :=
  ∀ s t : State, ∀ reason, step s = .next t → t.runState = .halted reason →
    s.SameMemory t ∧ t.memErrLog = s.memErrLog ∧ t.refused = false ∧ s.SameFixed t ∧
    t.sr.c = s.sr.c ∧ t.sr.v = s.sr.v ∧ t.sr.z = s.sr.z ∧ t.sr.n = s.sr.n ∧
    match reason with
    | .illegalOpcode => (decodeWord s.fetchWord).isTrap = true ∧ s.TrapSaved t ∧ s.SameR1 t
    | .illegalBranchCond =>
      (∃ cond off, decodeWord s.fetchWord = .bccIllegal cond off) ∧ s.SameRegs t ∧ t.sr = s.sr
    | .branchTargetOutOfRange =>
      (∃ link off, decodeWord s.fetchWord = .bsr link off ∧ s.SetsOnly t link (s.pc0 + 8) ∧ t.sr = s.sr) ∨
      (∃ f, decodeWord s.fetchWord = .jsr f ∧ s.SetsOnly t f.dst (s.pc0 + 8) ∧
        t.sr = { s.sr with ie := if f.c then s.sr.pie else s.sr.ie }) ∨
      ((decodeWord s.fetchWord).IsConditionalBranch ∧ s.SameRegs t ∧ t.sr = s.sr)
    | .fetchOutOfRange => s.memTop < s.pc0.toNat + 4 ∧ s.SameRegs t ∧ t.sr = s.sr
    | .misalignedFetch => s.pc0.toNat % 4 ≠ 0 ∧ s.SameRegs t ∧ t.sr = s.sr
    | .unwrittenRegister =>
      if (decodeWord s.fetchWord).isTrap then s.TrapSaved t ∧ s.SameR1 t else s.SameRegs t ∧ t.sr = s.sr

/-- R54, R245: only a store, or a trap through its host service, changes memory. -/
def Obligations.OnlyStoresAndTrapsChangeMemory : Prop :=
  ∀ (i : Instr) (s t : State), exec i s = .next t → i.isStore = false → i.isTrap = false → s.SameMemory t

/-- R26, R111, R275: C, V, Z and N change only by an instruction whose `c` bit is 1, and C and V only by the add/sub
family. -/
def Obligations.FlagsChangeOnlyByInstructionsThatAffectStatus : Prop :=
  ∀ (i : Instr) (s t : State), exec i s = .next t →
    (i.affectStatus = false → t.sr.c = s.sr.c ∧ t.sr.v = s.sr.v ∧ t.sr.z = s.sr.z ∧ t.sr.n = s.sr.n) ∧
    (i.isAddSub = false → t.sr.c = s.sr.c ∧ t.sr.v = s.sr.v)

/-- R26: PIE changes only by a trap; IE only by a JSR with `c = 1`, which copies PIE into it (unless it halts at a register
it may not read, log 12), or by a trap under `TRAP_CLEARS_IE`, which clears it. -/
def Obligations.InterruptBitsChangeOnlyByTrapsAndJsr : Prop :=
  ∀ (i : Instr) (s t : State), exec i s = .next t →
    (i.isTrap = false → t.sr.pie = s.sr.pie) ∧
    (i.isTrap = true → t.sr.pie = s.sr.ie ∧ t.sr.ie = (s.sr.ie && !s.config.trapClearsIe)) ∧
    (i.isTrap = false → t.sr.ie = if i.isJsr && i.affectStatus && s.canRead i.sources then s.sr.pie else s.sr.ie)

/-! ### Add/sub family (40_alu.md) -/

/-- R120, R110, R112: ADD completes whenever its operands can be read (always, under `RESET_REGS = zero`; log 12), writes
`a + b` modulo 2^32, and with `c = 1` the carry and overflow of the exact sum and Z, N of the result; nothing else changes
but the pipeline. -/
def Obligations.AddWritesSumAndFlags : Prop :=
  ∀ (f : RegForm) (s : State), s.canRead (formSources f) = true → ∃ t, exec (.add f) s = .next t ∧
    s.Computes t f.dst (s.reg f.src1 + s.op2 f.src2)
      (if f.c then
        { s.sr with
          c := decide (2 ^ 32 ≤ (s.reg f.src1).toNat + (s.op2 f.src2).toNat)
          v := decide (¬signedFits ((s.reg f.src1).toInt + (s.op2 f.src2).toInt))
          z := decide (s.reg f.src1 + s.op2 f.src2 = 0)
          n := decide ((s.reg f.src1 + s.op2 f.src2).toInt < 0) }
      else s.sr)

/-- R121, R116 (D10, log 8): SUB completes whenever its operands can be read (log 12) and writes `a - b`; with `c = 1` C
says "no borrow" and V the signed overflow, or, under `SUB_CARRY = negate_first`, the carry and overflow of adding the
negated operand. -/
def Obligations.SubWritesDifferenceAndFlags : Prop :=
  ∀ (f : RegForm) (s : State), s.canRead (formSources f) = true → ∃ t, exec (.sub f) s = .next t ∧
    s.Computes t f.dst (s.reg f.src1 - s.op2 f.src2)
      (if f.c then
        { s.sr with
          c := decide ((s.op2 f.src2).toNat ≤ (s.reg f.src1).toNat ∧
            (s.config.subCarry = .negateFirst → s.op2 f.src2 ≠ 0))
          v := decide (¬signedFits (match s.config.subCarry with
            | .fused => (s.reg f.src1).toInt - (s.op2 f.src2).toInt
            | .negateFirst => (s.reg f.src1).toInt + (-s.op2 f.src2).toInt))
          z := decide (s.reg f.src1 = s.op2 f.src2)
          n := decide ((s.reg f.src1 - s.op2 f.src2).toInt < 0) }
      else s.sr)

/-- R124, R116 (D10, log 8): SUBR is SUB with its operands exchanged; it completes whenever they can be
read (log 12). -/
def Obligations.SubrWritesReverseDifferenceAndFlags : Prop :=
  ∀ (f : RegForm) (s : State), s.canRead (formSources f) = true → ∃ t, exec (.subr f) s = .next t ∧
    s.Computes t f.dst (s.op2 f.src2 - s.reg f.src1)
      (if f.c then
        { s.sr with
          c := decide ((s.reg f.src1).toNat ≤ (s.op2 f.src2).toNat ∧
            (s.config.subCarry = .negateFirst → s.reg f.src1 ≠ 0))
          v := decide (¬signedFits (match s.config.subCarry with
            | .fused => (s.op2 f.src2).toInt - (s.reg f.src1).toInt
            | .negateFirst => (s.op2 f.src2).toInt + (-s.reg f.src1).toInt))
          z := decide (s.op2 f.src2 = s.reg f.src1)
          n := decide ((s.op2 f.src2 - s.reg f.src1).toInt < 0) }
      else s.sr)

/-- R122 (D12, log 8): ADDC completes whenever its operands can be read (log 12) and adds the C flag as it was
before. -/
def Obligations.AddcAddsTheCarryIn : Prop :=
  ∀ (f : RegForm) (s : State), s.canRead (formSources f) = true → ∃ t r, exec (.addc f) s = .next t ∧
    r.toNat = ((s.reg f.src1).toNat + (s.op2 f.src2).toNat + s.sr.c.toNat) % 2 ^ 32 ∧
    s.Computes t f.dst r
      (if f.c then
        { s.sr with
          c := decide (2 ^ 32 ≤ (s.reg f.src1).toNat + (s.op2 f.src2).toNat + s.sr.c.toNat)
          v := decide (¬signedFits ((s.reg f.src1).toInt + (s.op2 f.src2).toInt + s.sr.c.toNat))
          z := decide (r = 0)
          n := decide (r.toInt < 0) }
      else s.sr)

/-- R123 (D12, log 8): SUBC completes whenever its operands can be read (log 12) and subtracts one more when the C flag
was 0 (a borrow is pending). That it does so under `SUB_CARRY = negate_first` too is the model's deduction (DEDUCED, log
8: R123 gives SUBC one form only). -/
def Obligations.SubcSubtractsTheBorrowIn : Prop :=
  ∀ (f : RegForm) (s : State), s.canRead (formSources f) = true → ∃ t r, exec (.subc f) s = .next t ∧
    (r.toNat : Int) =
      ((s.reg f.src1).toNat - (s.op2 f.src2).toNat - (1 - s.sr.c.toNat : Int)) % 2 ^ 32 ∧
    s.Computes t f.dst r
      (if f.c then
        { s.sr with
          c := decide ((s.op2 f.src2).toNat + (!s.sr.c).toNat ≤ (s.reg f.src1).toNat)
          v := decide (¬signedFits ((s.reg f.src1).toInt - (s.op2 f.src2).toInt - (!s.sr.c).toNat))
          z := decide (r = 0)
          n := decide (r.toInt < 0) }
      else s.sr)

/-- R145: results are modulo 2^32 without a trap, `SUB(ADD(a,b),b) = a`, and the C and V of ADD are the unsigned and signed
out-of-range tests of the exact sum. The sum goes to a register other than the second operand's, so that SUB can read that
operand again; both are registers that can be read (log 12). -/
def Obligations.SubUndoesAddAndAddFlagsAreExact : Prop :=
  ∀ (s : State) (d x y : Reg), d ≠ 0 → y ≠ d → s.canRead [x, y] = true →
    ∃ t, exec (.add ⟨d, true, x, .reg y⟩) s = .next t ∧
      t.runState = s.runState ∧
      (t.reg d).toNat = ((s.reg x).toNat + (s.reg y).toNat) % 2 ^ 32 ∧
      t.sr.c = decide (2 ^ 32 ≤ (s.reg x).toNat + (s.reg y).toNat) ∧
      t.sr.v = decide (¬signedFits ((s.reg x).toInt + (s.reg y).toInt)) ∧
      ∃ u, exec (.sub ⟨d, true, d, .reg y⟩) t = .next u ∧ u.reg d = s.reg x ∧ u.runState = s.runState

/-! ### Logical family and shifts (40_alu.md) -/

/-- R126, R127, R128, R130: AND, ANDN, OR and XOR complete whenever their operands can be read (log 12) and write, bit by
bit, the named function of the operands; with `c = 1` only Z and N are written. -/
def Obligations.AndAndnOrXorWriteBitwiseResults : Prop :=
  ∀ (f : RegForm) (s : State), s.canRead (formSources f) = true →
    ∀ p ∈ ([(.and f, fun a b => a && b), (.andn f, fun a b => a && !b), (.or f, fun a b => a || b),
        (.xor f, fun a b => a != b)] : List (Instr × (Bool → Bool → Bool))),
      ∃ t r, exec p.1 s = .next t ∧
        (∀ k < 32, r.getLsbD k = p.2 ((s.reg f.src1).getLsbD k) ((s.op2 f.src2).getLsbD k)) ∧
        s.Computes t f.dst r
          (if f.c then { s.sr with z := decide (r = 0), n := decide (r.toInt < 0) } else s.sr)

/-- R129, R131 (D13, log 30): ORN and XORN complete whenever their operands can be read (log 12) and complement operand 2,
as ANDN does; with `c = 1` only Z and N are written. -/
def Obligations.OrnXornComplementOperandTwo : Prop :=
  ∀ (f : RegForm) (s : State), s.canRead (formSources f) = true →
    ∀ p ∈ ([(.orn f, fun a b => a || !b), (.xorn f, fun a b => a == b)] : List (Instr × (Bool → Bool → Bool))),
      ∃ t r, exec p.1 s = .next t ∧
        (∀ k < 32, r.getLsbD k = p.2 ((s.reg f.src1).getLsbD k) ((s.op2 f.src2).getLsbD k)) ∧
        s.Computes t f.dst r
          (if f.c then { s.sr with z := decide (r = 0), n := decide (r.toInt < 0) } else s.sr)

/-- R136, R137, R140 to R143 (D14, log 9): every shift whose operands can be read (log 12) completes for every amount;
below 32, or for every amount under the default of `SHIFT_LARGE`, ASHR divides the signed number by `2^n` towards minus
infinity, LSHR the unsigned one, ASHL multiplies modulo 2^32, and ROTL moves bit `k` to bit `k + n` modulo 32; with `c =
1` only Z and N are written. Nothing is said of the value for a large amount when the parameter is open. -/
def Obligations.ShiftsAreExactForEveryAmount : Prop :=
  ∀ (f : RegForm) (s : State), s.canRead (formSources f) = true →
    let a := s.reg f.src1
    let n := (s.op2 f.src2).toNat
    ∀ p ∈ ([(.ashr f, fun r => r.toInt = a.toInt / 2 ^ n),
        (.lshr f, fun r => r.toNat = a.toNat / 2 ^ n),
        (.ashl f, fun r => r.toNat = a.toNat * 2 ^ n % 2 ^ 32),
        (.rotl f, fun r => ∀ k < 32, r.getLsbD ((k + n) % 32) = a.getLsbD k)] : List (Instr × (Word → Prop))),
      ∃ t r, exec p.1 s = .next t ∧
        (n < 32 ∨ s.config.shiftLarge = .specDefault → p.2 r) ∧
        s.Computes t f.dst r
          (if f.c then { s.sr with z := decide (r = 0), n := decide (r.toInt < 0) } else s.sr)

/-! ### Loads, stores and address arithmetic (41_memory_access.md, 20_memory.md) -/

/-- R155, R58, R55 (D2, D3, logs 5, 6, 12): LD in range completes and reads the four bytes at `x[src1] + 4 * op2`, at any
alignment that is not made a fault, from operands that can be read. -/
def Obligations.LdReadsTheWordInRange : Prop :=
  ∀ (f : RegForm) (s : State), s.canRead (formSources f) = true → s.dataMisaligned (s.effAddr 4 f) 4 = false →
    (s.effAddr 4 f).toNat + 4 ≤ s.memTop →
    (spInvolved f = true → s.config.memLen ≤ (s.effAddr 4 f).toNat) →
    ∃ t v, exec (.ld f) s = .next t ∧ s.effAddr 4 f = s.reg f.src1 + 4 * s.op2 f.src2 ∧
      v.toNat = s.numberAt (s.effAddr 4 f).toNat 4 ∧
      s.Computes t f.dst v (if f.c then { s.sr with z := decide (v = 0), n := decide (v.toInt < 0) } else s.sr)

/-- R156, R157, R58, R150 (D15, logs 6, 12, 28): LDH and LDUH in range complete; LDH extends the sign from bit 15, LDUH
does not, and both take Z and N from the halfword. -/
def Obligations.LdhLduhReadTheHalfwordInRange : Prop :=
  ∀ (f : RegForm) (s : State), s.canRead (formSources f) = true → s.dataMisaligned (s.effAddr 2 f) 2 = false →
    (s.effAddr 2 f).toNat + 2 ≤ s.memTop →
    (spInvolved f = true → s.config.memLen ≤ (s.effAddr 2 f).toNat) →
    s.effAddr 2 f = s.reg f.src1 + 2 * s.op2 f.src2 ∧
    ∀ p ∈ ([(.ldh f, fun h => if h < 2 ^ 15 then (h : Int) else h - 2 ^ 16), (.lduh f, fun h => (h : Int))] :
        List (Instr × (Nat → Int))),
      ∃ t v, exec p.1 s = .next t ∧ v = BitVec.ofInt 32 (p.2 (s.numberAt (s.effAddr 2 f).toNat 2)) ∧
        s.Computes t f.dst v
          (if f.c then
            { s.sr with
              z := decide (s.numberAt (s.effAddr 2 f).toNat 2 = 0)
              n := decide (2 ^ 15 ≤ s.numberAt (s.effAddr 2 f).toNat 2) }
          else s.sr)

/-- R158, R159, R58, R150 (D15, logs 12, 28): LDB and LDUB in range complete; LDB extends the sign from bit 7, LDUB does
not, and both take Z and N from the byte. -/
def Obligations.LdbLdubReadTheByteInRange : Prop :=
  ∀ (f : RegForm) (s : State), s.canRead (formSources f) = true → (s.effAddr 1 f).toNat + 1 ≤ s.memTop →
    (spInvolved f = true → s.config.memLen ≤ (s.effAddr 1 f).toNat) →
    s.effAddr 1 f = s.reg f.src1 + s.op2 f.src2 ∧
    ∀ p ∈ ([(.ldb f, fun b => b.toInt), (.ldub f, fun b => (b.toNat : Int))] : List (Instr × (Byte → Int))),
      ∃ t v, exec p.1 s = .next t ∧ v = BitVec.ofInt 32 (p.2 (Memory.read s.mem (s.effAddr 1 f).toNat)) ∧
        s.Computes t f.dst v
          (if f.c then
            { s.sr with
              z := decide (Memory.read s.mem (s.effAddr 1 f).toNat = 0)
              n := decide ((Memory.read s.mem (s.effAddr 1 f).toNat).toInt < 0) }
          else s.sr)

/-- R60, R61, R62, R63, R233 (D5, D6, D7, D39, logs 18, 19): a load whose access is out of range, or through r29 below
`memLen`, or misaligned under `MISALIGNED_DATA = fault` (I3; DESIGN CHOICE, log 6), completes when its operands can be read
(log 12): 0 is written, Z and N come from 0, the error is logged (out of range first), and the run goes on. -/
def Obligations.AbortedLoadsYieldZeroAndAreLogged : Prop :=
  ∀ (f : RegForm) (s : State), ∀ p ∈ sizedLoads f, s.canRead p.1.sources = true →
    ∀ kind, (if s.memTop < (s.effAddr p.2 f).toNat + p.2 then kind = .outOfRange
      else if (f.src1 = 29 ∨ f.src2 = .reg 29) ∧ (s.effAddr p.2 f).toNat < s.config.memLen then kind = .stackUnderflow
      else kind = MemErrKind.misaligned ∧ s.config.misalignedData = .fault ∧ (s.effAddr p.2 f).toNat % p.2 ≠ 0) →
    ∃ t, exec p.1 s = .next t ∧ s.SetsOnly t f.dst 0 ∧
      t.sr = (if f.c then { s.sr with z := true, n := false } else s.sr) ∧
      s.Advanced t ∧ s.SameMemory t ∧ s.SameFixed t ∧ t.runState = s.runState ∧
      t.memErrLog = s.memErrLog ++ [{ kind := kind, pc := s.pc0, ea := s.effAddr p.2 f }]

/-- R160, R161, R162, R152, R55, R58 (D2, D3, D15, D16, logs 5, 6, 12, 28): a store in range completes when the registers it
reads can be read: byte `k` of the
truncated data register stands at `EA + k` (at `EA + n - 1 - k` under the big byte order), every other byte of memory and
every register reads as before, and with `c = 1` Z and N come from the truncated data. -/
def Obligations.StoresWriteTheirBytesAndNothingElse : Prop :=
  ∀ (f : RegForm) (s : State), ∀ p ∈ sizedStores f, s.canRead p.1.sources = true →
    s.dataMisaligned (s.effAddr p.2 f) p.2 = false →
    (s.effAddr p.2 f).toNat + p.2 ≤ s.memTop →
    (spInvolved f = true → s.config.memLen ≤ (s.effAddr p.2 f).toNat) →
    ∃ t, exec p.1 s = .next t ∧
      s.effAddr p.2 f = s.reg f.src1 + BitVec.ofNat 32 p.2 * s.op2 f.src2 ∧
      t.numberAt (s.effAddr p.2 f).toNat p.2 = (s.reg f.dst).toNat % 2 ^ (8 * p.2) ∧
      s.SameMemoryOutside t (s.effAddr p.2 f).toNat p.2 ∧
      s.SameRegs t ∧
      t.sr = (if f.c then
        { s.sr with
          z := decide ((s.reg f.dst).toNat % 2 ^ (8 * p.2) = 0)
          n := decide (2 ^ (8 * p.2 - 1) ≤ (s.reg f.dst).toNat % 2 ^ (8 * p.2)) }
        else s.sr) ∧
      s.Advanced t ∧ s.SameFixed t ∧ t.runState = s.runState ∧ t.memErrLog = s.memErrLog

/-- R60, R61, R62, R63, R233 (D5, D6, D7, D39, logs 18, 19): a store whose access is out of range, or through r29 below
`memLen`, or misaligned under `MISALIGNED_DATA = fault` (I3; DESIGN CHOICE, log 6), completes without changing any byte
when the registers it reads can be read (log 12): Z and N come from the data that would have been stored, the error is
logged, and the run goes on. -/
def Obligations.AbortedStoresChangeNoByteAndAreLogged : Prop :=
  ∀ (f : RegForm) (s : State), ∀ p ∈ sizedStores f, s.canRead p.1.sources = true →
    ∀ kind, (if s.memTop < (s.effAddr p.2 f).toNat + p.2 then kind = .outOfRange
      else if (f.src1 = 29 ∨ f.src2 = .reg 29) ∧ (s.effAddr p.2 f).toNat < s.config.memLen then kind = .stackUnderflow
      else kind = MemErrKind.misaligned ∧ s.config.misalignedData = .fault ∧ (s.effAddr p.2 f).toNat % p.2 ≠ 0) →
    ∃ t, exec p.1 s = .next t ∧ s.SameRegs t ∧
      t.sr = (if f.c then
        { s.sr with
          z := decide ((s.reg f.dst).toNat % 2 ^ (8 * p.2) = 0)
          n := decide (2 ^ (8 * p.2 - 1) ≤ (s.reg f.dst).toNat % 2 ^ (8 * p.2)) }
        else s.sr) ∧
      s.Advanced t ∧ s.SameMemory t ∧ s.SameFixed t ∧ t.runState = s.runState ∧
      t.memErrLog = s.memErrLog ++ [{ kind := kind, pc := s.pc0, ea := s.effAddr p.2 f }]

/-- The model's choice (DESIGN CHOICE, log 6) of the `fault` that 93_implementation_defined.md I3 names: under
`MISALIGNED_DATA = fault` (R6, D3), and only then, a load or store at an address that is not a multiple of its size, and
that passes the checks of R62, appends a memory error of its own kind; like every memory error it stops neither the
instruction nor the run. -/
def Obligations.MisalignedDataFaultsOnlyWhenConfigured : Prop :=
  ∀ (f : RegForm) (s : State), ∀ p ∈ sizedLoads f ++ sizedStores f, s.canRead p.1.sources = true →
    ∃ t, exec p.1 s = .next t ∧ s.Advanced t ∧ t.runState = s.runState ∧
      (t.memErrLog = s.memErrLog ++ [{ kind := .misaligned, pc := s.pc0, ea := s.effAddr p.2 f }] ↔
        s.config.misalignedData = .fault ∧ (s.effAddr p.2 f).toNat % p.2 ≠ 0 ∧
        (s.effAddr p.2 f).toNat + p.2 ≤ s.memTop ∧
        (spInvolved f = true → s.config.memLen ≤ (s.effAddr p.2 f).toNat))

/-- R64 with R60, R61, R62: a byte access at `memTop - 1` succeeds (not through r29 where that is below `memLen`), at
`memTop` every access is out of range; a wider access at `memTop - 1` is out of range; an access through r29 at `memLen -
1` that ends in memory is a stack underflow. The clause on wider accesses rests on R60's second condition, which is the
spec's own decision (D5, C5; UNVERIFIED, log 19), and the order of the checks on D39 (log 19). -/
def Obligations.AccessChecksAtTheBoundaries : Prop :=
  ∀ (s : State) (ea : Word) (sp : Bool),
    (ea.toNat + 1 = s.memTop → (sp = false ∨ s.config.memLen ≤ ea.toNat) → s.checkAccess ea 1 sp = none) ∧
    (ea.toNat = s.memTop → ∀ n, s.checkAccess ea n sp = some .outOfRange) ∧
    (ea.toNat + 1 = s.memTop → ∀ n, 1 < n → s.checkAccess ea n sp = some .outOfRange) ∧
    (ea.toNat + 1 = s.config.memLen → ∀ n, ea.toNat + n ≤ s.memTop → s.checkAccess ea n true = some .stackUnderflow)

/-- R168, R169, R58 (D17, logs 12, 28): LEA and LEAS complete whenever their operands can be read: the whole 32-bit
address is written, with no check and no memory access, and with `c = 1` Z and N come from its low 32 or 16 bits. -/
def Obligations.LeaLeasWriteTheAddress : Prop :=
  ∀ (f : RegForm) (s : State), s.canRead (formSources f) = true →
    ∀ p ∈ ([(.lea f, 4, 32), (.leas f, 2, 16)] : List (Instr × Nat × Nat)),
      ∃ t ea, exec p.1 s = .next t ∧
        ea.toNat = ((s.reg f.src1).toNat + (s.op2 f.src2).toNat * p.2.1) % 2 ^ 32 ∧
        s.Computes t f.dst ea
          (if f.c then
            { s.sr with
              z := decide (ea.toNat % 2 ^ p.2.2 = 0)
              n := decide (2 ^ (p.2.2 - 1) ≤ ea.toNat % 2 ^ p.2.2) }
          else s.sr)

/-- R56 (with R55, D2, log 5): under the little byte order a stored word is read back whole, its low byte at the address,
the next byte one further, its low halfword at the address and its high halfword two further. -/
def Obligations.MixedWidthReadsOfAStoredWord : Prop :=
  ∀ (s : State) (a v : Word), s.config.byteOrder = .little → a.toNat + 4 ≤ 2 ^ 32 →
    (s.memWrite a 4 v).memRead a 4 = v ∧
    ((s.memWrite a 4 v).memRead a 1).toNat = v.toNat % 2 ^ 8 ∧
    ((s.memWrite a 4 v).memRead (a + 1) 1).toNat = v.toNat / 2 ^ 8 % 2 ^ 8 ∧
    ((s.memWrite a 4 v).memRead a 2).toNat = v.toNat % 2 ^ 16 ∧
    ((s.memWrite a 4 v).memRead (a + 2) 2).toNat = v.toNat / 2 ^ 16

/-- R67, R276 (D38, log 35): a word that ST stores, from registers that can be read, over the delay slot is what the next
step fetches. -/
def Obligations.StoredWordIsTheNextInstructionFetched : Prop :=
  ∀ (f : RegForm) (s t : State), s.canRead (storeSources f) = true → exec (.st f) s = .next t →
    s.checkAccess (s.effAddr 4 f) 4 (spInvolved f) = none → s.effAddr 4 f = s.pc1 →
    t.fetchWord = s.reg f.dst

/-! ### Branches (42_control_flow.md) -/

/-- R185, R186, R187, R189 (D18, D20, logs 10, 15): each of the sixteen conditional branches always completes: taken to a
target inside `[0, memLen)` the target becomes the delay slot's successor; not taken the pipeline moves on; a taken branch
out of range, and a not-taken one under `BRANCH_CHECK_NOT_TAKEN`, halts before the advance. Nothing else changes. -/
def Obligations.ConditionalBranchesTakeTheirCondition : Prop :=
  ∀ p ∈ conditionTable, ∀ (off : BitVec 22) (s : State),
    exec (p.1 off) s = .next
      (if (p.2 s.sr = true ∨ s.config.branchCheckNotTaken = true) ∧
          s.config.memLen ≤ (s.relativeTarget off).toNat then
        { s with runState := .halted .branchTargetOutOfRange }
      else if p.2 s.sr = true then
        { s with pc0 := s.pc1, pc1 := s.relativeTarget off, pc2 := s.relativeTarget off + 4 }
      else { s with pc0 := s.pc1, pc1 := s.pc2, pc2 := s.pc2 + 4 })

/-- R185 with R121, R116 (D10, D18, logs 8, 15): after a `SUB.c` whose operands can be read the ordered conditions compare
the operands: GT, LE, GE, LT as signed numbers, HI, LS, CS, CC as unsigned ones, EQ and NE for equality. -/
def Obligations.BranchesAfterCompareOrderTheOperands : Prop :=
  ∀ (f : RegForm) (s t : State), f.c = true → s.config.subCarry = .fused → s.canRead (formSources f) = true →
    exec (.sub f) s = .next t →
    ∀ off, (t.relativeTarget off).toNat < t.config.memLen →
      let a := s.reg f.src1
      let b := s.op2 f.src2
      let outcome (taken : Bool) : Result := .next
        (if taken then { t with pc0 := t.pc1, pc1 := t.relativeTarget off, pc2 := t.relativeTarget off + 4 }
        else { t with pc0 := t.pc1, pc1 := t.pc2, pc2 := t.pc2 + 4 })
      exec (.bgt off) t = outcome (decide (b.toInt < a.toInt)) ∧
      exec (.ble off) t = outcome (decide (a.toInt ≤ b.toInt)) ∧
      exec (.bge off) t = outcome (decide (b.toInt ≤ a.toInt)) ∧
      exec (.blt off) t = outcome (decide (a.toInt < b.toInt)) ∧
      exec (.bhi off) t = outcome (decide (b.toNat < a.toNat)) ∧
      exec (.bls off) t = outcome (decide (a.toNat ≤ b.toNat)) ∧
      exec (.bcs off) t = outcome (decide (b.toNat ≤ a.toNat)) ∧
      exec (.bcc off) t = outcome (decide (a.toNat < b.toNat)) ∧
      exec (.beq off) t = outcome (decide (a = b)) ∧
      exec (.bne off) t = outcome (decide (a ≠ b))

/-- R184 (D19, log 35): a word of opcode 1 whose condition is 16 to 31 halts with `IllegalBranchCond`, whatever its offset
and the flags, and changes nothing else. -/
def Obligations.BranchConditionsAboveFifteenHalt : Prop :=
  (∀ (cond : BitVec 5) (off : BitVec 22) (s : State),
    exec (.bccIllegal cond off) s = .next { s with runState := .halted .illegalBranchCond }) ∧
  ∀ (w : Word) (s : State), w.toNat / 2 ^ 26 = 3 →
    exec (decodeWord w) s = .next { s with runState := .halted .illegalBranchCond }

/-- R191: BSR and JSR that name a link register other than 0 write `PC0 + 8` into it, whatever becomes of the branch, and
with 0 write none; no other register changes. JSR's operands are registers that can be read (always, under
`RESET_REGS = zero`; log 12). -/
def Obligations.CallsLinkPastTheDelaySlotWhateverTheOutcome : Prop :=
  (∀ (link : Reg) (off : BitVec 22) (s : State), ∃ t, exec (.bsr link off) s = .next t ∧
    s.SetsOnly t link (s.pc0 + 8)) ∧
  ∀ (f : RegForm) (s : State), s.canRead (formSources f) = true →
    ∃ t, exec (.jsr f) s = .next t ∧ s.SetsOnly t f.dst (s.pc0 + 8)

/-- R190, R187 (D21, log 27): BSR with a target in `[0, memLen)` links and transfers; with one outside it links and halts
before the advance. Nothing else changes. -/
def Obligations.BsrLinksThenTransfersOrHalts : Prop :=
  ∀ (link : Reg) (off : BitVec 22) (s : State), ∃ t, exec (.bsr link off) s = .next t ∧
    s.SetsOnly t link (s.pc0 + 8) ∧ t.sr = s.sr ∧ s.SameMemory t ∧ s.SameFixed t ∧ t.memErrLog = s.memErrLog ∧
    if (s.relativeTarget off).toNat < s.config.memLen then
      t.runState = s.runState ∧ t.pc0 = s.pc1 ∧ t.pc1 = s.relativeTarget off ∧ t.pc2 = s.relativeTarget off + 4
    else t.runState = .halted .branchTargetOutOfRange ∧ s.SamePipeline t

/-- R195, R196, R187 (D21, D22, D23, logs 12, 27): JSR, when its operands can be read, computes its target from the
registers as they were, links, copies PIE into IE when `c = 1`, and transfers or halts; C, V, Z, N, PIE, memory and the
rest stand as before. -/
def Obligations.JsrLinksRestoresAndTransfersOrHalts : Prop :=
  ∀ (f : RegForm) (s : State), s.canRead (formSources f) = true → ∃ t, exec (.jsr f) s = .next t ∧
    s.SetsOnly t f.dst (s.pc0 + 8) ∧ t.sr = { s.sr with ie := if f.c then s.sr.pie else s.sr.ie } ∧
    s.SameMemory t ∧ s.SameFixed t ∧ t.memErrLog = s.memErrLog ∧
    if (s.reg f.src1 + 4 * s.op2 f.src2).toNat < s.config.memLen then
      t.runState = s.runState ∧ t.pc0 = s.pc1 ∧ t.pc1 = s.reg f.src1 + 4 * s.op2 f.src2 ∧
        t.pc2 = s.reg f.src1 + 4 * s.op2 f.src2 + 4
    else t.runState = .halted .branchTargetOutOfRange ∧ s.SamePipeline t

/-- R182, R270: after a BSR the delay slot executes, and when it completes the machine is at the target. If the delay-slot
instruction is itself a BSR (R183, R272), exactly one instruction runs at the first target before the second. -/
def Obligations.DelaySlotRunsThenTheTarget : Prop :=
  ∀ (link : Reg) (off : BitVec 22) (s t u : State), exec (.bsr link off) s = .next t → t.enabled →
    step t = .next u → u.enabled →
    t.pc0 = s.pc1 ∧ u.pc0 = s.relativeTarget off ∧
    ((decodeWord t.fetchWord).transferTarget t = none → u.pc1 = s.relativeTarget off + 4) ∧
    (∀ link' off', decodeWord t.fetchWord = .bsr link' off' → u.pc1 = t.relativeTarget off')

/-! ### Traps, refusals and the host interface (43_trap.md, 60_exceptions.md) -/

/-- R210, R211: TRAP0, whatever its other bits, saves the two slots and IE and halts with `IllegalOpcode`, without an
advance. Which slots go to r30 and r31 and what becomes of IE are the spec's own decisions (D25, D26; UNVERIFIED, log 11),
so the statement is derived. -/
def Obligations.Trap0SavesThenHalts : Prop :=
  ∀ (f : RegForm) (s : State), ∃ t, exec (.trap0 f) s = .next t ∧ s.TrapSaved t ∧ s.SameR1 t ∧
    t.runState = .halted .illegalOpcode ∧ s.SamePipeline t ∧ s.SameMemory t ∧ s.SameFixed t ∧
    t.memErrLog = s.memErrLog

/-- R212, R213 (D27, log 3): a TRAP whose word exceeds the limit, whose register is not r1 to r5 or can be read (log 12)
and holds 0, or whose immediate is not 1 to 255, saves as every trap does and halts with `IllegalOpcode`, without an
advance. -/
def Obligations.TrapOutsideItsEnvelopeHalts : Prop :=
  ∀ (f : RegForm) (s : State),
    (s.config.trapWordLimit.toNat < (encode (.trap f)).toNat ∨
      (match f.src2 with
        | .reg r => r.val < 1 ∨ 5 < r.val ∨ (s.readable r = true ∧ s.reg r = 0)
        | .imm v => v.toNat < 1 ∨ 255 < v.toNat)) →
    ∃ t, exec (.trap f) s = .next t ∧ s.TrapSaved t ∧ s.SameR1 t ∧ t.runState = .halted .illegalOpcode ∧
      s.SamePipeline t ∧ s.SameMemory t ∧ s.SameFixed t ∧ t.memErrLog = s.memErrLog

/-- R212, R245 (C9, log 25): EXIT, number 1, ends the run: the trap's writes are made, the pipeline stays, and the run state
is exited with whatever code the host answers. -/
def Obligations.TrapExitEndsTheRun : Prop :=
  ∀ (f : RegForm) (s : State), s.TrapNumber f 1 →
    ∃ t, exec (.trap f) s = .next t ∧ s.TrapSaved t ∧ s.SameR1 t ∧
      (∃ code, t.runState = .exited code) ∧ s.SamePipeline t ∧ s.SameMemory t ∧ t.refused = s.refused ∧
      t.config = s.config ∧ t.memErrLog = s.memErrLog

/-- R245, R236 (D34, logs 16, 22): a number the host does not know is refused: `Refused` is set, and beside the trap's own
writes nothing changes. That r30, r31 and PIE keep the trap entry's writes in the refused state, although R236 gives a
refusal "no other effect", is the model's choice (DEDUCED, log 26). -/
def Obligations.TrapWithUnknownNumberIsRefused : Prop :=
  ∀ (f : RegForm) (s : State) (num : Word), s.TrapNumber f num → num ≠ 1 →
    s.config.services.lookup num = none →
    ∃ t, exec (.trap f) s = .next t ∧ s.TrapSaved t ∧ s.SameR1 t ∧ t.refused = true ∧
      t.runState = s.runState ∧ s.SamePipeline t ∧ s.SameMemory t ∧ t.config = s.config ∧
      t.hostCalls = s.hostCalls ∧ t.memErrLog = s.memErrLog

/-- R212, R237, R245 (D28, D34, logs 12, 21 to 24): a call the host serves, with arguments that can be read, completes and
the pipeline advances; beside the trap's writes only r1 changes, memory changes only in FGETS's buffer (r1 bytes on, at
most r2 of them) and in the word at `ERRNO_CELL`, and a bad descriptor answers -1; the one way not to complete is a
console read whose answer never comes. -/
def Obligations.ServedTrapChangesOnlyWhatTheHostMay : Prop :=
  ∀ (f : RegForm) (s : State) (num : Word) (svc : Service), s.TrapNumber f num → num ≠ 1 →
    s.config.services.lookup num = some svc → svc ≠ .exit → s.canRead (Service.args svc) = true →
    ((svc = .fgets ∨ svc = .fgetc) ∧ s.badDescriptor svc = false ∧ exec (.trap f) s = .fault .hostNeverReturns) ∨
    ∃ t, exec (.trap f) s = .next t ∧ s.TrapSaved t ∧ s.Advanced t ∧ t.runState = s.runState ∧
      t.refused = s.refused ∧ t.config = s.config ∧ t.memErrLog = s.memErrLog ∧ t.hostCalls = s.hostCalls + 1 ∧
      t.hasWritten 1 = true ∧ (s.badDescriptor svc = true → t.reg 1 = 0xFFFFFFFF) ∧
      ∀ x, (svc = .fgets → s.badDescriptor svc = false →
          x < (s.reg 1).toNat ∨ (s.reg 1).toNat + (s.reg 2).toNat ≤ x) →
        (∀ cell, s.config.errnoCell = some cell → s.badDescriptor svc = true → x < cell.toNat ∨ cell.toNat + 4 ≤ x) →
        Memory.read t.mem x = Memory.read s.mem x

/-- R220, R236 (D24, log 16): opcodes 0x1C and 0x1D, whatever their other bits, set `Refused` and have no other effect. -/
def Obligations.UndescribedOpcodesAreRefused : Prop :=
  (∀ (f : RegForm) (s : State), exec (.op1C f) s = .next { s with refused := true } ∧
    exec (.op1D f) s = .next { s with refused := true }) ∧
  ∀ (w : Word) (s : State), w.toNat / 2 ^ 27 = 0x1C ∨ w.toNat / 2 ^ 27 = 0x1D →
    exec (decodeWord w) s = .next { s with refused := true }

/-! ### The launch (70_reset_and_hazards.md) -/

/-- R260, R35, R261 (D29, D30, logs 2, 12, 13): the launch places the host's image verbatim at `[0, memLen)`, `memLen` its
length, with 0 above it, takes the host's other settings as they are, and is the reset state otherwise. -/
def Obligations.LaunchPlacesTheImage : Prop :=
  ∀ (image : List Byte) (cfg : Config),
    (State.launch image cfg).HoldsImage image ∧
    (State.launch image cfg).config = { cfg with memLen := image.length } ∧
    (∀ r : Reg, (State.launch image cfg).reg r = 0 ∧ (State.launch image cfg).hasWritten r = false) ∧
    (State.launch image cfg).sr.toBits = 0 ∧
    (State.launch image cfg).pc0 = 0 ∧ (State.launch image cfg).pc1 = 4 ∧ (State.launch image cfg).pc2 = 8 ∧
    (State.launch image cfg).runState = .running ∧ (State.launch image cfg).memErrLog = [] ∧
    (State.launch image cfg).refused = false

/-- R262 (D37, log 33): a launch whose image and stack region fit the address space, and no other launch, meets the launch
premises; every launch meets the model's invariant. -/
def Obligations.LaunchMeetsThePremisesAndTheInvariant : Prop :=
  ∀ (image : List Byte) (cfg : Config),
    ((State.launch image cfg).LaunchPremises image ↔ image.length + cfg.stackSize ≤ 2 ^ 32) ∧
    (State.launch image cfg).Inv

/-- R261, R80, R260 (D30, logs 2, 13): from the launch of an image of at least four bytes, the first step runs the
instruction that the image's first four bytes decode to. -/
def Obligations.FirstStepRunsTheImagesFirstWord : Prop :=
  ∀ (image : List Byte) (cfg : Config) (i : Instr) (rest : List Byte),
    decodeBytes cfg.byteOrder image = .ok (i, rest) →
    step (State.launch image cfg) = exec i (State.launch image cfg)

/-! ### The `fault` settings of R6's parameters -/

/-- The model's choice (DESIGN CHOICE, log 6) of the `fault` that 93_implementation_defined.md I4 names: under
`MISALIGNED_FETCH = fault` (R6, R82, D4) a fetch in range at a `PC0` that is not a multiple of 4 halts and changes nothing
else. -/
def Obligations.MisalignedFetchHaltsWhenConfigured : Prop :=
  ∀ s : State, s.enabled → s.pc0.toNat + 4 ≤ s.memTop → s.config.misalignedFetch = .fault → s.pc0.toNat % 4 ≠ 0 →
    step s = .next { s with runState := .halted .misalignedFetch }

/-- R35 (D29, I13, C7): under `RESET_REGS = unwritten` an instruction that reads one of r1 to r31 before its first write
faults; the fatal condition it raises, before anything is written but a trap's own entry, and the reading of a service's
arguments by the host are the model's choice (DESIGN CHOICE, log 12). -/
def Obligations.UnwrittenRegisterReadsHalt : Prop :=
  (∀ (i : Instr) (s : State), i.isTrap = false → s.config.resetRegs = .unwritten →
    (∃ r ∈ i.sources, r ≠ 0 ∧ s.hasWritten r = false) →
    exec i s = .next { s with runState := .halted .unwrittenRegister }) ∧
  ∀ (f : RegForm) (s : State), s.config.resetRegs = .unwritten →
    ((encode (.trap f)).toNat ≤ s.config.trapWordLimit.toNat ∧
        ∃ r : Reg, f.src2 = .reg r ∧ 1 ≤ r.val ∧ r.val ≤ 5 ∧ s.hasWritten r = false) ∨
      (∃ num svc, s.TrapNumber f num ∧ num ≠ 1 ∧ s.config.services.lookup num = some svc ∧ svc ≠ .exit ∧
        ∃ r ∈ Service.args svc, s.hasWritten r = false) →
    ∃ t, exec (.trap f) s = .next t ∧ s.TrapSaved t ∧ s.SameR1 t ∧ t.runState = .halted .unwrittenRegister ∧
      s.SamePipeline t ∧ s.SameMemory t ∧ s.SameFixed t ∧ t.memErrLog = s.memErrLog

/-- R35 (D29): a register that an instruction may read can be read after every step: nothing makes a written register
unwritten. -/
def Obligations.ReadableRegistersStayReadable : Prop :=
  ∀ s t : State, step s = .next t → ∀ r, s.readable r = true → t.readable r = true

/-- R231, R233: under the defaults of R6 a step halts for one of the four reasons of R231's closed list only, and logs one
of R233's two kinds of memory error only: the model's own reasons and kind (logs 6, 12) belong to the `fault` settings. -/
def Obligations.DefaultSettingsKeepTheClosedListOfReasons : Prop :=
  ∀ s t : State, step s = .next t →
    (s.config.misalignedFetch = .bytes → t.runState ≠ .halted .misalignedFetch) ∧
    (s.config.resetRegs = .zero → t.runState ≠ .halted .unwrittenRegister) ∧
    (s.config.misalignedData = .bytes → ∀ e ∈ t.memErrLog, e ∈ s.memErrLog ∨
      e.kind = .outOfRange ∨ e.kind = .stackUnderflow)
end

