-- ==== Sys2Proof/Laws/Decode.lean ====
section
/-! SUPPORT. Each field of a packed word is what was packed (30_encoding.md R83, R84); operand 2 and the byte orders go there
and back (R86, 20_memory.md R55). -/

namespace Sys2Proof

/-! ### Registers and operand 2 -/

@[simp] theorem regOfBits_bitsOfReg (r : Reg) : regOfBits (bitsOfReg r) = r := rfl

@[simp] theorem bitsOfReg_regOfBits (b : BitVec 5) : bitsOfReg (regOfBits b) = b := rfl

/-- A well-formed operand 2 is read back from its field (R86, R87). -/
theorem decodeOperand2_encodeOperand2 (o : Operand2) (h : o.wf = true) : decodeOperand2 (encodeOperand2 o) = o := by
  cases o with
  | imm v =>
    have hv : v.toNat < 0xFFE0 := by simpa [Operand2.wf] using h
    simp only [encodeOperand2, decodeOperand2]
    exact if_neg (by omega)
  | reg r => revert r; decide

/-- Every field of operand 2 is the field of what it decodes to (R86). -/
theorem encodeOperand2_decodeOperand2 (raw : BitVec 16) : encodeOperand2 (decodeOperand2 raw) = raw := by
  have hlt := raw.isLt
  unfold decodeOperand2
  split
  · next h =>
    apply BitVec.eq_of_toNat_eq
    simp only [encodeOperand2, BitVec.toNat_ofNat, Fin.ofNat]
    omega
  · rfl

/-- What a field of operand 2 decodes to is well formed (R87). -/
theorem decodeOperand2_wf (raw : BitVec 16) : (decodeOperand2 raw).wf = true := by
  unfold decodeOperand2
  split
  · rfl
  · next h => simpa [Operand2.wf] using h

/-! ### The register format (R83) -/

/-- Each bit of a packed register-format word. -/
theorem packReg_getLsbD (op : BitVec 5) (f : RegForm) (i : Nat) : (packReg op f).getLsbD i =
    if i < 16 then (encodeOperand2 f.src2).getLsbD i
    else if i < 21 then (bitsOfReg f.src1).getLsbD (i - 16)
    else if i = 21 then f.c
    else if i < 27 then (bitsOfReg f.dst).getLsbD (i - 22)
    else op.getLsbD (i - 27) := by
  change BitVec.getLsbD (w := 5 + 5 + 1 + 5 + 16)
    (op ++ bitsOfReg f.dst ++ BitVec.ofBool f.c ++ bitsOfReg f.src1 ++ encodeOperand2 f.src2) i = _
  simp only [BitVec.getLsbD_append, BitVec.getLsbD_ofBool]
  repeat' split
  all_goals first | rfl | omega | simp_all

@[simp] theorem opcodeField_packReg (op : BitVec 5) (f : RegForm) : opcodeField (packReg op f) = op := by
  apply BitVec.eq_of_getLsbD_eq
  intro i hi
  simp only [opcodeField, BitVec.getLsbD_extractLsb', packReg_getLsbD]
  rw [if_neg (by omega), if_neg (by omega), if_neg (by omega), if_neg (by omega)]
  simp [hi]

@[simp] theorem dstField_packReg (op : BitVec 5) (f : RegForm) : dstField (packReg op f) = bitsOfReg f.dst := by
  apply BitVec.eq_of_getLsbD_eq
  intro i hi
  simp only [dstField, BitVec.getLsbD_extractLsb', packReg_getLsbD]
  rw [if_neg (by omega), if_neg (by omega), if_neg (by omega), if_pos (by omega)]
  simp [hi]

@[simp] theorem cField_packReg (op : BitVec 5) (f : RegForm) : cField (packReg op f) = f.c := by
  simp only [cField, packReg_getLsbD]
  rfl

@[simp] theorem src1Field_packReg (op : BitVec 5) (f : RegForm) : src1Field (packReg op f) = bitsOfReg f.src1 := by
  apply BitVec.eq_of_getLsbD_eq
  intro i hi
  simp only [src1Field, BitVec.getLsbD_extractLsb', packReg_getLsbD]
  rw [if_neg (by omega), if_pos (by omega)]
  simp [hi]

@[simp] theorem rawSrc2Field_packReg (op : BitVec 5) (f : RegForm) :
    rawSrc2Field (packReg op f) = encodeOperand2 f.src2 := by
  apply BitVec.eq_of_getLsbD_eq
  intro i hi
  simp only [rawSrc2Field, BitVec.getLsbD_extractLsb', packReg_getLsbD]
  rw [if_pos (by omega)]
  simp [hi]

/-- The register format's fields of a packed word are those packed. -/
theorem decodeRegForm_packReg (op : BitVec 5) (f : RegForm) (h : f.wf = true) : decodeRegForm (packReg op f) = f := by
  simp only [decodeRegForm, dstField_packReg, cField_packReg, src1Field_packReg, rawSrc2Field_packReg,
    regOfBits_bitsOfReg, decodeOperand2_encodeOperand2 _ h]

/-- A word is its register-format fields packed again. -/
theorem packReg_decodeRegForm (w : Word) : packReg (opcodeField w) (decodeRegForm w) = w := by
  apply BitVec.eq_of_getLsbD_eq
  intro i hi
  simp only [packReg_getLsbD, decodeRegForm, encodeOperand2_decodeOperand2, bitsOfReg_regOfBits, opcodeField, dstField,
    cField, src1Field, rawSrc2Field, BitVec.getLsbD_extractLsb']
  repeat' split
  all_goals first
    | (subst_vars; rfl)
    | (have e1 : 16 + (i - 16) = i := by omega
       have e2 : decide (i - 16 < 5) = true := by simp; omega
       rw [e1, e2]; simp)
    | (have e1 : 22 + (i - 22) = i := by omega
       have e2 : decide (i - 22 < 5) = true := by simp; omega
       rw [e1, e2]; simp)
    | (have e1 : 27 + (i - 27) = i := by omega
       have e2 : decide (i - 27 < 5) = true := by simp; omega
       rw [e1, e2]; simp)
    | (have e2 : decide (i < 16) = true := by simp; omega
       rw [e2]; simp)

/-- The decoded register-format fields are well formed. -/
theorem decodeRegForm_wf (w : Word) : (decodeRegForm w).wf = true := decodeOperand2_wf _

/-! ### The branch format (R84) -/

/-- Each bit of a packed branch-format word. -/
theorem packBranch_getLsbD (op x : BitVec 5) (off : BitVec 22) (i : Nat) : (packBranch op x off).getLsbD i =
    if i < 22 then off.getLsbD i else if i < 27 then x.getLsbD (i - 22) else op.getLsbD (i - 27) := by
  change BitVec.getLsbD (w := 5 + 5 + 22) (op ++ x ++ off) i = _
  simp only [BitVec.getLsbD_append]
  repeat' split
  all_goals first | rfl | omega

@[simp] theorem opcodeField_packBranch (op x : BitVec 5) (off : BitVec 22) : opcodeField (packBranch op x off) = op := by
  apply BitVec.eq_of_getLsbD_eq
  intro i hi
  simp only [opcodeField, BitVec.getLsbD_extractLsb', packBranch_getLsbD]
  rw [if_neg (by omega), if_neg (by omega)]
  simp [hi]

@[simp] theorem dstField_packBranch (op x : BitVec 5) (off : BitVec 22) : dstField (packBranch op x off) = x := by
  apply BitVec.eq_of_getLsbD_eq
  intro i hi
  simp only [dstField, BitVec.getLsbD_extractLsb', packBranch_getLsbD]
  rw [if_neg (by omega), if_pos (by omega)]
  simp [hi]

@[simp] theorem off22Field_packBranch (op x : BitVec 5) (off : BitVec 22) : off22Field (packBranch op x off) = off := by
  apply BitVec.eq_of_getLsbD_eq
  intro i hi
  simp only [off22Field, BitVec.getLsbD_extractLsb', packBranch_getLsbD]
  rw [if_pos (by omega)]
  simp [hi]

/-- A word is its branch-format fields packed again. -/
theorem packBranch_fields (w : Word) : packBranch (opcodeField w) (dstField w) (off22Field w) = w := by
  apply BitVec.eq_of_getLsbD_eq
  intro i hi
  simp only [packBranch_getLsbD, opcodeField, dstField, off22Field, BitVec.getLsbD_extractLsb']
  repeat' split
  all_goals first
    | (have e1 : 22 + (i - 22) = i := by omega
       have e2 : decide (i - 22 < 5) = true := by simp; omega
       rw [e1, e2]; simp)
    | (have e1 : 27 + (i - 27) = i := by omega
       have e2 : decide (i - 27 < 5) = true := by simp; omega
       rw [e1, e2]; simp)
    | (have e2 : decide (i < 22) = true := by simp; omega
       rw [e2]; simp)

/-! ### From format to instruction (R85, R89) -/

/-- A word of the register format decodes by its opcode. -/
theorem decodeWord_packReg (op : BitVec 5) (f : RegForm) (h : f.wf = true) (h1 : op ≠ 1) (h2 : op ≠ 2) :
    decodeWord (packReg op f) = decodeReg op.toNat f := by
  have n1 : op.toNat ≠ 1 := fun e => h1 (BitVec.eq_of_toNat_eq e)
  have n2 : op.toNat ≠ 2 := fun e => h2 (BitVec.eq_of_toNat_eq e)
  simp only [decodeWord, opcodeField_packReg, decodeRegForm_packReg _ _ h]

/-- A word of opcode 1 decodes by its condition. -/
theorem decodeWord_packBranch_one (x : BitVec 5) (off : BitVec 22) :
    decodeWord (packBranch 0x01 x off) = decodeBcc x off := by
  simp only [decodeWord, opcodeField_packBranch, dstField_packBranch, off22Field_packBranch]
  rfl

/-- A word of opcode 2 is a BSR. -/
theorem decodeWord_packBranch_two (x : BitVec 5) (off : BitVec 22) :
    decodeWord (packBranch 0x02 x off) = .bsr (regOfBits x) off := by
  simp only [decodeWord, opcodeField_packBranch, dstField_packBranch, off22Field_packBranch]
  rfl

/-- A condition of 16 to 31 is illegal (R184). -/
theorem decodeBcc_illegal (cond : BitVec 5) (off : BitVec 22) (h : 16 ≤ cond.toNat) :
    decodeBcc cond off = .bccIllegal cond off := by
  unfold decodeBcc
  split <;> first | rfl | omega

/-- A conditional branch is encoded with the condition and offset it was decoded from. -/
theorem encode_decodeBcc (c : BitVec 5) (off : BitVec 22) :
    encode (decodeBcc c off) = packBranch 0x01 c off ∧ (decodeBcc c off).wf = true := by
  by_cases h : 16 ≤ c.toNat
  · rw [decodeBcc_illegal c off h]
    exact ⟨rfl, by simpa [Instr.wf] using h⟩
  · obtain ⟨n, hn⟩ := c
    have hlt : n < 16 := by simpa using h
    interval_cases n <;> exact ⟨rfl, rfl⟩

/-- A register-format instruction is encoded with the opcode and fields it was decoded from. -/
theorem encode_decodeReg (op : BitVec 5) (f : RegForm) (h1 : op ≠ 1) (h2 : op ≠ 2) :
    encode (decodeReg op.toNat f) = packReg op f ∧ (decodeReg op.toNat f).wf = f.wf := by
  obtain ⟨n, hn⟩ := op
  have key : n = 0 ∨ (3 ≤ n ∧ n < 32) := by
    have e1 : n ≠ 1 := fun e => h1 (by subst e; rfl)
    have e2 : n ≠ 2 := fun e => h2 (by subst e; rfl)
    have : n < 32 := hn
    omega
  have hop : (BitVec.ofFin ⟨n, hn⟩ : BitVec 5).toNat = n := rfl
  rw [hop]
  rcases key with rfl | ⟨a, b⟩
  · exact ⟨rfl, rfl⟩
  · interval_cases n <;> exact ⟨rfl, rfl⟩

/-! ### Byte order (R55) -/

/-- Four stored bytes, in either order, are read back as the word stored. -/
theorem wordOf_bytesOf_four (order : ByteOrder) (w : Word) : wordOf order (bytesOf order 4 w) = w := by
  have h : wordOfLittle ((List.range 4).map fun k => w.extractLsb' (8 * k) 8) = w := by
    simp only [List.range, List.range.loop, List.map, wordOfLittle]
    apply BitVec.eq_of_getLsbD_eq
    intro i hi
    simp only [BitVec.getLsbD_or, BitVec.getLsbD_shiftLeft, BitVec.getLsbD_setWidth, BitVec.getLsbD_extractLsb', hi,
      decide_true, Bool.true_and, BitVec.ofNat_eq_ofNat, BitVec.getLsbD_zero, BitVec.zero_shiftLeft, Bool.or_false]
    interval_cases i <;> simp
  cases order
  · exact h
  · simp only [bytesOf, wordOf, List.reverse_reverse]
    exact h

@[simp] theorem bytesOf_length (order : ByteOrder) (n : Nat) (v : Word) : (bytesOf order n v).length = n := by
  cases order <;> simp [bytesOf]

end Sys2Proof
end

