-- ==== Sys2Proof/Laws/Flags.lean ====
section
/-! SUPPORT. What the flag engine answers, in exact integer arithmetic (40_alu.md R110, R112, R115, R116, R145). -/

namespace Sys2Proof.Machine

/-! ### Words as signed numbers -/

theorem toInt_eq (a : Word) : a.toInt = if a.msb then (a.toNat : Int) - (2 ^ 32 : Int) else (a.toNat : Int) := by
  rw [BitVec.toInt_eq_msb_cond]
  rfl

theorem msb_iff (a : Word) : a.msb = true ↔ 2 ^ 31 ≤ a.toNat := by
  rw [BitVec.msb_eq_decide]
  simp

theorem toNat_bnot (a : Word) : (~~~a).toNat = 2 ^ 32 - 1 - a.toNat := by
  rw [BitVec.toNat_not]

theorem toInt_bnot (a : Word) : (~~~a).toInt = -a.toInt - 1 := by
  have h1 := toNat_bnot a
  have h2 := a.isLt
  have h3 := msb_iff a
  have h4 := msb_iff (~~~a)
  rw [toInt_eq, toInt_eq]
  split <;> split <;> simp_all <;> omega

/-! ### `AddWithCarry` -/

/-- The low 32 bits of the exact sum. -/
theorem addWithCarry_r (a b : Word) (cin : Bool) :
    (addWithCarry a b cin).r = a + b + BitVec.ofNat 32 cin.toNat := by
  apply BitVec.eq_of_toNat_eq
  simp [addWithCarry, BitVec.toNat_add]

/-- The carry is that of the unsigned sum. -/
theorem addWithCarry_carry (a b : Word) (cin : Bool) :
    (addWithCarry a b cin).carry = decide (2 ^ 32 ≤ a.toNat + b.toNat + cin.toNat) := by
  have ha := a.isLt
  have hb := b.isLt
  have hc := cin.toNat_lt
  simp only [addWithCarry]
  rw [Nat.testBit_eq_decide_div_mod_eq]
  congr 1
  apply propext
  omega

/-- The overflow is that of the signed sum. -/
theorem addWithCarry_overflow (a b : Word) (cin : Bool) :
    (addWithCarry a b cin).overflow = decide (¬signedFits (a.toInt + b.toInt + cin.toNat)) := by
  have ha := a.isLt
  have hb := b.isLt
  have hc := cin.toNat_lt
  have h1 := msb_iff a
  have h2 := msb_iff b
  have h3 := msb_iff (BitVec.ofNat 32 (a.toNat + b.toNat + cin.toNat))
  rw [BitVec.toNat_ofNat] at h3
  simp only [addWithCarry, toInt_eq]
  cases hma : a.msb <;> cases hmb : b.msb <;>
    cases hmr : (BitVec.ofNat 32 (a.toNat + b.toNat + cin.toNat)).msb <;>
    simp only [hma, hmb, hmr, Bool.false_eq_true, false_iff, true_iff, not_le, if_true, if_false] at * <;>
    simp [signedFits] <;> omega

/-! ### Subtraction -/

theorem subtract_r (mode : SubCarry) (x y : Word) : (subtract mode x y).r = x - y := by
  cases mode
  · simp only [subtract, addWithCarry_r]
    apply BitVec.eq_of_toNat_eq
    have hx := x.isLt
    have hy := y.isLt
    simp [BitVec.toNat_add, BitVec.toNat_sub]
    omega
  · simp only [subtract, addWithCarry_r]
    simp [BitVec.sub_eq_add_neg]

/-- Under the fused form the carry says "no borrow". -/
theorem subtract_fused_carry (x y : Word) : (subtract .fused x y).carry = decide (y.toNat ≤ x.toNat) := by
  have hx := x.isLt
  have hy := y.isLt
  simp only [subtract, addWithCarry_carry, toNat_bnot, Bool.toNat_true]
  congr 1
  apply propext
  omega

/-- Under the fused form the overflow is that of the signed difference. -/
theorem subtract_fused_overflow (x y : Word) :
    (subtract .fused x y).overflow = decide (¬signedFits (x.toInt - y.toInt)) := by
  simp only [subtract, addWithCarry_overflow, toInt_bnot, Bool.toNat_true]
  congr 3
  push_cast
  ring

/-- Negating first, the carry is also lost when nothing is subtracted. -/
theorem subtract_negateFirst_carry (x y : Word) :
    (subtract .negateFirst x y).carry = decide (y ≠ 0 ∧ y.toNat ≤ x.toNat) := by
  have hx := x.isLt
  have hy := y.isLt
  have hz : y ≠ 0 ↔ y.toNat ≠ 0 := by
    rw [not_iff_not]
    constructor
    · rintro rfl; rfl
    · intro h; exact BitVec.eq_of_toNat_eq (by simpa using h)
  simp only [subtract, addWithCarry_carry, Bool.toNat_false, BitVec.toNat_neg, hz]
  congr 1
  apply propext
  omega

/-- Negating first, the overflow is that of adding the negated word. -/
theorem subtract_negateFirst_overflow (x y : Word) :
    (subtract .negateFirst x y).overflow = decide (¬signedFits (x.toInt + (-y).toInt)) := by
  simp [subtract, addWithCarry_overflow]

/-! ### Z and N (R112, R150) -/

theorem zeroAt_word (v : Word) : zeroAt 32 v = decide (v = 0) := by
  simp [zeroAt, beq_eq_decide]

theorem negAt_word (v : Word) : negAt 32 v = decide (v.toInt < 0) := by
  have h1 : negAt 32 v = v.msb := by rw [negAt, BitVec.msb_eq_getLsbD_last]
  have h2 := toInt_eq v
  have h3 := v.isLt
  rw [h1, Bool.eq_iff_iff, decide_eq_true_eq]
  cases hm : v.msb <;> simp only [hm, Bool.false_eq_true, if_true, if_false] at h2 <;> simp <;> omega

theorem zeroAt_eq (w : Nat) (v : Word) : zeroAt w v = decide (v.toNat % 2 ^ w = 0) := by
  rw [zeroAt, Bool.eq_iff_iff, beq_iff_eq, decide_eq_true_eq]
  constructor
  · intro h
    have := congrArg BitVec.toNat h
    simpa using this
  · intro h
    apply BitVec.eq_of_toNat_eq
    simpa using h

theorem negAt_eq (w : Nat) (v : Word) : negAt w v = v.toNat.testBit (w - 1) := by
  rw [negAt, BitVec.testBit_toNat]

/-- N at a width is the upper half of the numbers of that width. -/
theorem negAt_mod (v : Word) (w : Nat) (hw : 0 < w) : negAt w v = decide (2 ^ (w - 1) ≤ v.toNat % 2 ^ w) := by
  rw [negAt_eq, Nat.testBit_eq_decide_div_mod_eq]
  apply decide_eq_decide.2
  obtain ⟨k, rfl⟩ : ∃ k, w = k + 1 := ⟨w - 1, by omega⟩
  simp only [Nat.add_sub_cancel]
  rw [Nat.pow_succ, Nat.mod_mul]
  have h1 : v.toNat % 2 ^ k < 2 ^ k := Nat.mod_lt _ (by positivity)
  have h2 : v.toNat / 2 ^ k % 2 = 0 ∨ v.toNat / 2 ^ k % 2 = 1 := by omega
  rcases h2 with h | h
  · simp [h, h1]
  · simp [h]

end Sys2Proof.Machine
end

