-- ==== Sys2Proof/Laws/Memory.lean ====
section
/-! SUPPORT. Memory: a read after a write, writes elsewhere, and the canonical form that every memory operation keeps
(10_state.md R30, 20_memory.md R55, R66). -/

namespace Sys2Proof.Machine

/-! ### Reading after writing -/

theorem Memory.read_insert (m : Memory) (a : Nat) (v : Byte) (x : Nat) (h : ∀ cell ∈ m, cell.1 ≠ a) :
    Memory.read (Memory.insert m a v) x = if x = a then v else Memory.read m x := by
  induction m with
  | nil => simp [Memory.insert, Memory.read, eq_comm]
  | cons cell rest ih =>
    obtain ⟨b, w⟩ := cell
    have hb : b ≠ a := h (b, w) (by simp)
    have ih' := ih fun c hc => h c (by simp [hc])
    simp only [Memory.insert]
    split
    · simp only [Memory.read, eq_comm]
    · simp only [Memory.read, ih']
      by_cases hx : b = x
      · subst hx; simp [hb]
      · simp [hx]

theorem Memory.read_filter_ne (m : Memory) (a x : Nat) :
    Memory.read (m.filter fun cell => cell.1 != a) x = if x = a then 0 else Memory.read m x := by
  induction m with
  | nil => simp [Memory.read]
  | cons cell rest ih =>
    obtain ⟨b, w⟩ := cell
    by_cases hb : b = a
    · subst hb
      simp only [List.filter, bne_self_eq_false, ih, Memory.read]
      by_cases hx : x = b
      · simp [hx]
      · simp [hx, Ne.symm hx]
    · have : (b != a) = true := by simpa using hb
      simp only [List.filter, this, Memory.read, ih]
      by_cases hx : b = x
      · subst hx; simp [hb]
      · simp [hx]

/-- A written byte is read back, and no other byte changes. -/
theorem Memory.read_write (m : Memory) (a : Nat) (v : Byte) (x : Nat) :
    Memory.read (Memory.write m a v) x = if x = a then v else Memory.read m x := by
  unfold Memory.write
  split
  · next hv => simp only [Memory.read_filter_ne, hv]
  · rw [Memory.read_insert _ _ _ _ (by simp), Memory.read_filter_ne]
    by_cases hx : x = a <;> simp [hx]

theorem Memory.read_write_self (m : Memory) (a : Nat) (v : Byte) : Memory.read (Memory.write m a v) a = v := by
  simp [Memory.read_write]

theorem Memory.read_write_other (m : Memory) (a : Nat) (v : Byte) (x : Nat) (h : x ≠ a) :
    Memory.read (Memory.write m a v) x = Memory.read m x := by
  simp [Memory.read_write, h]

/-- After writing bytes, an address among them reads its byte, and every other address reads as before. -/
theorem Memory.read_writeBytes (m : Memory) (a : Nat) (vs : List Byte) (x : Nat) :
    Memory.read (Memory.writeBytes m a vs) x =
      if a ≤ x ∧ x < a + vs.length then vs.getD (x - a) 0 else Memory.read m x := by
  induction vs generalizing m a with
  | nil =>
    have : ¬(a ≤ x ∧ x < a + ([] : List Byte).length) := by simp
    rw [if_neg this]
    rfl
  | cons v vs ih =>
    rw [Memory.writeBytes, ih, Memory.read_write]
    simp only [List.length_cons]
    by_cases hx : x = a
    · subst hx
      have h1 : ¬(x + 1 ≤ x ∧ x < x + 1 + vs.length) := by omega
      have h2 : x ≤ x ∧ x < x + (vs.length + 1) := by omega
      rw [if_neg h1, if_pos h2]
      simp
    · by_cases hin : a + 1 ≤ x ∧ x < a + 1 + vs.length
      · have h2 : a ≤ x ∧ x < a + (vs.length + 1) := by omega
        obtain ⟨k, hk⟩ : ∃ k, x - a = k + 1 := ⟨x - a - 1, by omega⟩
        have hk' : x - (a + 1) = k := by omega
        rw [if_pos hin, if_pos h2, hk, hk', List.getD_cons_succ]
      · have h2 : ¬(a ≤ x ∧ x < a + (vs.length + 1)) := by omega
        rw [if_neg hin, if_neg h2, if_neg hx]

/-- Bytes outside those written read as before. -/
theorem Memory.read_writeBytes_other (m : Memory) (a : Nat) (vs : List Byte) (x : Nat)
    (h : x < a ∨ a + vs.length ≤ x) : Memory.read (Memory.writeBytes m a vs) x = Memory.read m x := by
  rw [Memory.read_writeBytes, if_neg (by omega)]

theorem Memory.readBytes_eq_map (m : Memory) (a n : Nat) :
    Memory.readBytes m a n = (List.range n).map fun k => Memory.read m (a + k) := by
  induction n generalizing a with
  | zero => rfl
  | succ n ih =>
    rw [Memory.readBytes, ih, List.range_succ_eq_map]
    simp [Function.comp_def, Nat.add_assoc, Nat.add_comm 1]

/-- Bytes written are read back together. -/
theorem Memory.readBytes_writeBytes (m : Memory) (a : Nat) (vs : List Byte) :
    Memory.readBytes (Memory.writeBytes m a vs) a vs.length = vs := by
  rw [Memory.readBytes_eq_map]
  apply List.ext_getElem
  · simp
  · intro k h1 h2
    have hk : k < vs.length := h2
    simp [Memory.read_writeBytes, hk]

/-- Two memories that agree on some bytes are read alike there. -/
theorem Memory.readBytes_congr (m m' : Memory) (a n : Nat)
    (h : ∀ x, a ≤ x → x < a + n → Memory.read m x = Memory.read m' x) :
    Memory.readBytes m a n = Memory.readBytes m' a n := by
  rw [Memory.readBytes_eq_map, Memory.readBytes_eq_map]
  apply List.map_congr_left
  intro k hk
  have := List.mem_range.mp hk
  exact h _ (by omega) (by omega)

/-! ### The canonical form -/

theorem Memory.mem_insert (m : Memory) (a : Nat) (v : Byte) (cell : Host.Cell) :
    cell ∈ Memory.insert m a v ↔ cell = (a, v) ∨ cell ∈ m := by
  induction m with
  | nil => simp [Memory.insert]
  | cons c rest ih =>
    obtain ⟨b, w⟩ := c
    simp only [Memory.insert]
    split
    · simp
    · simp only [List.mem_cons, ih]
      tauto

theorem Memory.wf_insert (m : Memory) (a : Nat) (v : Byte) (hm : Memory.wf m) (hv : v ≠ 0)
    (ha : ∀ cell ∈ m, cell.1 ≠ a) : Memory.wf (Memory.insert m a v) := by
  refine ⟨?_, ?_⟩
  · have hp := hm.1
    clear hm
    induction m with
    | nil => simp [Memory.insert]
    | cons c rest ih =>
      obtain ⟨b, w⟩ := c
      have hb : b ≠ a := ha (b, w) (by simp)
      rw [List.pairwise_cons] at hp
      simp only [Memory.insert]
      split
      · next hlt =>
        refine List.pairwise_cons.mpr ⟨?_, List.pairwise_cons.mpr hp⟩
        intro y hy
        rcases List.mem_cons.mp hy with rfl | hy
        · exact hlt
        · exact lt_trans hlt (hp.1 y hy)
      · next hge =>
        refine List.pairwise_cons.mpr ⟨?_, ih (fun c hc => ha c (by simp [hc])) hp.2⟩
        intro y hy
        rcases (Memory.mem_insert rest a v y).mp hy with rfl | hy
        · show b < a
          omega
        · exact hp.1 y hy
  · intro cell hc
    rcases (Memory.mem_insert m a v cell).mp hc with rfl | hc
    · exact hv
    · exact hm.2 cell hc

theorem Memory.wf_filter (m : Memory) (p : Host.Cell → Bool) (hm : Memory.wf m) : Memory.wf (m.filter p) :=
  ⟨hm.1.filter _, fun cell hc => hm.2 cell (List.mem_filter.mp hc).1⟩

/-- A write keeps the canonical form. -/
theorem Memory.wf_write (m : Memory) (a : Nat) (v : Byte) (hm : Memory.wf m) : Memory.wf (Memory.write m a v) := by
  unfold Memory.write
  split
  · exact Memory.wf_filter m _ hm
  · next hv => exact Memory.wf_insert _ a v (Memory.wf_filter m _ hm) hv (by simp)

/-- Writing bytes keeps the canonical form. -/
theorem Memory.wf_writeBytes (m : Memory) (a : Nat) (vs : List Byte) (hm : Memory.wf m) :
    Memory.wf (Memory.writeBytes m a vs) := by
  induction vs generalizing m a with
  | nil => exact hm
  | cons v vs ih => exact ih _ _ (Memory.wf_write m a v hm)

/-- A write lists no address but its own and those listed before. -/
theorem Memory.mem_write (m : Memory) (a : Nat) (v : Byte) (cell : Host.Cell) (h : cell ∈ Memory.write m a v) :
    cell.1 = a ∨ cell ∈ m := by
  unfold Memory.write at h
  split at h
  · exact .inr (List.mem_filter.mp h).1
  · rcases (Memory.mem_insert _ _ _ _).mp h with rfl | h
    · exact .inl rfl
    · exact .inr (List.mem_filter.mp h).1

/-- Writing bytes below a bound keeps every listed address below it. -/
theorem Memory.bound_writeBytes (m : Memory) (a : Nat) (vs : List Byte) (top : Nat)
    (hm : ∀ cell ∈ m, cell.1 < top) (ha : vs = [] ∨ a + vs.length ≤ top) :
    ∀ cell ∈ Memory.writeBytes m a vs, cell.1 < top := by
  induction vs generalizing m a with
  | nil => exact hm
  | cons v vs ih =>
    have hlen : a + (vs.length + 1) ≤ top := by simpa using ha
    refine ih _ _ ?_ (.inr (by omega))
    intro cell hc
    rcases Memory.mem_write m a v cell hc with h | h
    · omega
    · exact hm cell h

/-- Memory after reset is in canonical form. -/
theorem Memory.wf_reset : Memory.wf State.reset.mem := by
  show Memory.wf []
  exact ⟨List.Pairwise.nil, by simp⟩

end Sys2Proof.Machine
end

