-- ==== Sys2Proof/Laws/State.lean ====
section
/-! SUPPORT. The small lemmas of State's updates: what each leaves in each field (true by unfolding the update), and what a
register reads after it. No later proof unfolds a record update. -/

namespace Sys2Proof.Machine

variable (s : State)

/-! ### `setReg` -/

@[simp] theorem State.setReg_sr (i : Reg) (v : Word) : (s.setReg i v).sr = s.sr := rfl

@[simp] theorem State.setReg_pc0 (i : Reg) (v : Word) : (s.setReg i v).pc0 = s.pc0 := rfl

@[simp] theorem State.setReg_pc1 (i : Reg) (v : Word) : (s.setReg i v).pc1 = s.pc1 := rfl

@[simp] theorem State.setReg_pc2 (i : Reg) (v : Word) : (s.setReg i v).pc2 = s.pc2 := rfl

@[simp] theorem State.setReg_mem (i : Reg) (v : Word) : (s.setReg i v).mem = s.mem := rfl

@[simp] theorem State.setReg_runState (i : Reg) (v : Word) : (s.setReg i v).runState = s.runState := rfl

@[simp] theorem State.setReg_memErrLog (i : Reg) (v : Word) : (s.setReg i v).memErrLog = s.memErrLog := rfl

@[simp] theorem State.setReg_refused (i : Reg) (v : Word) : (s.setReg i v).refused = s.refused := rfl

@[simp] theorem State.setReg_config (i : Reg) (v : Word) : (s.setReg i v).config = s.config := rfl

@[simp] theorem State.setReg_hostCalls (i : Reg) (v : Word) : (s.setReg i v).hostCalls = s.hostCalls := rfl

@[simp] theorem State.setReg_memTop (i : Reg) (v : Word) : (s.setReg i v).memTop = s.memTop := rfl

/-! ### `setSr` -/

@[simp] theorem State.setSr_regs (sr : StatusReg) : (s.setSr sr).regs = s.regs := rfl

@[simp] theorem State.setSr_sr (sr : StatusReg) : (s.setSr sr).sr = sr := rfl

@[simp] theorem State.setSr_pc0 (sr : StatusReg) : (s.setSr sr).pc0 = s.pc0 := rfl

@[simp] theorem State.setSr_pc1 (sr : StatusReg) : (s.setSr sr).pc1 = s.pc1 := rfl

@[simp] theorem State.setSr_pc2 (sr : StatusReg) : (s.setSr sr).pc2 = s.pc2 := rfl

@[simp] theorem State.setSr_mem (sr : StatusReg) : (s.setSr sr).mem = s.mem := rfl

@[simp] theorem State.setSr_runState (sr : StatusReg) : (s.setSr sr).runState = s.runState := rfl

@[simp] theorem State.setSr_memErrLog (sr : StatusReg) : (s.setSr sr).memErrLog = s.memErrLog := rfl

@[simp] theorem State.setSr_refused (sr : StatusReg) : (s.setSr sr).refused = s.refused := rfl

@[simp] theorem State.setSr_config (sr : StatusReg) : (s.setSr sr).config = s.config := rfl

@[simp] theorem State.setSr_hostCalls (sr : StatusReg) : (s.setSr sr).hostCalls = s.hostCalls := rfl

@[simp] theorem State.setSr_reg (sr : StatusReg) (r : Reg) : (s.setSr sr).reg r = s.reg r := rfl

@[simp] theorem State.setSr_written (sr : StatusReg) : (s.setSr sr).written = s.written := rfl

@[simp] theorem State.setSr_hasWritten (sr : StatusReg) (r : Reg) : (s.setSr sr).hasWritten r = s.hasWritten r := rfl

@[simp] theorem State.setSr_memTop (sr : StatusReg) : (s.setSr sr).memTop = s.memTop := rfl

/-! ### `advance` -/

@[simp] theorem State.advance_regs : s.advance.regs = s.regs := rfl

@[simp] theorem State.advance_sr : s.advance.sr = s.sr := rfl

@[simp] theorem State.advance_pc0 : s.advance.pc0 = s.pc1 := rfl

@[simp] theorem State.advance_pc1 : s.advance.pc1 = s.pc2 := rfl

@[simp] theorem State.advance_pc2 : s.advance.pc2 = s.pc2 + 4 := rfl

@[simp] theorem State.advance_mem : s.advance.mem = s.mem := rfl

@[simp] theorem State.advance_runState : s.advance.runState = s.runState := rfl

@[simp] theorem State.advance_memErrLog : s.advance.memErrLog = s.memErrLog := rfl

@[simp] theorem State.advance_refused : s.advance.refused = s.refused := rfl

@[simp] theorem State.advance_config : s.advance.config = s.config := rfl

@[simp] theorem State.advance_hostCalls : s.advance.hostCalls = s.hostCalls := rfl

@[simp] theorem State.advance_reg (r : Reg) : s.advance.reg r = s.reg r := rfl

@[simp] theorem State.advance_written : s.advance.written = s.written := rfl

@[simp] theorem State.advance_hasWritten (r : Reg) : s.advance.hasWritten r = s.hasWritten r := rfl

@[simp] theorem State.advance_memTop : s.advance.memTop = s.memTop := rfl

/-! ### `setTarget` -/

@[simp] theorem State.setTarget_regs (target : Word) : (s.setTarget target).regs = s.regs := rfl

@[simp] theorem State.setTarget_sr (target : Word) : (s.setTarget target).sr = s.sr := rfl

@[simp] theorem State.setTarget_pc0 (target : Word) : (s.setTarget target).pc0 = s.pc0 := rfl

@[simp] theorem State.setTarget_pc1 (target : Word) : (s.setTarget target).pc1 = s.pc1 := rfl

@[simp] theorem State.setTarget_pc2 (target : Word) : (s.setTarget target).pc2 = target := rfl

@[simp] theorem State.setTarget_mem (target : Word) : (s.setTarget target).mem = s.mem := rfl

@[simp] theorem State.setTarget_runState (target : Word) : (s.setTarget target).runState = s.runState := rfl

@[simp] theorem State.setTarget_memErrLog (target : Word) : (s.setTarget target).memErrLog = s.memErrLog := rfl

@[simp] theorem State.setTarget_refused (target : Word) : (s.setTarget target).refused = s.refused := rfl

@[simp] theorem State.setTarget_config (target : Word) : (s.setTarget target).config = s.config := rfl

@[simp] theorem State.setTarget_hostCalls (target : Word) : (s.setTarget target).hostCalls = s.hostCalls := rfl

@[simp] theorem State.setTarget_reg (target : Word) (r : Reg) : (s.setTarget target).reg r = s.reg r := rfl

@[simp] theorem State.setTarget_written (target : Word) : (s.setTarget target).written = s.written := rfl

@[simp] theorem State.setTarget_hasWritten (target : Word) (r : Reg) : (s.setTarget target).hasWritten r = s.hasWritten r := rfl

@[simp] theorem State.setTarget_memTop (target : Word) : (s.setTarget target).memTop = s.memTop := rfl

/-! ### `fatal` -/

@[simp] theorem State.fatal_regs (reason : HaltReason) : (s.fatal reason).regs = s.regs := rfl

@[simp] theorem State.fatal_sr (reason : HaltReason) : (s.fatal reason).sr = s.sr := rfl

@[simp] theorem State.fatal_pc0 (reason : HaltReason) : (s.fatal reason).pc0 = s.pc0 := rfl

@[simp] theorem State.fatal_pc1 (reason : HaltReason) : (s.fatal reason).pc1 = s.pc1 := rfl

@[simp] theorem State.fatal_pc2 (reason : HaltReason) : (s.fatal reason).pc2 = s.pc2 := rfl

@[simp] theorem State.fatal_mem (reason : HaltReason) : (s.fatal reason).mem = s.mem := rfl

@[simp] theorem State.fatal_runState (reason : HaltReason) : (s.fatal reason).runState = .halted reason := rfl

@[simp] theorem State.fatal_memErrLog (reason : HaltReason) : (s.fatal reason).memErrLog = s.memErrLog := rfl

@[simp] theorem State.fatal_refused (reason : HaltReason) : (s.fatal reason).refused = s.refused := rfl

@[simp] theorem State.fatal_config (reason : HaltReason) : (s.fatal reason).config = s.config := rfl

@[simp] theorem State.fatal_hostCalls (reason : HaltReason) : (s.fatal reason).hostCalls = s.hostCalls := rfl

@[simp] theorem State.fatal_reg (reason : HaltReason) (r : Reg) : (s.fatal reason).reg r = s.reg r := rfl

@[simp] theorem State.fatal_written (reason : HaltReason) : (s.fatal reason).written = s.written := rfl

@[simp] theorem State.fatal_hasWritten (reason : HaltReason) (r : Reg) : (s.fatal reason).hasWritten r = s.hasWritten r := rfl

@[simp] theorem State.fatal_memTop (reason : HaltReason) : (s.fatal reason).memTop = s.memTop := rfl

/-! ### `refuse` -/

@[simp] theorem State.refuse_regs : s.refuse.regs = s.regs := rfl

@[simp] theorem State.refuse_sr : s.refuse.sr = s.sr := rfl

@[simp] theorem State.refuse_pc0 : s.refuse.pc0 = s.pc0 := rfl

@[simp] theorem State.refuse_pc1 : s.refuse.pc1 = s.pc1 := rfl

@[simp] theorem State.refuse_pc2 : s.refuse.pc2 = s.pc2 := rfl

@[simp] theorem State.refuse_mem : s.refuse.mem = s.mem := rfl

@[simp] theorem State.refuse_runState : s.refuse.runState = s.runState := rfl

@[simp] theorem State.refuse_memErrLog : s.refuse.memErrLog = s.memErrLog := rfl

@[simp] theorem State.refuse_refused : s.refuse.refused = true := rfl

@[simp] theorem State.refuse_config : s.refuse.config = s.config := rfl

@[simp] theorem State.refuse_hostCalls : s.refuse.hostCalls = s.hostCalls := rfl

@[simp] theorem State.refuse_reg (r : Reg) : s.refuse.reg r = s.reg r := rfl

@[simp] theorem State.refuse_written : s.refuse.written = s.written := rfl

@[simp] theorem State.refuse_hasWritten (r : Reg) : s.refuse.hasWritten r = s.hasWritten r := rfl

@[simp] theorem State.refuse_memTop : s.refuse.memTop = s.memTop := rfl

/-! ### `recordCheck` -/

@[simp] theorem State.recordCheck_regs (err : Option MemErrKind) (ea : Word) : (s.recordCheck err ea).regs = s.regs := rfl

@[simp] theorem State.recordCheck_sr (err : Option MemErrKind) (ea : Word) : (s.recordCheck err ea).sr = s.sr := rfl

@[simp] theorem State.recordCheck_pc0 (err : Option MemErrKind) (ea : Word) : (s.recordCheck err ea).pc0 = s.pc0 := rfl

@[simp] theorem State.recordCheck_pc1 (err : Option MemErrKind) (ea : Word) : (s.recordCheck err ea).pc1 = s.pc1 := rfl

@[simp] theorem State.recordCheck_pc2 (err : Option MemErrKind) (ea : Word) : (s.recordCheck err ea).pc2 = s.pc2 := rfl

@[simp] theorem State.recordCheck_mem (err : Option MemErrKind) (ea : Word) : (s.recordCheck err ea).mem = s.mem := rfl

@[simp] theorem State.recordCheck_runState (err : Option MemErrKind) (ea : Word) : (s.recordCheck err ea).runState = s.runState := rfl

@[simp] theorem State.recordCheck_memErrLog (err : Option MemErrKind) (ea : Word) : (s.recordCheck err ea).memErrLog = s.memErrLog ++ err.toList.map (s.memErr ea) := rfl

@[simp] theorem State.recordCheck_refused (err : Option MemErrKind) (ea : Word) : (s.recordCheck err ea).refused = s.refused := rfl

@[simp] theorem State.recordCheck_config (err : Option MemErrKind) (ea : Word) : (s.recordCheck err ea).config = s.config := rfl

@[simp] theorem State.recordCheck_hostCalls (err : Option MemErrKind) (ea : Word) : (s.recordCheck err ea).hostCalls = s.hostCalls := rfl

@[simp] theorem State.recordCheck_reg (err : Option MemErrKind) (ea : Word) (r : Reg) : (s.recordCheck err ea).reg r = s.reg r := rfl

@[simp] theorem State.recordCheck_written (err : Option MemErrKind) (ea : Word) : (s.recordCheck err ea).written = s.written := rfl

@[simp] theorem State.recordCheck_hasWritten (err : Option MemErrKind) (ea : Word) (r : Reg) : (s.recordCheck err ea).hasWritten r = s.hasWritten r := rfl

@[simp] theorem State.recordCheck_memTop (err : Option MemErrKind) (ea : Word) : (s.recordCheck err ea).memTop = s.memTop := rfl

/-! ### `memWrite` -/

@[simp] theorem State.memWrite_regs (addr : Word) (n : Nat) (v : Word) : (s.memWrite addr n v).regs = s.regs := rfl

@[simp] theorem State.memWrite_sr (addr : Word) (n : Nat) (v : Word) : (s.memWrite addr n v).sr = s.sr := rfl

@[simp] theorem State.memWrite_pc0 (addr : Word) (n : Nat) (v : Word) : (s.memWrite addr n v).pc0 = s.pc0 := rfl

@[simp] theorem State.memWrite_pc1 (addr : Word) (n : Nat) (v : Word) : (s.memWrite addr n v).pc1 = s.pc1 := rfl

@[simp] theorem State.memWrite_pc2 (addr : Word) (n : Nat) (v : Word) : (s.memWrite addr n v).pc2 = s.pc2 := rfl

@[simp] theorem State.memWrite_mem (addr : Word) (n : Nat) (v : Word) :
    (s.memWrite addr n v).mem = Memory.writeBytes s.mem addr.toNat (bytesOf s.config.byteOrder n v) := rfl

@[simp] theorem State.memWrite_runState (addr : Word) (n : Nat) (v : Word) : (s.memWrite addr n v).runState = s.runState := rfl

@[simp] theorem State.memWrite_memErrLog (addr : Word) (n : Nat) (v : Word) : (s.memWrite addr n v).memErrLog = s.memErrLog := rfl

@[simp] theorem State.memWrite_refused (addr : Word) (n : Nat) (v : Word) : (s.memWrite addr n v).refused = s.refused := rfl

@[simp] theorem State.memWrite_config (addr : Word) (n : Nat) (v : Word) : (s.memWrite addr n v).config = s.config := rfl

@[simp] theorem State.memWrite_hostCalls (addr : Word) (n : Nat) (v : Word) : (s.memWrite addr n v).hostCalls = s.hostCalls := rfl

@[simp] theorem State.memWrite_reg (addr : Word) (n : Nat) (v : Word) (r : Reg) : (s.memWrite addr n v).reg r = s.reg r := rfl

@[simp] theorem State.memWrite_written (addr : Word) (n : Nat) (v : Word) : (s.memWrite addr n v).written = s.written := rfl

@[simp] theorem State.memWrite_hasWritten (addr : Word) (n : Nat) (v : Word) (r : Reg) : (s.memWrite addr n v).hasWritten r = s.hasWritten r := rfl

@[simp] theorem State.memWrite_memTop (addr : Word) (n : Nat) (v : Word) : (s.memWrite addr n v).memTop = s.memTop := rfl

/-! ### `storeChecked` -/

@[simp] theorem State.storeChecked_regs (err : Option MemErrKind) (addr : Word) (n : Nat) (v : Word) : (s.storeChecked err addr n v).regs = s.regs := rfl

@[simp] theorem State.storeChecked_sr (err : Option MemErrKind) (addr : Word) (n : Nat) (v : Word) : (s.storeChecked err addr n v).sr = s.sr := rfl

@[simp] theorem State.storeChecked_pc0 (err : Option MemErrKind) (addr : Word) (n : Nat) (v : Word) : (s.storeChecked err addr n v).pc0 = s.pc0 := rfl

@[simp] theorem State.storeChecked_pc1 (err : Option MemErrKind) (addr : Word) (n : Nat) (v : Word) : (s.storeChecked err addr n v).pc1 = s.pc1 := rfl

@[simp] theorem State.storeChecked_pc2 (err : Option MemErrKind) (addr : Word) (n : Nat) (v : Word) : (s.storeChecked err addr n v).pc2 = s.pc2 := rfl

@[simp] theorem State.storeChecked_mem (err : Option MemErrKind) (addr : Word) (n : Nat) (v : Word) :
    (s.storeChecked err addr n v).mem = if err.isSome then s.mem else Memory.writeBytes s.mem addr.toNat (bytesOf s.config.byteOrder n v) := rfl

@[simp] theorem State.storeChecked_runState (err : Option MemErrKind) (addr : Word) (n : Nat) (v : Word) : (s.storeChecked err addr n v).runState = s.runState := rfl

@[simp] theorem State.storeChecked_memErrLog (err : Option MemErrKind) (addr : Word) (n : Nat) (v : Word) : (s.storeChecked err addr n v).memErrLog = s.memErrLog := rfl

@[simp] theorem State.storeChecked_refused (err : Option MemErrKind) (addr : Word) (n : Nat) (v : Word) : (s.storeChecked err addr n v).refused = s.refused := rfl

@[simp] theorem State.storeChecked_config (err : Option MemErrKind) (addr : Word) (n : Nat) (v : Word) : (s.storeChecked err addr n v).config = s.config := rfl

@[simp] theorem State.storeChecked_hostCalls (err : Option MemErrKind) (addr : Word) (n : Nat) (v : Word) : (s.storeChecked err addr n v).hostCalls = s.hostCalls := rfl

@[simp] theorem State.storeChecked_reg (err : Option MemErrKind) (addr : Word) (n : Nat) (v : Word) (r : Reg) : (s.storeChecked err addr n v).reg r = s.reg r := rfl

@[simp] theorem State.storeChecked_written (err : Option MemErrKind) (addr : Word) (n : Nat) (v : Word) : (s.storeChecked err addr n v).written = s.written := rfl

@[simp] theorem State.storeChecked_hasWritten (err : Option MemErrKind) (addr : Word) (n : Nat) (v : Word) (r : Reg) : (s.storeChecked err addr n v).hasWritten r = s.hasWritten r := rfl

@[simp] theorem State.storeChecked_memTop (err : Option MemErrKind) (addr : Word) (n : Nat) (v : Word) : (s.storeChecked err addr n v).memTop = s.memTop := rfl

/-! ### `writeZN` -/

@[simp] theorem State.writeZN_regs (c : Bool) (w : Nat) (v : Word) : (s.writeZN c w v).regs = s.regs := rfl

@[simp] theorem State.writeZN_sr (c : Bool) (w : Nat) (v : Word) :
    (s.writeZN c w v).sr = if c then { s.sr with z := zeroAt w v, n := negAt w v } else s.sr := rfl

@[simp] theorem State.writeZN_pc0 (c : Bool) (w : Nat) (v : Word) : (s.writeZN c w v).pc0 = s.pc0 := rfl

@[simp] theorem State.writeZN_pc1 (c : Bool) (w : Nat) (v : Word) : (s.writeZN c w v).pc1 = s.pc1 := rfl

@[simp] theorem State.writeZN_pc2 (c : Bool) (w : Nat) (v : Word) : (s.writeZN c w v).pc2 = s.pc2 := rfl

@[simp] theorem State.writeZN_mem (c : Bool) (w : Nat) (v : Word) : (s.writeZN c w v).mem = s.mem := rfl

@[simp] theorem State.writeZN_runState (c : Bool) (w : Nat) (v : Word) : (s.writeZN c w v).runState = s.runState := rfl

@[simp] theorem State.writeZN_memErrLog (c : Bool) (w : Nat) (v : Word) : (s.writeZN c w v).memErrLog = s.memErrLog := rfl

@[simp] theorem State.writeZN_refused (c : Bool) (w : Nat) (v : Word) : (s.writeZN c w v).refused = s.refused := rfl

@[simp] theorem State.writeZN_config (c : Bool) (w : Nat) (v : Word) : (s.writeZN c w v).config = s.config := rfl

@[simp] theorem State.writeZN_hostCalls (c : Bool) (w : Nat) (v : Word) : (s.writeZN c w v).hostCalls = s.hostCalls := rfl

@[simp] theorem State.writeZN_reg (c : Bool) (w : Nat) (v : Word) (r : Reg) : (s.writeZN c w v).reg r = s.reg r := rfl

@[simp] theorem State.writeZN_written (c : Bool) (w : Nat) (v : Word) : (s.writeZN c w v).written = s.written := rfl

@[simp] theorem State.writeZN_hasWritten (c : Bool) (w : Nat) (v : Word) (r : Reg) : (s.writeZN c w v).hasWritten r = s.hasWritten r := rfl

@[simp] theorem State.writeZN_memTop (c : Bool) (w : Nat) (v : Word) : (s.writeZN c w v).memTop = s.memTop := rfl

/-! ### `writeCVZN` -/

@[simp] theorem State.writeCVZN_regs (c : Bool) (a : AddResult) : (s.writeCVZN c a).regs = s.regs := rfl

@[simp] theorem State.writeCVZN_sr (c : Bool) (a : AddResult) :
    (s.writeCVZN c a).sr = if c then { s.sr with c := a.carry, v := a.overflow, z := zeroAt 32 a.r, n := negAt 32 a.r } else s.sr := rfl

@[simp] theorem State.writeCVZN_pc0 (c : Bool) (a : AddResult) : (s.writeCVZN c a).pc0 = s.pc0 := rfl

@[simp] theorem State.writeCVZN_pc1 (c : Bool) (a : AddResult) : (s.writeCVZN c a).pc1 = s.pc1 := rfl

@[simp] theorem State.writeCVZN_pc2 (c : Bool) (a : AddResult) : (s.writeCVZN c a).pc2 = s.pc2 := rfl

@[simp] theorem State.writeCVZN_mem (c : Bool) (a : AddResult) : (s.writeCVZN c a).mem = s.mem := rfl

@[simp] theorem State.writeCVZN_runState (c : Bool) (a : AddResult) : (s.writeCVZN c a).runState = s.runState := rfl

@[simp] theorem State.writeCVZN_memErrLog (c : Bool) (a : AddResult) : (s.writeCVZN c a).memErrLog = s.memErrLog := rfl

@[simp] theorem State.writeCVZN_refused (c : Bool) (a : AddResult) : (s.writeCVZN c a).refused = s.refused := rfl

@[simp] theorem State.writeCVZN_config (c : Bool) (a : AddResult) : (s.writeCVZN c a).config = s.config := rfl

@[simp] theorem State.writeCVZN_hostCalls (c : Bool) (a : AddResult) : (s.writeCVZN c a).hostCalls = s.hostCalls := rfl

@[simp] theorem State.writeCVZN_reg (c : Bool) (a : AddResult) (r : Reg) : (s.writeCVZN c a).reg r = s.reg r := rfl

@[simp] theorem State.writeCVZN_written (c : Bool) (a : AddResult) : (s.writeCVZN c a).written = s.written := rfl

@[simp] theorem State.writeCVZN_hasWritten (c : Bool) (a : AddResult) (r : Reg) : (s.writeCVZN c a).hasWritten r = s.hasWritten r := rfl

@[simp] theorem State.writeCVZN_memTop (c : Bool) (a : AddResult) : (s.writeCVZN c a).memTop = s.memTop := rfl

/-! ### `restoreIe` -/

@[simp] theorem State.restoreIe_regs (c : Bool) : (s.restoreIe c).regs = s.regs := rfl

@[simp] theorem State.restoreIe_sr (c : Bool) : (s.restoreIe c).sr = if c then { s.sr with ie := s.sr.pie } else s.sr := rfl

@[simp] theorem State.restoreIe_pc0 (c : Bool) : (s.restoreIe c).pc0 = s.pc0 := rfl

@[simp] theorem State.restoreIe_pc1 (c : Bool) : (s.restoreIe c).pc1 = s.pc1 := rfl

@[simp] theorem State.restoreIe_pc2 (c : Bool) : (s.restoreIe c).pc2 = s.pc2 := rfl

@[simp] theorem State.restoreIe_mem (c : Bool) : (s.restoreIe c).mem = s.mem := rfl

@[simp] theorem State.restoreIe_runState (c : Bool) : (s.restoreIe c).runState = s.runState := rfl

@[simp] theorem State.restoreIe_memErrLog (c : Bool) : (s.restoreIe c).memErrLog = s.memErrLog := rfl

@[simp] theorem State.restoreIe_refused (c : Bool) : (s.restoreIe c).refused = s.refused := rfl

@[simp] theorem State.restoreIe_config (c : Bool) : (s.restoreIe c).config = s.config := rfl

@[simp] theorem State.restoreIe_hostCalls (c : Bool) : (s.restoreIe c).hostCalls = s.hostCalls := rfl

@[simp] theorem State.restoreIe_reg (c : Bool) (r : Reg) : (s.restoreIe c).reg r = s.reg r := rfl

@[simp] theorem State.restoreIe_written (c : Bool) : (s.restoreIe c).written = s.written := rfl

@[simp] theorem State.restoreIe_hasWritten (c : Bool) (r : Reg) : (s.restoreIe c).hasWritten r = s.hasWritten r := rfl

@[simp] theorem State.restoreIe_memTop (c : Bool) : (s.restoreIe c).memTop = s.memTop := rfl

/-! ### `writeLink` -/

@[simp] theorem State.writeLink_sr (link : Reg) : (s.writeLink link).sr = s.sr := rfl

@[simp] theorem State.writeLink_pc0 (link : Reg) : (s.writeLink link).pc0 = s.pc0 := rfl

@[simp] theorem State.writeLink_pc1 (link : Reg) : (s.writeLink link).pc1 = s.pc1 := rfl

@[simp] theorem State.writeLink_pc2 (link : Reg) : (s.writeLink link).pc2 = s.pc2 := rfl

@[simp] theorem State.writeLink_mem (link : Reg) : (s.writeLink link).mem = s.mem := rfl

@[simp] theorem State.writeLink_runState (link : Reg) : (s.writeLink link).runState = s.runState := rfl

@[simp] theorem State.writeLink_memErrLog (link : Reg) : (s.writeLink link).memErrLog = s.memErrLog := rfl

@[simp] theorem State.writeLink_refused (link : Reg) : (s.writeLink link).refused = s.refused := rfl

@[simp] theorem State.writeLink_config (link : Reg) : (s.writeLink link).config = s.config := rfl

@[simp] theorem State.writeLink_hostCalls (link : Reg) : (s.writeLink link).hostCalls = s.hostCalls := rfl

@[simp] theorem State.writeLink_memTop (link : Reg) : (s.writeLink link).memTop = s.memTop := rfl

/-! ### `trapEntry` -/

@[simp] theorem State.trapEntry_sr :
    s.trapEntry.sr = { s.sr with pie := s.sr.ie, ie := if s.config.trapClearsIe then false else s.sr.ie } := rfl

@[simp] theorem State.trapEntry_pc0 : s.trapEntry.pc0 = s.pc0 := rfl

@[simp] theorem State.trapEntry_pc1 : s.trapEntry.pc1 = s.pc1 := rfl

@[simp] theorem State.trapEntry_pc2 : s.trapEntry.pc2 = s.pc2 := rfl

@[simp] theorem State.trapEntry_mem : s.trapEntry.mem = s.mem := rfl

@[simp] theorem State.trapEntry_runState : s.trapEntry.runState = s.runState := rfl

@[simp] theorem State.trapEntry_memErrLog : s.trapEntry.memErrLog = s.memErrLog := rfl

@[simp] theorem State.trapEntry_refused : s.trapEntry.refused = s.refused := rfl

@[simp] theorem State.trapEntry_config : s.trapEntry.config = s.config := rfl

@[simp] theorem State.trapEntry_hostCalls : s.trapEntry.hostCalls = s.hostCalls := rfl

@[simp] theorem State.trapEntry_memTop : s.trapEntry.memTop = s.memTop := rfl

/-! ### `countCall` -/

@[simp] theorem State.countCall_regs : s.countCall.regs = s.regs := rfl

@[simp] theorem State.countCall_sr : s.countCall.sr = s.sr := rfl

@[simp] theorem State.countCall_pc0 : s.countCall.pc0 = s.pc0 := rfl

@[simp] theorem State.countCall_pc1 : s.countCall.pc1 = s.pc1 := rfl

@[simp] theorem State.countCall_pc2 : s.countCall.pc2 = s.pc2 := rfl

@[simp] theorem State.countCall_mem : s.countCall.mem = s.mem := rfl

@[simp] theorem State.countCall_runState : s.countCall.runState = s.runState := rfl

@[simp] theorem State.countCall_memErrLog : s.countCall.memErrLog = s.memErrLog := rfl

@[simp] theorem State.countCall_refused : s.countCall.refused = s.refused := rfl

@[simp] theorem State.countCall_config : s.countCall.config = s.config := rfl

@[simp] theorem State.countCall_hostCalls : s.countCall.hostCalls = s.hostCalls + 1 := rfl

@[simp] theorem State.countCall_reg (r : Reg) : s.countCall.reg r = s.reg r := rfl

@[simp] theorem State.countCall_written : s.countCall.written = s.written := rfl

@[simp] theorem State.countCall_hasWritten (r : Reg) : s.countCall.hasWritten r = s.hasWritten r := rfl

@[simp] theorem State.countCall_memTop : s.countCall.memTop = s.memTop := rfl

/-! ### `exit` -/

@[simp] theorem State.exit_regs : s.exit.regs = s.regs := rfl

@[simp] theorem State.exit_sr : s.exit.sr = s.sr := rfl

@[simp] theorem State.exit_pc0 : s.exit.pc0 = s.pc0 := rfl

@[simp] theorem State.exit_pc1 : s.exit.pc1 = s.pc1 := rfl

@[simp] theorem State.exit_pc2 : s.exit.pc2 = s.pc2 := rfl

@[simp] theorem State.exit_mem : s.exit.mem = s.mem := rfl

@[simp] theorem State.exit_runState : s.exit.runState = .exited (Config.hostExitCode s.hostCalls) := rfl

@[simp] theorem State.exit_memErrLog : s.exit.memErrLog = s.memErrLog := rfl

@[simp] theorem State.exit_refused : s.exit.refused = s.refused := rfl

@[simp] theorem State.exit_config : s.exit.config = s.config := rfl

@[simp] theorem State.exit_hostCalls : s.exit.hostCalls = s.hostCalls := rfl

@[simp] theorem State.exit_reg (r : Reg) : s.exit.reg r = s.reg r := rfl

@[simp] theorem State.exit_written : s.exit.written = s.written := rfl

@[simp] theorem State.exit_hasWritten (r : Reg) : s.exit.hasWritten r = s.hasWritten r := rfl

@[simp] theorem State.exit_memTop : s.exit.memTop = s.memTop := rfl

/-! ### Reading a register after a write (R9, R20, R21) -/

/-- A write is read back, but for register 0, and no other register changes. -/
theorem State.setReg_reg (i : Reg) (v : Word) (r : Reg) :
    (s.setReg i v).reg r = if r = i ∧ r ≠ 0 then v else s.reg r := by
  by_cases hi : i = 0
  · subst hi
    by_cases hr : r = 0 <;> simp [State.setReg, State.reg, hr]
  · by_cases hr : r = i
    · subst hr
      simp [State.setReg, State.reg, hi]
    · have hne : i.val ≠ r.val := fun h => hr (Fin.ext h.symm)
      simp [State.setReg, State.reg, hi, hr, hne]

@[simp] theorem State.setReg_reg_zero (i : Reg) (v : Word) : (s.setReg i v).reg 0 = s.reg 0 := by
  simp [State.setReg_reg]

theorem State.setReg_reg_self (i : Reg) (v : Word) (h : i ≠ 0) : (s.setReg i v).reg i = v := by
  simp [State.setReg_reg, h]

theorem State.setReg_reg_other (i : Reg) (v : Word) (r : Reg) (h : r ≠ i) : (s.setReg i v).reg r = s.reg r := by
  simp [State.setReg_reg, h]

/-- A write marks its register, but for register 0, and no other (R35). -/
theorem State.setReg_hasWritten (i : Reg) (v : Word) (r : Reg) :
    (s.setReg i v).hasWritten r = if r = i ∧ r ≠ 0 then true else s.hasWritten r := by
  by_cases hi : i = 0
  · subst hi
    by_cases hr : r = 0 <;> simp [State.setReg, State.hasWritten, hr]
  · by_cases hr : r = i
    · subst hr
      simp [State.setReg, State.hasWritten, hi]
    · have hne : i.val ≠ r.val := fun h => hr (Fin.ext h.symm)
      simp [State.setReg, State.hasWritten, hi, hr, hne]

/-- A register write changes that register and no other (R9, R21, R35). -/
theorem State.setReg_setsOnly (i : Reg) (v : Word) : s.SetsOnly (s.setReg i v) i v :=
  ⟨s.setReg_reg i v, s.setReg_hasWritten i v⟩

/-- A register that nothing has written holds 0 after a write too (R35). -/
theorem State.setReg_unwrittenZero (i : Reg) (v : Word) (h : ∀ r, s.hasWritten r = false → s.reg r = 0) (r : Reg)
    (hr : (s.setReg i v).hasWritten r = false) : (s.setReg i v).reg r = 0 := by
  rw [State.setReg_hasWritten] at hr
  rw [State.setReg_reg]
  split at hr
  · cases hr
  · next hne => rw [if_neg hne]; exact h r hr

/-- The link write changes the link register and no other (R191). -/
theorem State.writeLink_setsOnly (link : Reg) : s.SetsOnly (s.writeLink link) link (s.pc0 + 8) :=
  s.setReg_setsOnly link _

/-- The link register reads `PC0 + 8`, and no other register changes (R191). -/
theorem State.writeLink_reg (link r : Reg) :
    (s.writeLink link).reg r = if r = link ∧ r ≠ 0 then s.pc0 + 8 else s.reg r :=
  s.setReg_reg link _ r

/-- A trap entry writes r30 and r31 and no other register (R211). -/
theorem State.trapEntry_reg (r : Reg) :
    s.trapEntry.reg r = if r = 30 then s.trapSlots.1 else if r = 31 then s.trapSlots.2 else s.reg r := by
  by_cases h30 : r = 30
  · subst h30
    simp [State.trapEntry, State.setReg_reg]
  · by_cases h31 : r = 31
    · subst h31
      simp [State.trapEntry, State.setReg_reg]
    · simp [State.trapEntry, State.setReg_reg, h30, h31]

/-- A trap entry marks r30 and r31 written and no other register (R211, R35). -/
theorem State.trapEntry_hasWritten (r : Reg) :
    s.trapEntry.hasWritten r = (s.hasWritten r || decide (r = 30) || decide (r = 31)) := by
  by_cases h30 : r = 30
  · subst h30
    simp [State.trapEntry, State.setReg_hasWritten]
  · by_cases h31 : r = 31
    · subst h31
      simp [State.trapEntry, State.setReg_hasWritten]
    · simp [State.trapEntry, State.setReg_hasWritten, h30, h31]

/-- Trap entry leaves registers 0 to 29. -/
theorem State.trapEntry_reg_low (r : Reg) (h : r.val < 30) : s.trapEntry.reg r = s.reg r := by
  rw [State.trapEntry_reg, if_neg, if_neg] <;> intro e <;> subst e <;> simp at h

/-- After reset every register reads 0 (R35). -/
@[simp] theorem State.reset_reg (r : Reg) : State.reset.reg r = 0 := by
  simp [State.reset, State.reg]

/-- After reset no register has been written (R35). -/
@[simp] theorem State.reset_hasWritten (r : Reg) : State.reset.hasWritten r = false := by
  simp [State.reset, State.hasWritten]

/-! ### Reading registers under `RESET_REGS` (R35) -/

/-- Every register can be read under `RESET_REGS = zero`. -/
theorem State.canRead_of_zero (rs : List Reg) (h : s.config.resetRegs = .zero) : s.canRead rs = true := by
  simp [State.canRead, State.readable, h]

/-- Where every register named can be read, the guard does nothing. -/
theorem State.guardReads_of_canRead (rs : List Reg) (after : State) (h : s.canRead rs = true) :
    s.guardReads rs after = after := by
  simp [State.guardReads, h]

/-- Everything a guarded read can do: go on, or halt where it stands. -/
theorem State.guardReads_cases (rs : List Reg) (after : State) :
    (s.canRead rs = true ∧ s.guardReads rs after = after) ∨
      (s.canRead rs = false ∧ s.guardReads rs after = s.fatal .unwrittenRegister) := by
  cases h : s.canRead rs
  · exact .inr ⟨rfl, by simp [State.guardReads, h]⟩
  · exact .inl ⟨rfl, by simp [State.guardReads, h]⟩

/-- Some register named cannot be read exactly when the parameter is `unwritten` and one of r1 to r31 among them has not been
written. -/
theorem State.canRead_eq_false_iff (rs : List Reg) :
    s.canRead rs = false ↔ s.config.resetRegs = .unwritten ∧ ∃ r ∈ rs, r ≠ 0 ∧ s.hasWritten r = false := by
  unfold State.canRead State.readable
  cases s.config.resetRegs <;> simp

/-- A trap entry makes no difference to registers other than r30 and r31. -/
theorem State.trapEntry_readable (r : Reg) (h : r.val < 30) : s.trapEntry.readable r = s.readable r := by
  have h30 : r ≠ 30 := by rintro rfl; simp at h
  have h31 : r ≠ 31 := by rintro rfl; simp at h
  simp [State.readable, State.trapEntry_hasWritten, h30, h31]

/-! ### The launch (R260, R262) -/

variable (image : List Byte) (cfg : Config)

@[simp] theorem State.launch_regs : (State.launch image cfg).regs = State.reset.regs := rfl

@[simp] theorem State.launch_written : (State.launch image cfg).written = State.reset.written := rfl

@[simp] theorem State.launch_sr : (State.launch image cfg).sr = State.reset.sr := rfl

@[simp] theorem State.launch_pc0 : (State.launch image cfg).pc0 = 0 := rfl

@[simp] theorem State.launch_pc1 : (State.launch image cfg).pc1 = 4 := rfl

@[simp] theorem State.launch_pc2 : (State.launch image cfg).pc2 = 8 := rfl

@[simp] theorem State.launch_mem : (State.launch image cfg).mem = Memory.writeBytes [] 0 image := rfl

@[simp] theorem State.launch_runState : (State.launch image cfg).runState = .running := rfl

@[simp] theorem State.launch_memErrLog : (State.launch image cfg).memErrLog = [] := rfl

@[simp] theorem State.launch_refused : (State.launch image cfg).refused = false := rfl

@[simp] theorem State.launch_config : (State.launch image cfg).config = { cfg with memLen := image.length } := rfl

@[simp] theorem State.launch_hostCalls : (State.launch image cfg).hostCalls = 0 := rfl

@[simp] theorem State.launch_reg (r : Reg) : (State.launch image cfg).reg r = 0 := State.reset_reg r

@[simp] theorem State.launch_hasWritten (r : Reg) : (State.launch image cfg).hasWritten r = false :=
  State.reset_hasWritten r

@[simp] theorem State.launch_memTop : (State.launch image cfg).memTop = image.length + cfg.stackSize := rfl

/-- The state after reset is the launch of an empty image with the default settings. -/
theorem State.reset_eq_launch : State.reset = State.launch [] defaultConfig := rfl

/-! ### The status register as a word (R25) -/

theorem StatusReg.ofBits_toBits (sr : StatusReg) : StatusReg.ofBits sr.toBits = sr := by
  rcases sr with ⟨c, v, z, n, ie, pie⟩
  revert c v z n ie pie
  decide

theorem StatusReg.toBits_ofBits (b : BitVec 6) : (StatusReg.ofBits b).toBits = b := by
  revert b
  decide

end Sys2Proof.Machine
end

