-- ==== Sys2Proof/Laws/Ops.lean ====
section
/-! SUPPORT. One lemma per shared operation that says once everything it can do; later proofs cite these and do not unfold the
operations. -/

namespace Sys2Proof.Machine

/-! ### Addresses and targets -/

/-- The branch target as an integer sum (R84, R186). -/
theorem branchTarget_eq_relativeTarget (s : State) (off : BitVec 22) : s.branchTarget off = s.relativeTarget off := by
  apply BitVec.eq_of_toInt_eq
  have h : (off.signExtend 32).toInt = off.toInt := by
    rw [BitVec.toInt_signExtend]
    have h1 := off.toInt_lt
    have h2 := off.le_toInt
    norm_num at h1 h2 ⊢
    exact Int.bmod_eq_of_le (by omega) (by omega)
  simp only [State.branchTarget, branchOffset, State.relativeTarget, BitVec.toInt_add, BitVec.toInt_mul, h,
    BitVec.toInt_ofInt]
  have h4 : (4 : Word).toInt = 4 := by decide
  rw [h4, BitVec.toInt_eq_toNat_bmod, Int.bmod_add_bmod, Int.add_bmod_bmod, mul_comm]

/-- The effective address with its factors the other way round (R58). -/
theorem effAddr_eq (s : State) (size : Nat) (f : RegForm) :
    s.effAddr size f = s.reg f.src1 + BitVec.ofNat 32 size * s.op2 f.src2 := by
  rw [State.effAddr, BitVec.mul_comm]

/-! ### Bytes and numbers -/

theorem natOfBytes_lt (bs : List Byte) : natOfBytes bs < 2 ^ (8 * bs.length) := by
  induction bs with
  | nil => simp [natOfBytes]
  | cons b bs ih =>
    have hb := b.isLt
    have : 2 ^ (8 * (b :: bs).length) = 256 * 2 ^ (8 * bs.length) := by
      rw [List.length_cons, Nat.mul_add, Nat.pow_add, Nat.mul_comm]
    simp only [natOfBytes]
    omega

/-- Up to four bytes joined are the number they stand for. -/
theorem wordOfLittle_toNat (bs : List Byte) (h : bs.length ≤ 4) : (wordOfLittle bs).toNat = natOfBytes bs := by
  induction bs with
  | nil => rfl
  | cons b bs ih =>
    have hb := b.isLt
    have hlen : bs.length ≤ 3 := by simp at h; omega
    have hlt := natOfBytes_lt bs
    have hpow : 2 ^ (8 * bs.length) ≤ 2 ^ 24 := Nat.pow_le_pow_right (by omega) (by omega)
    have ih' := ih (by omega)
    simp only [wordOfLittle, natOfBytes, BitVec.toNat_or, BitVec.toNat_shiftLeft, BitVec.toNat_setWidth, ih']
    rw [Nat.mod_eq_of_lt (by omega : b.toNat < 2 ^ 32), Nat.shiftLeft_eq,
      Nat.mod_eq_of_lt (by omega : natOfBytes bs * 2 ^ 8 < 2 ^ 32), Nat.or_comm, Nat.mul_comm,
      ← Nat.two_pow_add_eq_or_of_lt hb, Nat.add_comm]

/-- `MemRead` is the number its bytes stand for (R55). -/
theorem memRead_toNat (s : State) (a : Word) (n : Nat) (h : n ≤ 4) : (s.memRead a n).toNat = s.numberAt a.toNat n := by
  simp only [State.memRead, State.numberAt, wordOf, Memory.readBytes_eq_map]
  cases s.config.byteOrder
  · exact wordOfLittle_toNat _ (by simpa using h)
  · exact wordOfLittle_toNat _ (by simpa using h)

/-- The number `n` bytes stand for is below `2^(8n)`. -/
theorem numberAt_lt (s : State) (a n : Nat) : s.numberAt a n < 2 ^ (8 * n) := by
  simp only [State.numberAt]
  cases s.config.byteOrder
  · simpa using natOfBytes_lt ((List.range n).map fun k => Memory.read s.mem (a + k))
  · simpa using natOfBytes_lt ((List.range n).map fun k => Memory.read s.mem (a + k)).reverse

/-- `m` bytes of a word from its byte `j` up stand for those bits of it. -/
theorem natOfBytes_part (w : Word) (m j : Nat) :
    natOfBytes ((List.range m).map fun k => w.extractLsb' (8 * (j + k)) 8) = w.toNat / 2 ^ (8 * j) % 2 ^ (8 * m) := by
  induction m generalizing j with
  | zero => simp [natOfBytes, Nat.mod_one]
  | succ m ih =>
    rw [List.range_succ_eq_map]
    simp only [List.map_cons, List.map_map, natOfBytes, Function.comp_def]
    have hj : ∀ k, 8 * (j + Nat.succ k) = 8 * (j + 1 + k) := fun k => by omega
    simp only [hj, ih (j + 1), Nat.add_zero]
    rw [BitVec.extractLsb'_toNat, Nat.shiftRight_eq_div_pow]
    have e1 : w.toNat / 2 ^ (8 * (j + 1)) = w.toNat / 2 ^ (8 * j) / 256 := by
      rw [Nat.div_div_eq_div_mul, Nat.mul_add, Nat.pow_add]
    have e2 : 2 ^ (8 * (m + 1)) = 256 * 2 ^ (8 * m) := by
      rw [Nat.mul_add, Nat.pow_add, Nat.mul_comm]
    rw [e1, e2, Nat.mod_mul]

/-- The low `n` bytes of a word stand for its value modulo `2^(8n)`. -/
theorem natOfBytes_low (w : Word) (n : Nat) :
    natOfBytes ((List.range n).map fun k => w.extractLsb' (8 * k) 8) = w.toNat % 2 ^ (8 * n) := by
  simpa using natOfBytes_part w n 0

/-- After `MemWrite` the bytes written stand for the low `n` bytes of the value (R55). -/
theorem numberAt_memWrite (s : State) (a v : Word) (n : Nat) :
    (s.memWrite a n v).numberAt a.toNat n = v.toNat % 2 ^ (8 * n) := by
  have h : (List.range n).map (fun k => Memory.read (s.memWrite a n v).mem (a.toNat + k)) =
      bytesOf s.config.byteOrder n v := by
    rw [← Memory.readBytes_eq_map, State.memWrite_mem]
    have := Memory.readBytes_writeBytes s.mem a.toNat (bytesOf s.config.byteOrder n v)
    rwa [bytesOf_length] at this
  simp only [State.numberAt, h, State.memWrite_config]
  cases hb : s.config.byteOrder
  · exact natOfBytes_low v n
  · simp only [bytesOf, List.reverse_reverse]
    exact natOfBytes_low v n

/-- `MemWrite` leaves every byte outside the `n` written. -/
theorem read_memWrite_other (s : State) (a v : Word) (n x : Nat) (h : x < a.toNat ∨ a.toNat + n ≤ x) :
    Memory.read (s.memWrite a n v).mem x = Memory.read s.mem x := by
  rw [State.memWrite_mem]
  exact Memory.read_writeBytes_other _ _ _ _ (by simpa using h)

/-- Under the little byte order, `m` bytes from byte `j` of a stored word read as those bits of it (R55, R56). -/
theorem memRead_memWrite_part (s : State) (a v : Word) (j m : Nat) (hlittle : s.config.byteOrder = .little)
    (hjm : j + m ≤ 4) (ha : a.toNat + 4 ≤ 2 ^ 32) (hm : 0 < m) :
    ((s.memWrite a 4 v).memRead (a + BitVec.ofNat 32 j) m).toNat = v.toNat / 2 ^ (8 * j) % 2 ^ (8 * m) := by
  have e : (a + BitVec.ofNat 32 j).toNat = a.toNat + j := by
    simp only [BitVec.toNat_add, BitVec.toNat_ofNat]
    omega
  rw [memRead_toNat _ _ _ (by omega), e]
  have hb := Memory.readBytes_writeBytes s.mem a.toNat (bytesOf s.config.byteOrder 4 v)
  rw [bytesOf_length, hlittle] at hb
  have byte : ∀ k < 4, Memory.read (s.memWrite a 4 v).mem (a.toNat + k) = v.extractLsb' (8 * k) 8 := by
    intro k hk
    rw [State.memWrite_mem, hlittle]
    simp [Memory.readBytes, bytesOf, List.range, List.range.loop] at hb
    obtain ⟨h0, h1, h2, h3⟩ := hb
    interval_cases k
    · exact h0
    · exact h1
    · exact h2
    · exact h3
  have hmap : ((List.range m).map fun k => Memory.read (s.memWrite a 4 v).mem (a.toNat + j + k)) =
      (List.range m).map fun k => v.extractLsb' (8 * (j + k)) 8 := by
    apply List.map_congr_left
    intro k hk
    rw [Nat.add_assoc]
    exact byte _ (by simp at hk; omega)
  unfold State.numberAt
  rw [State.memWrite_config, hlittle]
  show natOfBytes _ = _
  rw [hmap, natOfBytes_part]

/-- A store's data as a number (R152). -/
theorem truncateTo_toNat (n : Nat) (d : Word) (h : n ≤ 4) : (truncateTo n d).toNat = d.toNat % 2 ^ (8 * n) := by
  have h1 : d.toNat % 2 ^ (8 * n) < 2 ^ (8 * n) := Nat.mod_lt _ (by positivity)
  have h2 : 2 ^ (8 * n) ≤ 2 ^ 32 := Nat.pow_le_pow_right (by omega) (by omega)
  simp only [truncateTo, BitVec.toNat_setWidth]
  exact Nat.mod_eq_of_lt (by omega)

/-! ### The access check (R60, R61, R62) -/

/-- No error exactly when the access ends in memory and is not an r29 access below `memLen`. -/
theorem checkAccess_eq_none (s : State) (ea : Word) (n : Nat) (sp : Bool) (hn : 0 < n) :
    s.checkAccess ea n sp = none ↔
      ea.toNat + n ≤ s.memTop ∧ (sp = true → s.config.memLen ≤ ea.toNat) ∧ s.dataMisaligned ea n = false := by
  unfold State.checkAccess
  split
  · simp; omega
  · split
    · simp_all
    · split <;> simp_all

theorem checkAccess_eq_outOfRange (s : State) (ea : Word) (n : Nat) (sp : Bool) (hn : 0 < n) :
    s.checkAccess ea n sp = some .outOfRange ↔ s.memTop < ea.toNat + n := by
  unfold State.checkAccess
  split
  · simp; omega
  · split
    · simp; omega
    · split <;> simp <;> omega

theorem checkAccess_eq_stackUnderflow (s : State) (ea : Word) (n : Nat) (sp : Bool) (hn : 0 < n) :
    s.checkAccess ea n sp = some .stackUnderflow ↔
      ea.toNat + n ≤ s.memTop ∧ sp = true ∧ ea.toNat < s.config.memLen := by
  unfold State.checkAccess
  split
  · simp; omega
  · split
    · simp_all
    · split <;> simp_all

/-- The alignment error comes only after the two checks of R62 have passed. -/
theorem checkAccess_eq_misaligned (s : State) (ea : Word) (n : Nat) (sp : Bool) (hn : 0 < n) :
    s.checkAccess ea n sp = some .misaligned ↔
      ea.toNat + n ≤ s.memTop ∧ (sp = true → s.config.memLen ≤ ea.toNat) ∧ s.dataMisaligned ea n = true := by
  unfold State.checkAccess
  split
  · simp; omega
  · split
    · simp_all
    · split <;> simp_all

/-- Alignment is an error only under `MISALIGNED_DATA = fault` (R57, I3). -/
theorem dataMisaligned_iff (s : State) (ea : Word) (n : Nat) :
    s.dataMisaligned ea n = true ↔ s.config.misalignedData = .fault ∧ ea.toNat % n ≠ 0 := by
  simp [State.dataMisaligned]

/-- `spInvolved` names r29 as base or register offset (R61). -/
theorem spInvolved_iff (f : RegForm) : spInvolved f = true ↔ f.src1 = 29 ∨ f.src2 = .reg 29 := by
  simp [spInvolved]

/-! ### What each shared operation does -/

/-- A register write, new flags and the advance, and nothing else (R114). -/
theorem State.computes_setReg (s : State) (d : Reg) (v : Word) (sr : StatusReg) :
    s.Computes ((s.setReg d v).setSr sr).advance d v sr :=
  ⟨⟨s.setReg_reg d v, s.setReg_hasWritten d v⟩, rfl, ⟨rfl, rfl, rfl⟩, ⟨⟨rfl, rfl, rfl⟩, fun _ => rfl, rfl, rfl⟩⟩

/-- The add/sub family completes whenever its operands can be read (R114). -/
theorem addSubOp_computes (compute : Word → Word → Bool → AddResult) (f : RegForm) (s : State)
    (h : s.canRead (formSources f) = true) :
    ∃ t, addSubOp compute f s = .next t ∧
      s.Computes t f.dst (compute (s.reg f.src1) (s.op2 f.src2) s.sr.c).r
        (if f.c then
          { s.sr with
            c := (compute (s.reg f.src1) (s.op2 f.src2) s.sr.c).carry
            v := (compute (s.reg f.src1) (s.op2 f.src2) s.sr.c).overflow
            z := zeroAt 32 (compute (s.reg f.src1) (s.op2 f.src2) s.sr.c).r
            n := negAt 32 (compute (s.reg f.src1) (s.op2 f.src2) s.sr.c).r }
        else s.sr) := by
  simp only [addSubOp, s.guardReads_of_canRead _ _ h]
  exact ⟨_, rfl, s.computes_setReg _ _ _⟩

/-- The logical family and the shifts complete whenever their operands can be read (R114). -/
theorem logicOp_computes (compute : Word → Word → Word) (f : RegForm) (s : State)
    (h : s.canRead (formSources f) = true) :
    ∃ t, logicOp compute f s = .next t ∧
      s.Computes t f.dst (compute (s.reg f.src1) (s.op2 f.src2))
        (if f.c then
          { s.sr with
            z := zeroAt 32 (compute (s.reg f.src1) (s.op2 f.src2))
            n := negAt 32 (compute (s.reg f.src1) (s.op2 f.src2)) }
        else s.sr) := by
  simp only [logicOp, s.guardReads_of_canRead _ _ h]
  exact ⟨_, rfl, s.computes_setReg _ _ _⟩

/-- LEA and LEAS complete whenever their operands can be read (R168, R169). -/
theorem leaOp_computes (size : Nat) (f : RegForm) (s : State) (h : s.canRead (formSources f) = true) :
    ∃ t, leaOp size f s = .next t ∧
      s.Computes t f.dst (s.effAddr size f)
        (if f.c then
          { s.sr with z := zeroAt (8 * size) (s.effAddr size f), n := negAt (8 * size) (s.effAddr size f) }
        else s.sr) := by
  simp only [leaOp, s.guardReads_of_canRead _ _ h]
  exact ⟨_, rfl, s.computes_setReg _ _ _⟩

/-- The state a load ends in (R151). -/
def State.afterLoad (s : State) (size : Nat) (extend : Word → Word) (f : RegForm) (err : Option MemErrKind) : State :=
  let v := extend (s.loadRaw err (s.effAddr size f) size)
  (((s.recordCheck err (s.effAddr size f)).setReg f.dst v).writeZN f.c (8 * size) v).advance

/-- The state a store ends in (R152). -/
def State.afterStore (s : State) (size : Nat) (f : RegForm) (err : Option MemErrKind) : State :=
  let d := truncateTo size (s.reg f.dst)
  (((s.recordCheck err (s.effAddr size f)).storeChecked err (s.effAddr size f) size d).writeZN f.c (8 * size) d).advance

/-- A load reads its operands and otherwise always completes (R151). -/
theorem loadOp_eq (size : Nat) (extend : Word → Word) (f : RegForm) (s : State) :
    loadOp size extend f s = .next (s.guardReads (formSources f)
      (s.afterLoad size extend f (s.checkAccess (s.effAddr size f) size (spInvolved f)))) := rfl

/-- A store reads its operands and otherwise always completes (R152). -/
theorem storeOp_eq (size : Nat) (f : RegForm) (s : State) :
    storeOp size f s = .next (s.guardReads (storeSources f)
      (s.afterStore size f (s.checkAccess (s.effAddr size f) size (spInvolved f)))) := rfl

/-- A load whose operands can be read completes (R151). -/
theorem loadOp_of_canRead (size : Nat) (extend : Word → Word) (f : RegForm) (s : State)
    (h : s.canRead (formSources f) = true) :
    loadOp size extend f s =
      .next (s.afterLoad size extend f (s.checkAccess (s.effAddr size f) size (spInvolved f))) := by
  rw [loadOp_eq, s.guardReads_of_canRead _ _ h]

/-- A store whose operands can be read completes (R152). -/
theorem storeOp_of_canRead (size : Nat) (f : RegForm) (s : State) (h : s.canRead (storeSources f) = true) :
    storeOp size f s = .next (s.afterStore size f (s.checkAccess (s.effAddr size f) size (spInvolved f))) := by
  rw [storeOp_eq, s.guardReads_of_canRead _ _ h]

/-- A load that passes its checks writes the extended value and moves on. -/
theorem afterLoad_none (s : State) (size : Nat) (extend : Word → Word) (f : RegForm) :
    s.Computes (s.afterLoad size extend f none) f.dst (extend (s.memRead (s.effAddr size f) size))
      (if f.c then
        { s.sr with
          z := zeroAt (8 * size) (extend (s.memRead (s.effAddr size f) size))
          n := negAt (8 * size) (extend (s.memRead (s.effAddr size f) size)) }
      else s.sr) :=
  have hreg := s.setReg_setsOnly f.dst (extend (s.memRead (s.effAddr size f) size))
  ⟨⟨hreg.reg, hreg.written⟩, rfl, ⟨rfl, rfl, rfl⟩, ⟨⟨rfl, rfl, rfl⟩, fun _ => rfl, rfl, by simp [State.afterLoad]⟩⟩

/-- A conditional branch always completes (R186, R189). -/
theorem branchOp_eq (cond : Cond) (off : BitVec 22) (s : State) :
    branchOp cond off s = .next
      (if (cond.holds s.sr = true ∨ s.config.branchCheckNotTaken = true) ∧
          s.config.memLen ≤ (s.relativeTarget off).toNat then
        { s with runState := .halted .branchTargetOutOfRange }
      else if cond.holds s.sr = true then
        { s with pc0 := s.pc1, pc1 := s.relativeTarget off, pc2 := s.relativeTarget off + 4 }
      else { s with pc0 := s.pc1, pc1 := s.pc2, pc2 := s.pc2 + 4 }) := by
  unfold branchOp
  rw [branchTarget_eq_relativeTarget]
  by_cases hh : cond.holds s.sr = true <;> by_cases ht : s.config.memLen ≤ (s.relativeTarget off).toNat <;>
    by_cases hc : s.config.branchCheckNotTaken = true <;>
    simp [hh, ht, hc, State.transfer, State.targetOutOfRange, State.fatal, State.setTarget, State.advance]

/-- A transfer goes to its target or halts (R187). -/
theorem transfer_eq (s : State) (target : Word) :
    s.transfer target =
      if target.toNat < s.config.memLen then { s with pc0 := s.pc1, pc1 := target, pc2 := target + 4 }
      else { s with runState := .halted .branchTargetOutOfRange } := by
  unfold State.transfer State.targetOutOfRange
  by_cases h : target.toNat < s.config.memLen
  · simp [h, Nat.not_le.mpr h, State.setTarget, State.advance]
  · simp [h, Nat.not_lt.mp h, State.fatal]

/-- A transfer halts where it stands, or sets its target and advances (R187). -/
theorem transfer_cases (s : State) (target : Word) :
    s.transfer target = s.fatal .branchTargetOutOfRange ∨ s.transfer target = (s.setTarget target).advance := by
  unfold State.transfer
  split
  · exact .inl rfl
  · exact .inr rfl

/-- What a transfer leaves: everything but the pipeline and the run state (R187). -/
theorem transfer_frame (s : State) (target : Word) :
    s.SameRegs (s.transfer target) ∧ (s.transfer target).sr = s.sr ∧ (s.transfer target).mem = s.mem ∧
      s.SameFixed (s.transfer target) ∧ (s.transfer target).memErrLog = s.memErrLog := by
  rcases transfer_cases s target with e | e <;> rw [e] <;>
    exact ⟨⟨fun _ => rfl, fun _ => rfl⟩, rfl, rfl, ⟨rfl, rfl, rfl⟩, rfl⟩

/-- A link write and the transfer after it change the link register and no other (R191). -/
theorem writeLink_transfer_setsOnly (s : State) (link : Reg) (c : Bool) (target : Word) :
    s.SetsOnly (((s.writeLink link).restoreIe c).transfer target) link (s.pc0 + 8) :=
  have hf := (transfer_frame ((s.writeLink link).restoreIe c) target).1
  have hl := s.writeLink_setsOnly link
  ⟨fun r => (hf.reg r).trans (hl.reg r), fun r => (hf.written r).trans (hl.written r)⟩

/-- BSR with its target as an integer sum (R190). -/
theorem exec_bsr_eq (link : Reg) (off : BitVec 22) (s : State) :
    exec (.bsr link off) s = .next ((s.writeLink link).transfer (s.relativeTarget off)) := by
  rw [← branchTarget_eq_relativeTarget]
  rfl

/-- JSR with its target written out (R195). -/
theorem exec_jsr_eq (f : RegForm) (s : State) :
    exec (.jsr f) s = .next (s.guardReads (formSources f)
      (((s.writeLink f.dst).restoreIe f.c).transfer (s.reg f.src1 + 4 * s.op2 f.src2))) := by
  have h := effAddr_eq s 4 f
  rw [show s.reg f.src1 + 4 * s.op2 f.src2 = s.effAddr 4 f from h.symm]
  rfl

/-- The instruction of a row of the condition table is a conditional branch. -/
theorem conditionTable_row (k : Nat) (off : BitVec 22) {p : (BitVec 22 → Instr) × (StatusReg → Bool)}
    (h : conditionTable[k]? = some p) : (p.1 off).IsConditionalBranch :=
  ⟨p, List.mem_of_getElem? h, off, rfl⟩

/-- Each row of the condition table is the meaning of its instruction (R185). -/
theorem exec_conditional (p : (BitVec 22 → Instr) × (StatusReg → Bool)) (hp : p ∈ conditionTable) :
    ∃ cond : Cond, (∀ off s, exec (p.1 off) s = branchOp cond off s) ∧ ∀ sr, cond.holds sr = p.2 sr := by
  simp only [conditionTable, List.mem_cons, List.not_mem_nil, or_false] at hp
  rcases hp with rfl | rfl | rfl | rfl | rfl | rfl | rfl | rfl | rfl | rfl | rfl | rfl | rfl | rfl | rfl | rfl
  · exact ⟨.sp, fun _ _ => rfl, fun ⟨c, v, z, n, _, _⟩ => by cases c <;> cases v <;> cases z <;> cases n <;> rfl⟩
  · exact ⟨.mz, fun _ _ => rfl, fun ⟨c, v, z, n, _, _⟩ => by cases c <;> cases v <;> cases z <;> cases n <;> rfl⟩
  · exact ⟨.gt, fun _ _ => rfl, fun ⟨c, v, z, n, _, _⟩ => by cases c <;> cases v <;> cases z <;> cases n <;> rfl⟩
  · exact ⟨.le, fun _ _ => rfl, fun ⟨c, v, z, n, _, _⟩ => by cases c <;> cases v <;> cases z <;> cases n <;> rfl⟩
  · exact ⟨.ge, fun _ _ => rfl, fun ⟨c, v, z, n, _, _⟩ => by cases c <;> cases v <;> cases z <;> cases n <;> rfl⟩
  · exact ⟨.lt, fun _ _ => rfl, fun ⟨c, v, z, n, _, _⟩ => by cases c <;> cases v <;> cases z <;> cases n <;> rfl⟩
  · exact ⟨.hi, fun _ _ => rfl, fun ⟨c, v, z, n, _, _⟩ => by cases c <;> cases v <;> cases z <;> cases n <;> rfl⟩
  · exact ⟨.ls, fun _ _ => rfl, fun ⟨c, v, z, n, _, _⟩ => by cases c <;> cases v <;> cases z <;> cases n <;> rfl⟩
  · exact ⟨.cc, fun _ _ => rfl, fun ⟨c, v, z, n, _, _⟩ => by cases c <;> cases v <;> cases z <;> cases n <;> rfl⟩
  · exact ⟨.cs, fun _ _ => rfl, fun ⟨c, v, z, n, _, _⟩ => by cases c <;> cases v <;> cases z <;> cases n <;> rfl⟩
  · exact ⟨.pl, fun _ _ => rfl, fun ⟨c, v, z, n, _, _⟩ => by cases c <;> cases v <;> cases z <;> cases n <;> rfl⟩
  · exact ⟨.mi, fun _ _ => rfl, fun ⟨c, v, z, n, _, _⟩ => by cases c <;> cases v <;> cases z <;> cases n <;> rfl⟩
  · exact ⟨.ne, fun _ _ => rfl, fun ⟨c, v, z, n, _, _⟩ => by cases c <;> cases v <;> cases z <;> cases n <;> rfl⟩
  · exact ⟨.eq, fun _ _ => rfl, fun ⟨c, v, z, n, _, _⟩ => by cases c <;> cases v <;> cases z <;> cases n <;> rfl⟩
  · exact ⟨.vc, fun _ _ => rfl, fun ⟨c, v, z, n, _, _⟩ => by cases c <;> cases v <;> cases z <;> cases n <;> rfl⟩
  · exact ⟨.vs, fun _ _ => rfl, fun ⟨c, v, z, n, _, _⟩ => by cases c <;> cases v <;> cases z <;> cases n <;> rfl⟩

end Sys2Proof.Machine
end

