-- ==== Sys2Proof/Laws/PerInstr.lean ====
section
/-! SUPPORT. A family of statements about every instruction as syntax: its word lies in its own row of
`spec/opcode_table.json`, whose mask and match are written out here from the table. -/

namespace Sys2Proof.Laws

/-- The mask and the match of an instruction's row of `spec/opcode_table.json`. -/
def EncodesInRow.row : Instr → Word × Word
  | .trap0 _ => (0xF8000000, 0x00000000)
  | .bsp _ => (0xFFC00000, 0x08000000)
  | .bmz _ => (0xFFC00000, 0x08400000)
  | .bgt _ => (0xFFC00000, 0x08800000)
  | .ble _ => (0xFFC00000, 0x08C00000)
  | .bge _ => (0xFFC00000, 0x09000000)
  | .blt _ => (0xFFC00000, 0x09400000)
  | .bhi _ => (0xFFC00000, 0x09800000)
  | .bls _ => (0xFFC00000, 0x09C00000)
  | .bcc _ => (0xFFC00000, 0x0A000000)
  | .bcs _ => (0xFFC00000, 0x0A400000)
  | .bpl _ => (0xFFC00000, 0x0A800000)
  | .bmi _ => (0xFFC00000, 0x0AC00000)
  | .bne _ => (0xFFC00000, 0x0B000000)
  | .beq _ => (0xFFC00000, 0x0B400000)
  | .bvc _ => (0xFFC00000, 0x0B800000)
  | .bvs _ => (0xFFC00000, 0x0BC00000)
  | .bccIllegal _ _ => (0xFC000000, 0x0C000000)
  | .bsr _ _ => (0xF8000000, 0x10000000)
  | .lea _ => (0xF8000000, 0x18000000)
  | .leas _ => (0xF8000000, 0x20000000)
  | .subr _ => (0xF8000000, 0x28000000)
  | .xor _ => (0xF8000000, 0x30000000)
  | .xorn _ => (0xF8000000, 0x38000000)
  | .add _ => (0xF8000000, 0x40000000)
  | .sub _ => (0xF8000000, 0x48000000)
  | .addc _ => (0xF8000000, 0x50000000)
  | .subc _ => (0xF8000000, 0x58000000)
  | .and _ => (0xF8000000, 0x60000000)
  | .andn _ => (0xF8000000, 0x68000000)
  | .or _ => (0xF8000000, 0x70000000)
  | .orn _ => (0xF8000000, 0x78000000)
  | .ld _ => (0xF8000000, 0x80000000)
  | .ldh _ => (0xF8000000, 0x88000000)
  | .lduh _ => (0xF8000000, 0x90000000)
  | .sth _ => (0xF8000000, 0x98000000)
  | .st _ => (0xF8000000, 0xA0000000)
  | .ldb _ => (0xF8000000, 0xA8000000)
  | .ldub _ => (0xF8000000, 0xB0000000)
  | .stb _ => (0xF8000000, 0xB8000000)
  | .ashr _ => (0xF8000000, 0xC0000000)
  | .lshr _ => (0xF8000000, 0xC8000000)
  | .ashl _ => (0xF8000000, 0xD0000000)
  | .rotl _ => (0xF8000000, 0xD8000000)
  | .op1C _ => (0xF8000000, 0xE0000000)
  | .op1D _ => (0xF8000000, 0xE8000000)
  | .jsr _ => (0xF8000000, 0xF0000000)
  | .trap _ => (0xF8000000, 0xF8000000)

/-- A well-formed instruction's word, under its row's mask, is its row's match. -/
def EncodesInRow.Statement (i : Instr) : Prop :=
  i.wf = true → encode i &&& (EncodesInRow.row i).1 = (EncodesInRow.row i).2

/-- The mask of a register-format row keeps the opcode and drops every field. -/
theorem packReg_opcode (op : BitVec 5) (f : RegForm) : packReg op f &&& 0xF8000000 = op ++ (0 : BitVec 27) := by
  apply BitVec.eq_of_getLsbD_eq
  intro k hk
  rw [BitVec.getLsbD_and, packReg_getLsbD, BitVec.getLsbD_append]
  by_cases h : k < 27
  · have hm : (0xF8000000#32).getLsbD k = false := by interval_cases k <;> rfl
    simp [h, hm]
  · have hm : (0xF8000000#32).getLsbD k = true := by interval_cases k <;> rfl
    have h16 : ¬k < 16 := by omega
    have h21 : ¬k < 21 := by omega
    have h22 : k ≠ 21 := by omega
    simp [h, hm, h16, h21, h22]

/-- The mask of a conditional branch's row keeps the opcode and the condition. -/
theorem packBranch_opcode_cond (op x : BitVec 5) (off : BitVec 22) :
    packBranch op x off &&& 0xFFC00000 = packBranch op x 0 := by
  apply BitVec.eq_of_getLsbD_eq
  intro k hk
  rw [BitVec.getLsbD_and, packBranch_getLsbD, packBranch_getLsbD]
  by_cases h : k < 22
  · have hm : (0xFFC00000#32).getLsbD k = false := by interval_cases k <;> rfl
    simp [h, hm]
  · have hm : (0xFFC00000#32).getLsbD k = true := by interval_cases k <;> rfl
    simp [h, hm]

/-- The mask of BSR's row keeps the opcode. -/
theorem packBranch_opcode (op x : BitVec 5) (off : BitVec 22) :
    packBranch op x off &&& 0xF8000000 = packBranch op 0 0 := by
  apply BitVec.eq_of_getLsbD_eq
  intro k hk
  rw [BitVec.getLsbD_and, packBranch_getLsbD, packBranch_getLsbD]
  by_cases h : k < 27
  · have hm : (0xF8000000#32).getLsbD k = false := by interval_cases k <;> rfl
    simp [hm]
    omega
  · have hm : (0xF8000000#32).getLsbD k = true := by interval_cases k <;> rfl
    have h2 : ¬k < 22 := by omega
    simp [h, h2, hm]

/-- The mask of the illegal conditions' row keeps the opcode and the top bit of the condition. -/
theorem packBranch_illegal (x : BitVec 5) (off : BitVec 22) (hx : 16 ≤ x.toNat) :
    packBranch 0x01 x off &&& 0xFC000000 = 0x0C000000 := by
  have hmsb : x.getLsbD 4 = true := by
    rw [← BitVec.testBit_toNat, Nat.testBit_eq_decide_div_mod_eq]
    have := x.isLt
    simp
    omega
  apply BitVec.eq_of_getLsbD_eq
  intro k hk
  rw [BitVec.getLsbD_and, packBranch_getLsbD]
  by_cases h : k < 22
  · have hm : (0xFC000000#32).getLsbD k = false := by interval_cases k <;> rfl
    have hr : (0x0C000000#32).getLsbD k = false := by interval_cases k <;> rfl
    simp [h, hm, hr]
  · interval_cases k <;> first | omega | simp [hmsb]

theorem EncodesInRow.trap0 (f : RegForm) : EncodesInRow.Statement (.trap0 f) :=
  fun _ => packReg_opcode 0x00 f

theorem EncodesInRow.bsp (off : BitVec 22) : EncodesInRow.Statement (.bsp off) :=
  fun _ => packBranch_opcode_cond 0x01 0 off

theorem EncodesInRow.bmz (off : BitVec 22) : EncodesInRow.Statement (.bmz off) :=
  fun _ => packBranch_opcode_cond 0x01 1 off

theorem EncodesInRow.bgt (off : BitVec 22) : EncodesInRow.Statement (.bgt off) :=
  fun _ => packBranch_opcode_cond 0x01 2 off

theorem EncodesInRow.ble (off : BitVec 22) : EncodesInRow.Statement (.ble off) :=
  fun _ => packBranch_opcode_cond 0x01 3 off

theorem EncodesInRow.bge (off : BitVec 22) : EncodesInRow.Statement (.bge off) :=
  fun _ => packBranch_opcode_cond 0x01 4 off

theorem EncodesInRow.blt (off : BitVec 22) : EncodesInRow.Statement (.blt off) :=
  fun _ => packBranch_opcode_cond 0x01 5 off

theorem EncodesInRow.bhi (off : BitVec 22) : EncodesInRow.Statement (.bhi off) :=
  fun _ => packBranch_opcode_cond 0x01 6 off

theorem EncodesInRow.bls (off : BitVec 22) : EncodesInRow.Statement (.bls off) :=
  fun _ => packBranch_opcode_cond 0x01 7 off

theorem EncodesInRow.bcc (off : BitVec 22) : EncodesInRow.Statement (.bcc off) :=
  fun _ => packBranch_opcode_cond 0x01 8 off

theorem EncodesInRow.bcs (off : BitVec 22) : EncodesInRow.Statement (.bcs off) :=
  fun _ => packBranch_opcode_cond 0x01 9 off

theorem EncodesInRow.bpl (off : BitVec 22) : EncodesInRow.Statement (.bpl off) :=
  fun _ => packBranch_opcode_cond 0x01 10 off

theorem EncodesInRow.bmi (off : BitVec 22) : EncodesInRow.Statement (.bmi off) :=
  fun _ => packBranch_opcode_cond 0x01 11 off

theorem EncodesInRow.bne (off : BitVec 22) : EncodesInRow.Statement (.bne off) :=
  fun _ => packBranch_opcode_cond 0x01 12 off

theorem EncodesInRow.beq (off : BitVec 22) : EncodesInRow.Statement (.beq off) :=
  fun _ => packBranch_opcode_cond 0x01 13 off

theorem EncodesInRow.bvc (off : BitVec 22) : EncodesInRow.Statement (.bvc off) :=
  fun _ => packBranch_opcode_cond 0x01 14 off

theorem EncodesInRow.bvs (off : BitVec 22) : EncodesInRow.Statement (.bvs off) :=
  fun _ => packBranch_opcode_cond 0x01 15 off

theorem EncodesInRow.bccIllegal (cond : BitVec 5) (off : BitVec 22) : EncodesInRow.Statement (.bccIllegal cond off) :=
  fun h => packBranch_illegal cond off (by simpa [Instr.wf] using h)

theorem EncodesInRow.bsr (link : Reg) (off : BitVec 22) : EncodesInRow.Statement (.bsr link off) :=
  fun _ => packBranch_opcode 0x02 (bitsOfReg link) off

theorem EncodesInRow.lea (f : RegForm) : EncodesInRow.Statement (.lea f) :=
  fun _ => packReg_opcode 0x03 f

theorem EncodesInRow.leas (f : RegForm) : EncodesInRow.Statement (.leas f) :=
  fun _ => packReg_opcode 0x04 f

theorem EncodesInRow.subr (f : RegForm) : EncodesInRow.Statement (.subr f) :=
  fun _ => packReg_opcode 0x05 f

theorem EncodesInRow.xor (f : RegForm) : EncodesInRow.Statement (.xor f) :=
  fun _ => packReg_opcode 0x06 f

theorem EncodesInRow.xorn (f : RegForm) : EncodesInRow.Statement (.xorn f) :=
  fun _ => packReg_opcode 0x07 f

theorem EncodesInRow.add (f : RegForm) : EncodesInRow.Statement (.add f) :=
  fun _ => packReg_opcode 0x08 f

theorem EncodesInRow.sub (f : RegForm) : EncodesInRow.Statement (.sub f) :=
  fun _ => packReg_opcode 0x09 f

theorem EncodesInRow.addc (f : RegForm) : EncodesInRow.Statement (.addc f) :=
  fun _ => packReg_opcode 0x0A f

theorem EncodesInRow.subc (f : RegForm) : EncodesInRow.Statement (.subc f) :=
  fun _ => packReg_opcode 0x0B f

theorem EncodesInRow.and (f : RegForm) : EncodesInRow.Statement (.and f) :=
  fun _ => packReg_opcode 0x0C f

theorem EncodesInRow.andn (f : RegForm) : EncodesInRow.Statement (.andn f) :=
  fun _ => packReg_opcode 0x0D f

theorem EncodesInRow.or (f : RegForm) : EncodesInRow.Statement (.or f) :=
  fun _ => packReg_opcode 0x0E f

theorem EncodesInRow.orn (f : RegForm) : EncodesInRow.Statement (.orn f) :=
  fun _ => packReg_opcode 0x0F f

theorem EncodesInRow.ld (f : RegForm) : EncodesInRow.Statement (.ld f) :=
  fun _ => packReg_opcode 0x10 f

theorem EncodesInRow.ldh (f : RegForm) : EncodesInRow.Statement (.ldh f) :=
  fun _ => packReg_opcode 0x11 f

theorem EncodesInRow.lduh (f : RegForm) : EncodesInRow.Statement (.lduh f) :=
  fun _ => packReg_opcode 0x12 f

theorem EncodesInRow.sth (f : RegForm) : EncodesInRow.Statement (.sth f) :=
  fun _ => packReg_opcode 0x13 f

theorem EncodesInRow.st (f : RegForm) : EncodesInRow.Statement (.st f) :=
  fun _ => packReg_opcode 0x14 f

theorem EncodesInRow.ldb (f : RegForm) : EncodesInRow.Statement (.ldb f) :=
  fun _ => packReg_opcode 0x15 f

theorem EncodesInRow.ldub (f : RegForm) : EncodesInRow.Statement (.ldub f) :=
  fun _ => packReg_opcode 0x16 f

theorem EncodesInRow.stb (f : RegForm) : EncodesInRow.Statement (.stb f) :=
  fun _ => packReg_opcode 0x17 f

theorem EncodesInRow.ashr (f : RegForm) : EncodesInRow.Statement (.ashr f) :=
  fun _ => packReg_opcode 0x18 f

theorem EncodesInRow.lshr (f : RegForm) : EncodesInRow.Statement (.lshr f) :=
  fun _ => packReg_opcode 0x19 f

theorem EncodesInRow.ashl (f : RegForm) : EncodesInRow.Statement (.ashl f) :=
  fun _ => packReg_opcode 0x1A f

theorem EncodesInRow.rotl (f : RegForm) : EncodesInRow.Statement (.rotl f) :=
  fun _ => packReg_opcode 0x1B f

theorem EncodesInRow.op1C (f : RegForm) : EncodesInRow.Statement (.op1C f) :=
  fun _ => packReg_opcode 0x1C f

theorem EncodesInRow.op1D (f : RegForm) : EncodesInRow.Statement (.op1D f) :=
  fun _ => packReg_opcode 0x1D f

theorem EncodesInRow.jsr (f : RegForm) : EncodesInRow.Statement (.jsr f) :=
  fun _ => packReg_opcode 0x1E f

theorem EncodesInRow.trap (f : RegForm) : EncodesInRow.Statement (.trap f) :=
  fun _ => packReg_opcode 0x1F f

end Sys2Proof.Laws
end

