-- ==== Sys2Proof/Laws/Step.lean ====
section
/-! SUPPORT. Everything a step can do, said once: `step_next` for the step, `exec_next` for the instructions, by the shape of
the state they end in. Statements about every step are a case split over these shapes. -/

namespace Sys2Proof.Machine

/-- What an instruction that is no trap and no JSR may do to the status register (R26, R111). -/
structure FlagsWritten (i : Instr) (old new : StatusReg) : Prop where
  ie : new.ie = old.ie
  pie : new.pie = old.pie
  unaffected : i.affectStatus = false → new = old
  carryOverflow : i.isAddSub = false → new.c = old.c ∧ new.v = old.v

/-- The state an instruction ends in, by shape. -/
inductive ExecTo (s : State) : Instr → State → Prop
  /-- ALU, LEA and LEAS: one register, flags, advance. -/
  | compute (i : Instr) (d : Reg) (v : Word) (sr : StatusReg) (flags : FlagsWritten i s.sr sr)
      (store : i.isStore = false) (trap : i.isTrap = false) (jsr : i.isJsr = false)
      (target : i.transferTarget s = none) :
      ExecTo s i ((s.setReg d v).setSr sr).advance
  /-- Loads: perhaps an error record, one register, flags, advance. -/
  | load (i : Instr) (ea : Word) (n : Nat) (sp : Bool) (d : Reg) (v : Word) (sr : StatusReg)
      (flags : FlagsWritten i s.sr sr) (store : i.isStore = false) (trap : i.isTrap = false) (jsr : i.isJsr = false)
      (target : i.transferTarget s = none) :
      ExecTo s i (((s.recordCheck (s.checkAccess ea n sp) ea).setReg d v).setSr sr).advance
  /-- Stores: an error record or the bytes, flags, advance. -/
  | store (i : Instr) (ea : Word) (n : Nat) (sp : Bool) (data : Word) (sr : StatusReg) (flags : FlagsWritten i s.sr sr)
      (pos : 0 < n) (store : i.isStore = true) (trap : i.isTrap = false) (jsr : i.isJsr = false)
      (target : i.transferTarget s = none) :
      ExecTo s i (((s.recordCheck (s.checkAccess ea n sp) ea).storeChecked (s.checkAccess ea n sp) ea n data).setSr sr).advance
  /-- A conditional branch taken. -/
  | taken (i : Instr) (target : Word) (cond : i.IsConditionalBranch) (ht : i.transferTarget s = some target)
      (store : i.isStore = false) (trap : i.isTrap = false) (jsr : i.isJsr = false) :
      ExecTo s i (s.transfer target)
  /-- A conditional branch not taken. -/
  | notTaken (i : Instr) (store : i.isStore = false) (trap : i.isTrap = false) (jsr : i.isJsr = false) :
      ExecTo s i s.advance
  /-- A conditional branch not taken whose target is checked all the same. -/
  | checked (i : Instr) (cond : i.IsConditionalBranch) (store : i.isStore = false) (trap : i.isTrap = false)
      (jsr : i.isJsr = false) :
      ExecTo s i (s.fatal .branchTargetOutOfRange)
  /-- A conditional branch with an illegal condition. -/
  | illegal (cond : BitVec 5) (off : BitVec 22) :
      ExecTo s (.bccIllegal cond off) (s.fatal .illegalBranchCond)
  /-- BSR. -/
  | bsr (link : Reg) (off : BitVec 22) :
      ExecTo s (.bsr link off) ((s.writeLink link).transfer (s.relativeTarget off))
  /-- JSR. -/
  | jsr (f : RegForm) (src : s.canRead (formSources f) = true) :
      ExecTo s (.jsr f) (((s.writeLink f.dst).restoreIe f.c).transfer (s.reg f.src1 + 4 * s.op2 f.src2))
  /-- TRAP0. -/
  | trap0 (f : RegForm) : ExecTo s (.trap0 f) (s.trapEntry.fatal .illegalOpcode)
  /-- TRAP. -/
  | trap (f : RegForm) : ExecTo s (.trap f) (s.trapEntry.afterTrap f)
  /-- An instruction that is no trap reads a register it may not (R35, under `RESET_REGS = unwritten`). -/
  | unread (i : Instr) (src : s.canRead i.sources = false) (trap : i.isTrap = false) :
      ExecTo s i (s.fatal .unwrittenRegister)
  /-- The opcodes no source describes. -/
  | refuse (i : Instr) (store : i.isStore = false) (trap : i.isTrap = false) (jsr : i.isJsr = false) :
      ExecTo s i s.refuse

/-! ### The flags each family writes -/

theorem flagsWritten_CVZN (i : Instr) (f : RegForm) (sr : StatusReg) (a : AddResult) (hc : i.affectStatus = f.c)
    (hi : i.isAddSub = true) :
    FlagsWritten i sr (if f.c then { sr with c := a.carry, v := a.overflow, z := zeroAt 32 a.r, n := negAt 32 a.r }
      else sr) := by
  refine ⟨?_, ?_, ?_, ?_⟩
  · split <;> rfl
  · split <;> rfl
  · intro h
    rw [← hc, h]
    rfl
  · simp [hi]

theorem flagsWritten_ZN (i : Instr) (f : RegForm) (sr : StatusReg) (w : Nat) (v : Word) (hc : i.affectStatus = f.c) :
    FlagsWritten i sr (if f.c then { sr with z := zeroAt w v, n := negAt w v } else sr) := by
  refine ⟨?_, ?_, ?_, ?_⟩
  · split <;> rfl
  · split <;> rfl
  · intro h
    rw [← hc, h]
    rfl
  · intro _
    split <;> exact ⟨rfl, rfl⟩

/-! ### The shapes -/

/-- A guarded read goes on or halts (R35). -/
theorem guardReads_to {s after : State} {i : Instr} (rs : List Reg) (src : i.sources = rs) (trap : i.isTrap = false)
    (h : s.canRead rs = true → ExecTo s i after) : ExecTo s i (s.guardReads rs after) := by
  rcases s.guardReads_cases rs after with ⟨hr, e⟩ | ⟨hr, e⟩
  · rw [e]
    exact h hr
  · rw [e]
    exact .unread i (by rw [src]; exact hr) trap

theorem addSubOp_to (i : Instr) (compute : Word → Word → Bool → AddResult) (f : RegForm) (s t : State)
    (h : addSubOp compute f s = .next t) (src : i.sources = formSources f) (hc : i.affectStatus = f.c)
    (hi : i.isAddSub = true) (store : i.isStore = false) (trap : i.isTrap = false) (jsr : i.isJsr = false)
    (target : i.transferTarget s = none) : ExecTo s i t := by
  cases h
  refine guardReads_to _ src trap fun _ => ?_
  exact .compute i f.dst _ _ (flagsWritten_CVZN i f s.sr _ hc hi) store trap jsr target

theorem logicOp_to (i : Instr) (compute : Word → Word → Word) (f : RegForm) (s t : State)
    (h : logicOp compute f s = .next t) (src : i.sources = formSources f) (hc : i.affectStatus = f.c)
    (store : i.isStore = false) (trap : i.isTrap = false) (jsr : i.isJsr = false)
    (target : i.transferTarget s = none) : ExecTo s i t := by
  cases h
  refine guardReads_to _ src trap fun _ => ?_
  exact .compute i f.dst _ _ (flagsWritten_ZN i f s.sr 32 _ hc) store trap jsr target

theorem leaOp_to (i : Instr) (size : Nat) (f : RegForm) (s t : State) (h : leaOp size f s = .next t)
    (src : i.sources = formSources f) (hc : i.affectStatus = f.c) (store : i.isStore = false) (trap : i.isTrap = false)
    (jsr : i.isJsr = false) (target : i.transferTarget s = none) : ExecTo s i t := by
  cases h
  refine guardReads_to _ src trap fun _ => ?_
  exact .compute i f.dst _ _ (flagsWritten_ZN i f s.sr _ _ hc) store trap jsr target

theorem loadOp_to (i : Instr) (size : Nat) (extend : Word → Word) (f : RegForm) (s t : State)
    (h : loadOp size extend f s = .next t) (src : i.sources = formSources f) (hc : i.affectStatus = f.c)
    (store : i.isStore = false) (trap : i.isTrap = false) (jsr : i.isJsr = false)
    (target : i.transferTarget s = none) : ExecTo s i t := by
  rw [loadOp_eq] at h
  cases h
  refine guardReads_to _ src trap fun _ => ?_
  exact .load i _ size _ f.dst _ _ (flagsWritten_ZN i f s.sr _ _ hc) store trap jsr target

theorem storeOp_to (i : Instr) (size : Nat) (f : RegForm) (s t : State) (h : storeOp size f s = .next t)
    (hs : 0 < size) (src : i.sources = storeSources f) (hc : i.affectStatus = f.c) (store : i.isStore = true)
    (trap : i.isTrap = false) (jsr : i.isJsr = false) (target : i.transferTarget s = none) : ExecTo s i t := by
  rw [storeOp_eq] at h
  cases h
  refine guardReads_to _ src trap fun _ => ?_
  exact .store i _ size _ _ _ (flagsWritten_ZN i f s.sr _ _ hc) hs store trap jsr target

theorem branchOp_to (i : Instr) (cond : Cond) (off : BitVec 22) (s t : State) (h : branchOp cond off s = .next t)
    (hcond : i.IsConditionalBranch) (target : i.transferTarget s = some (s.relativeTarget off))
    (store : i.isStore = false) (trap : i.isTrap = false) (jsr : i.isJsr = false) : ExecTo s i t := by
  unfold branchOp at h
  rw [branchTarget_eq_relativeTarget] at h
  dsimp only at h
  split at h
  · cases h
    exact .taken i _ hcond target store trap jsr
  · split at h
    · cases h
      exact .checked i hcond store trap jsr
    · cases h
      exact .notTaken i store trap jsr

/-- Every next state of an instruction has one of the shapes of `ExecTo`. -/
theorem exec_next (i : Instr) (s t : State) (h : exec i s = .next t) : ExecTo s i t := by
  cases i with
  | trap0 f => cases h; exact .trap0 f
  | bsp off => exact branchOp_to _ .sp off s t h (conditionTable_row 0 off rfl) rfl rfl rfl rfl
  | bmz off => exact branchOp_to _ .mz off s t h (conditionTable_row 1 off rfl) rfl rfl rfl rfl
  | bgt off => exact branchOp_to _ .gt off s t h (conditionTable_row 2 off rfl) rfl rfl rfl rfl
  | ble off => exact branchOp_to _ .le off s t h (conditionTable_row 3 off rfl) rfl rfl rfl rfl
  | bge off => exact branchOp_to _ .ge off s t h (conditionTable_row 4 off rfl) rfl rfl rfl rfl
  | blt off => exact branchOp_to _ .lt off s t h (conditionTable_row 5 off rfl) rfl rfl rfl rfl
  | bhi off => exact branchOp_to _ .hi off s t h (conditionTable_row 6 off rfl) rfl rfl rfl rfl
  | bls off => exact branchOp_to _ .ls off s t h (conditionTable_row 7 off rfl) rfl rfl rfl rfl
  | bcc off => exact branchOp_to _ .cc off s t h (conditionTable_row 8 off rfl) rfl rfl rfl rfl
  | bcs off => exact branchOp_to _ .cs off s t h (conditionTable_row 9 off rfl) rfl rfl rfl rfl
  | bpl off => exact branchOp_to _ .pl off s t h (conditionTable_row 10 off rfl) rfl rfl rfl rfl
  | bmi off => exact branchOp_to _ .mi off s t h (conditionTable_row 11 off rfl) rfl rfl rfl rfl
  | bne off => exact branchOp_to _ .ne off s t h (conditionTable_row 12 off rfl) rfl rfl rfl rfl
  | beq off => exact branchOp_to _ .eq off s t h (conditionTable_row 13 off rfl) rfl rfl rfl rfl
  | bvc off => exact branchOp_to _ .vc off s t h (conditionTable_row 14 off rfl) rfl rfl rfl rfl
  | bvs off => exact branchOp_to _ .vs off s t h (conditionTable_row 15 off rfl) rfl rfl rfl rfl
  | bccIllegal cond off => cases h; exact .illegal cond off
  | bsr link off =>
    have h' : (Host.Outcome.next ((s.writeLink link).transfer (s.branchTarget off)) : Result) = .next t := h
    rw [branchTarget_eq_relativeTarget] at h'
    cases h'
    exact .bsr link off
  | lea f =>
    unfold exec execLea at h
    exact leaOp_to _ 4 f s t h rfl rfl rfl rfl rfl rfl
  | leas f =>
    unfold exec execLeas at h
    exact leaOp_to _ 2 f s t h rfl rfl rfl rfl rfl rfl
  | subr f =>
    unfold exec execSubr at h
    exact addSubOp_to _ _ f s t h rfl rfl rfl rfl rfl rfl rfl
  | xor f =>
    unfold exec execXor at h
    exact logicOp_to _ _ f s t h rfl rfl rfl rfl rfl rfl
  | xorn f =>
    unfold exec execXorn at h
    exact logicOp_to _ _ f s t h rfl rfl rfl rfl rfl rfl
  | add f =>
    unfold exec execAdd at h
    exact addSubOp_to _ _ f s t h rfl rfl rfl rfl rfl rfl rfl
  | sub f =>
    unfold exec execSub at h
    exact addSubOp_to _ _ f s t h rfl rfl rfl rfl rfl rfl rfl
  | addc f =>
    unfold exec execAddc at h
    exact addSubOp_to _ _ f s t h rfl rfl rfl rfl rfl rfl rfl
  | subc f =>
    unfold exec execSubc at h
    exact addSubOp_to _ _ f s t h rfl rfl rfl rfl rfl rfl rfl
  | and f =>
    unfold exec execAnd at h
    exact logicOp_to _ _ f s t h rfl rfl rfl rfl rfl rfl
  | andn f =>
    unfold exec execAndn at h
    exact logicOp_to _ _ f s t h rfl rfl rfl rfl rfl rfl
  | or f =>
    unfold exec execOr at h
    exact logicOp_to _ _ f s t h rfl rfl rfl rfl rfl rfl
  | orn f =>
    unfold exec execOrn at h
    exact logicOp_to _ _ f s t h rfl rfl rfl rfl rfl rfl
  | ld f =>
    unfold exec execLd at h
    exact loadOp_to _ 4 _ f s t h rfl rfl rfl rfl rfl rfl
  | ldh f =>
    unfold exec execLdh at h
    exact loadOp_to _ 2 _ f s t h rfl rfl rfl rfl rfl rfl
  | lduh f =>
    unfold exec execLduh at h
    exact loadOp_to _ 2 _ f s t h rfl rfl rfl rfl rfl rfl
  | sth f =>
    unfold exec execSth at h
    exact storeOp_to _ 2 f s t h (by decide) rfl rfl rfl rfl rfl rfl
  | st f =>
    unfold exec execSt at h
    exact storeOp_to _ 4 f s t h (by decide) rfl rfl rfl rfl rfl rfl
  | ldb f =>
    unfold exec execLdb at h
    exact loadOp_to _ 1 _ f s t h rfl rfl rfl rfl rfl rfl
  | ldub f =>
    unfold exec execLdub at h
    exact loadOp_to _ 1 _ f s t h rfl rfl rfl rfl rfl rfl
  | stb f =>
    unfold exec execStb at h
    exact storeOp_to _ 1 f s t h (by decide) rfl rfl rfl rfl rfl rfl
  | ashr f =>
    unfold exec execAshr at h
    exact logicOp_to _ _ f s t h rfl rfl rfl rfl rfl rfl
  | lshr f =>
    unfold exec execLshr at h
    exact logicOp_to _ _ f s t h rfl rfl rfl rfl rfl rfl
  | ashl f =>
    unfold exec execAshl at h
    exact logicOp_to _ _ f s t h rfl rfl rfl rfl rfl rfl
  | rotl f =>
    unfold exec execRotl at h
    exact logicOp_to _ _ f s t h rfl rfl rfl rfl rfl rfl
  | op1C f => cases h; exact .refuse _ rfl rfl rfl
  | op1D f => cases h; exact .refuse _ rfl rfl rfl
  | jsr f =>
    rw [exec_jsr_eq] at h
    cases h
    exact guardReads_to _ rfl rfl (.jsr f)
  | trap f =>
    have h' : execTrap f s = .next t := h
    unfold execTrap at h'
    split at h'
    · cases h'
    · cases h'
      exact .trap f

/-! ### Traps -/

/-- The state of a TRAP after its entry: halted outside its envelope or at a register it may not read, else what the host
makes of it (R212, R213, R35). -/
theorem afterTrap_cases (e : State) (f : RegForm) :
    e.afterTrap f = e.fatal .illegalOpcode ∨
      (e.canRead (trapSources f.src2) = false ∧ e.afterTrap f = e.fatal .unwrittenRegister) ∨
      ∃ num, e.canRead (trapSources f.src2) = true ∧ e.syscallNumber f.src2 = some num ∧
        e.afterTrap f = e.callHost num := by
  unfold State.afterTrap
  split
  · exact .inl rfl
  · rcases e.guardReads_cases (trapSources f.src2) (e.resolveTrap f.src2) with ⟨hr, h⟩ | ⟨hr, h⟩
    · rw [h]
      unfold State.resolveTrap
      split
      · exact .inl rfl
      · next num hnum => exact .inr (.inr ⟨num, hr, hnum, rfl⟩)
    · exact .inr (.inl ⟨hr, h⟩)

/-- What a call of the host ends in: refused, exited, halted at an argument it may not read, or answered and moved on (R245,
R35). -/
theorem callHost_cases (e : State) (num : Word) :
    (Config.serviceOf e.config num = none ∧ e.callHost num = e.refuse) ∨
    (Config.serviceOf e.config num = some .exit ∧ e.callHost num = e.exit.countCall) ∨
    ∃ svc, svc ≠ .exit ∧ Config.serviceOf e.config num = some svc ∧
      ((e.canRead (Service.args svc) = false ∧ e.callHost num = e.fatal .unwrittenRegister) ∨
        (e.canRead (Service.args svc) = true ∧ e.callHost num = (e.hostAnswer svc).countCall.advance)) := by
  cases hsvc : Config.serviceOf e.config num with
  | none => exact .inl ⟨rfl, by simp [State.callHost, hsvc]⟩
  | some svc =>
    by_cases hx : svc = .exit
    · subst hx
      exact .inr (.inl ⟨rfl, by simp [State.callHost, hsvc]⟩)
    · have hcall : e.callHost num = e.guardReads (Service.args svc) (e.hostAnswer svc).countCall.advance := by
        cases svc <;> simp_all [State.callHost]
      refine .inr (.inr ⟨svc, hx, rfl, ?_⟩)
      rw [hcall]
      rcases e.guardReads_cases (Service.args svc) (e.hostAnswer svc).countCall.advance with h | h
      · exact .inr h
      · exact .inl h

/-- A host's answer changes r1 and bytes of memory, nothing else (R245). -/
theorem hostAnswer_eq (e : State) (svc : Service) :
    ∃ (a : Nat) (bytes : List Byte) (v : Word),
      e.hostAnswer svc = ({ e with mem := Memory.writeBytes e.mem a bytes } : State).setReg 1 v ∧
      (bytes = [] ∨ a + bytes.length ≤ e.memTop) ∧
      (e.badDescriptor svc = true → v = 0xFFFFFFFF) ∧
      (bytes = [] ∨
        (e.badDescriptor svc = true ∧ ∃ cell, e.config.errnoCell = some cell ∧ a = cell.toNat ∧ bytes.length = 4) ∨
        (e.badDescriptor svc = false ∧ svc = .fgets ∧ a = (e.reg 1).toNat ∧ bytes.length ≤ (e.reg 2).toNat)) := by
  unfold State.hostAnswer
  split
  · next hbad =>
    unfold State.writeErrno
    cases hcell : e.config.errnoCell with
    | none => exact ⟨0, [], _, rfl, .inl rfl, fun _ => rfl, .inl rfl⟩
    | some cell =>
      dsimp only
      split
      · next hin =>
        refine ⟨cell.toNat, bytesOf e.config.byteOrder 4 (Config.hostErrno e.hostCalls), _, rfl, .inr ?_, fun _ => rfl,
          .inr (.inl ⟨hbad, cell, rfl, rfl, bytesOf_length _ _ _⟩)⟩
        rw [bytesOf_length]
        exact hin
      · exact ⟨0, [], _, rfl, .inl rfl, fun _ => rfl, .inl rfl⟩
  · next hbad =>
    have hbad' : e.badDescriptor svc = false := by simpa using hbad
    split
    · exact ⟨0, [], _, rfl, .inl rfl, fun h => absurd h hbad, .inl rfl⟩
    · next hptr =>
      by_cases hsvc : svc = .fgets
      · subst hsvc
        have hp : (e.reg 1).toNat < e.memTop := by
          simpa [State.badPointer] using hptr
        have hlen : e.fgetsBytes.length ≤ min (e.reg 2).toNat (e.memTop - (e.reg 1).toNat) := by
          unfold State.fgetsBytes
          exact List.length_take_le _ _
        refine ⟨(e.reg 1).toNat, e.fgetsBytes, _, rfl, .inr ?_, fun h => absurd h hbad,
          .inr (.inr ⟨hbad', rfl, rfl, ?_⟩)⟩
        · omega
        · omega
      · exact ⟨0, [], Config.hostResult e.hostCalls, by simp [hsvc, Memory.writeBytes], .inl rfl,
          fun h => absurd h hbad, .inl rfl⟩

/-- What no outcome of a TRAP changes after its entry: the status register, the configuration, the error log and register
0. -/
theorem afterTrap_frame (e : State) (f : RegForm) :
    (e.afterTrap f).sr = e.sr ∧ (e.afterTrap f).config = e.config ∧ (e.afterTrap f).memErrLog = e.memErrLog ∧
      (e.afterTrap f).reg 0 = e.reg 0 := by
  rcases afterTrap_cases e f with he | ⟨-, he⟩ | ⟨num, -, -, he⟩ <;> rw [he]
  · exact ⟨rfl, rfl, rfl, rfl⟩
  · exact ⟨rfl, rfl, rfl, rfl⟩
  · rcases callHost_cases e num with ⟨-, h⟩ | ⟨-, h⟩ | ⟨svc, -, -, ⟨-, h⟩ | ⟨-, h⟩⟩ <;> rw [h]
    · exact ⟨rfl, rfl, rfl, rfl⟩
    · exact ⟨rfl, rfl, rfl, rfl⟩
    · exact ⟨rfl, rfl, rfl, rfl⟩
    · obtain ⟨a, bytes, v, ha, -, -, -⟩ := hostAnswer_eq e svc
      rw [ha]
      exact ⟨rfl, rfl, rfl, State.setReg_reg_zero _ 1 v⟩

/-- The number a TRAP resolves is not touched by its entry, which writes r30 and r31 only (R212). -/
theorem trapEntry_syscallNumber (s : State) (src2 : Operand2) :
    s.trapEntry.syscallNumber src2 = s.syscallNumber src2 := by
  unfold State.syscallNumber
  cases src2 with
  | imm v => rfl
  | reg r =>
    dsimp only
    by_cases h : r.val ≤ 5
    · rw [s.trapEntry_reg_low r (by omega)]
    · rw [if_neg (by omega), if_neg (by omega)]

/-- Nor does it change whether registers below 30 can be read (R35). -/
theorem trapEntry_canRead (s : State) (rs : List Reg) (h : ∀ r ∈ rs, r.val < 30) :
    s.trapEntry.canRead rs = s.canRead rs := by
  unfold State.canRead
  rw [Bool.eq_iff_iff, List.all_eq_true, List.all_eq_true]
  exact forall₂_congr fun r hr => by rw [s.trapEntry_readable r (h r hr)]

/-- A state with a trap entry's status register and registers, r1 apart, holds what a trap saves (R211). -/
theorem trapSaved_of_entry (s t : State) (hsr : t.sr = s.trapEntry.sr) (hreg : ∀ r, r ≠ 1 → t.reg r = s.trapEntry.reg r)
    (hw : ∀ r, r ≠ 1 → t.hasWritten r = s.trapEntry.hasWritten r) : s.TrapSaved t := by
  refine ⟨?_, ?_, ?_, ?_⟩
  · rw [hsr, State.trapEntry_sr]
    unfold State.trapSr
    cases s.config.trapClearsIe <;> simp
  · rw [hreg 30 (by decide), hreg 31 (by decide), State.trapEntry_reg, State.trapEntry_reg]
    unfold State.trapSlots
    cases s.config.trapSave <;> exact ⟨rfl, rfl⟩
  · intro r h1 h30 h31
    rw [hreg r h1, State.trapEntry_reg, if_neg h30, if_neg h31]
  · intro r h1
    rw [hw r h1, State.trapEntry_hasWritten]

/-- A trap that halts right after its entry holds what a trap saves, and r1 is as before (R211, R232). -/
theorem trapSaved_fatal (s : State) (reason : HaltReason) :
    s.TrapSaved (s.trapEntry.fatal reason) ∧ s.SameR1 (s.trapEntry.fatal reason) :=
  ⟨trapSaved_of_entry s _ rfl (fun _ _ => rfl) fun _ _ => rfl,
    ⟨s.trapEntry_reg_low 1 (by decide), by rw [State.fatal_hasWritten, State.trapEntry_hasWritten]; simp⟩⟩

/-- A call of the host halts at an argument it may not read, and in no other way (R245, R35). -/
theorem callHost_halts (e : State) (num : Word) (reason : HaltReason) (hr : e.runState = .running)
    (h : (e.callHost num).runState = .halted reason) :
    reason = .unwrittenRegister ∧ e.config.resetRegs = .unwritten ∧ e.callHost num = e.fatal .unwrittenRegister := by
  rcases callHost_cases e num with ⟨-, h2⟩ | ⟨-, h2⟩ | ⟨svc, -, -, ⟨hread, h2⟩ | ⟨-, h2⟩⟩ <;> rw [h2] at h
  · rw [State.refuse_runState, hr] at h
    cases h
  · cases h
  · cases h
    exact ⟨rfl, ((e.canRead_eq_false_iff _).mp hread).1, h2⟩
  · obtain ⟨a, bytes, v, ha, -, -, -⟩ := hostAnswer_eq e svc
    rw [ha] at h
    have h' : e.runState = .halted reason := h
    rw [hr] at h'
    cases h'

/-- A TRAP that halts does so where its entry left it, outside its envelope or at a register it may not read (R212, R213,
R35). -/
theorem afterTrap_halts (e : State) (f : RegForm) (reason : HaltReason) (hr : e.runState = .running)
    (h : (e.afterTrap f).runState = .halted reason) :
    (reason = .illegalOpcode ∨ reason = .unwrittenRegister ∧ e.config.resetRegs = .unwritten) ∧
      e.afterTrap f = e.fatal reason := by
  rcases afterTrap_cases e f with he | ⟨hread, he⟩ | ⟨num, -, -, he⟩
  · rw [he] at h
    cases h
    exact ⟨.inl rfl, he⟩
  · rw [he] at h
    cases h
    exact ⟨.inr ⟨rfl, ((e.canRead_eq_false_iff _).mp hread).1⟩, he⟩
  · rw [he] at h
    obtain ⟨rfl, hu, hc⟩ := callHost_halts e num reason hr h
    exact ⟨.inr ⟨rfl, hu⟩, he.trans hc⟩

/-! ### The step -/

/-- Every next state of a step: the step was enabled, and either a fetch check failed or the decoded instruction ran (R180,
R81, R82). -/
theorem step_next (s t : State) (h : step s = .next t) :
    s.enabled ∧ ((s.memTop < s.pc0.toNat + 4 ∧ t = s.fatal .fetchOutOfRange) ∨
      (s.pc0.toNat + 4 ≤ s.memTop ∧ s.fetchMisaligned = true ∧ t = s.fatal .misalignedFetch) ∨
      (s.pc0.toNat + 4 ≤ s.memTop ∧ s.fetchMisaligned = false ∧ exec (decodeWord s.fetchWord) s = .next t)) := by
  unfold step at h
  cases hr : s.runState with
  | halted r => rw [hr] at h; cases h
  | exited c => rw [hr] at h; cases h
  | running =>
    rw [hr] at h
    dsimp only at h
    split at h
    · cases h
    · next href =>
      refine ⟨⟨hr, by simpa using href⟩, ?_⟩
      split at h
      · next hf =>
        cases h
        exact .inl ⟨by simpa [State.fetchFails] using hf, rfl⟩
      · next hf =>
        have hin : s.pc0.toNat + 4 ≤ s.memTop := by simpa [State.fetchFails] using hf
        split at h
        · next hm =>
          cases h
          exact .inr (.inl ⟨hin, hm, rfl⟩)
        · next hm => exact .inr (.inr ⟨hin, by simpa using hm, h⟩)

/-- While enabled, with the fetch in range and its alignment allowed, a step is its instruction's meaning (R180). -/
theorem step_eq_exec (s : State) (he : s.enabled) (hin : s.pc0.toNat + 4 ≤ s.memTop)
    (hal : s.config.misalignedFetch = .bytes ∨ s.pc0.toNat % 4 = 0) : step s = exec (decodeWord s.fetchWord) s := by
  have h1 : s.fetchFails = false := by simpa [State.fetchFails] using hin
  have h2 : s.fetchMisaligned = false := by
    rcases hal with h | h
    · simp [State.fetchMisaligned, h]
    · simp [State.fetchMisaligned, h]
  simp only [step, he.1, he.2, h1, h2]
  rfl

end Sys2Proof.Machine
end

