-- ==== Sys2Proof/Tests/Slice0.lean ====
section
/-! SUPPORT. Tests on fixed values. Every expected value comes from the spec: from the test vectors of 95_test_vectors.md,
whose row is named in each test's comment, or from the bit layouts of 30_encoding.md. Then one witness for every statement
that has hypotheses: a state and operands that meet them, at boundary values. -/

namespace Sys2Proof.Tests

open Sys2Proof.Machine

/-! ### Helpers -/

/-- The configuration of the spec's vectors: `memLen = 0x100`, `stackSize = 0x100`, a TRAP limit that no word exceeds. -/
def vectorConfig : Config :=
  { defaultConfig with
    memLen := 0x100
    stackSize := 0x100
    errnoCell := none
    trapWordLimit := 0xFFFFFFFF
    services := [(2, .fflush), (3, .fputc), (4, .fgetc), (5, .fgets), (6, .fputs)] }

/-- A machine at `pc` with some registers, the status bits `PIE IE N Z V C`, and some bytes. -/
def machine (pc : Word) (regs : List (Reg × Word)) (sr : BitVec 6) (bytes : List (Nat × List Byte)) : State :=
  regs.foldl (fun s r => s.setReg r.1 r.2)
    { State.reset with
      pc0 := pc
      pc1 := pc + 4
      pc2 := pc + 8
      sr := StatusReg.ofBits sr
      mem := bytes.foldl (fun m b => Memory.writeBytes m b.1 b.2) []
      config := vectorConfig }

/-- One step with the word `w` in memory at `PC0`. -/
def runWord (w : Word) (s : State) : Result := step (s.memWrite s.pc0 4 w)

/-- The outcome is a next state of which `p` holds. -/
def leaves (o : Result) (p : State → Bool) : Bool :=
  match o with
  | .next t => p t
  | _ => false

/-- The same machine under the `fault` settings of R6's parameters: `RESET_REGS = unwritten`, `MISALIGNED_DATA` and
`MISALIGNED_FETCH = fault`. -/
def strict (s : State) : State :=
  { s with config := { s.config with resetRegs := .unwritten, misalignedData := .fault, misalignedFetch := .fault } }

/-- Register `r` holds `v` and the status bits are `sr`, after a plain advance. -/
def holds (r : Reg) (v : Word) (sr : BitVec 6) (t : State) : Bool :=
  t.reg r == v && t.sr.toBits == sr && t.pc0 == 4 && t.pc1 == 8 && t.pc2 == 12

/-- The four bytes of memory at `a`. -/
def bytesAt (a : Nat) (t : State) : List Byte := Memory.readBytes t.mem a 4

/-- The bytes `88 99 AA FB` at 0x40 that the load vectors use. -/
def loadBytes : List (Nat × List Byte) := [(0x40, [0x88, 0x99, 0xAA, 0xFB])]

/-- The word decodes to the instruction, and the instruction is encoded as the word. -/
abbrev reads (w : Word) (i : Instr) : Prop := decodeWord w = i ∧ encode i = w

/-! ### Well-formedness: one ill-formed term for each check -/

/-- R86, R87: 0xFFE0 and 0xFFFF name registers, so no immediate has these values. -/
theorem test_wf_refuses_register_field_as_immediate :
    Instr.wf (.add ⟨3, true, 1, .imm 0xFFE0⟩) = false ∧ Instr.wf (.trap ⟨3, true, 1, .imm 0xFFFF⟩) = false := by decide

/-- R184: conditions 0 to 15 are legal. -/
theorem test_wf_refuses_legal_condition_as_illegal :
    Instr.wf (.bccIllegal 15 0) = false ∧ Instr.wf (.bccIllegal 16 0) = true := by decide

/-! ### Decoding and encoding: a word written out from 30_encoding.md for every constructor -/

/-- R83, R89: the add/sub, logical and shift rows. -/
theorem test_decode_alu :
    reads 0b00101_00011_1_00001_1111111111100010#32 (.subr ⟨3, true, 1, .reg 2⟩) ∧
    reads 0b00110_10100_0_11101_0111111111111111#32 (.xor ⟨20, false, 29, .imm 0x7FFF⟩) ∧
    reads 0b00111_11111_1_00000_1111111111011111#32 (.xorn ⟨31, true, 0, .imm 0xFFDF⟩) ∧
    reads 0b01000_00000_0_11100_1111111111111111#32 (.add ⟨0, false, 28, .reg 31⟩) ∧
    reads 0b01001_00011_1_00001_1111111111100010#32 (.sub ⟨3, true, 1, .reg 2⟩) ∧
    reads 0b01010_10100_0_11101_0111111111111111#32 (.addc ⟨20, false, 29, .imm 0x7FFF⟩) ∧
    reads 0b01011_11111_1_00000_1111111111011111#32 (.subc ⟨31, true, 0, .imm 0xFFDF⟩) ∧
    reads 0b01100_00000_0_11100_1111111111111111#32 (.and ⟨0, false, 28, .reg 31⟩) ∧
    reads 0b01101_00011_1_00001_1111111111100010#32 (.andn ⟨3, true, 1, .reg 2⟩) ∧
    reads 0b01110_10100_0_11101_0111111111111111#32 (.or ⟨20, false, 29, .imm 0x7FFF⟩) ∧
    reads 0b01111_11111_1_00000_1111111111011111#32 (.orn ⟨31, true, 0, .imm 0xFFDF⟩) ∧
    reads 0b11000_00000_0_11100_1111111111111111#32 (.ashr ⟨0, false, 28, .reg 31⟩) ∧
    reads 0b11001_00011_1_00001_1111111111100010#32 (.lshr ⟨3, true, 1, .reg 2⟩) ∧
    reads 0b11010_10100_0_11101_0111111111111111#32 (.ashl ⟨20, false, 29, .imm 0x7FFF⟩) ∧
    reads 0b11011_11111_1_00000_1111111111011111#32 (.rotl ⟨31, true, 0, .imm 0xFFDF⟩) := by decide

/-- R83, R89: the load, store and address rows. -/
theorem test_decode_memory :
    reads 0b00011_10100_0_11101_0111111111111111#32 (.lea ⟨20, false, 29, .imm 0x7FFF⟩) ∧
    reads 0b00100_11111_1_00000_1111111111011111#32 (.leas ⟨31, true, 0, .imm 0xFFDF⟩) ∧
    reads 0b10000_00000_0_11100_1111111111111111#32 (.ld ⟨0, false, 28, .reg 31⟩) ∧
    reads 0b10001_00011_1_00001_1111111111100010#32 (.ldh ⟨3, true, 1, .reg 2⟩) ∧
    reads 0b10010_10100_0_11101_0111111111111111#32 (.lduh ⟨20, false, 29, .imm 0x7FFF⟩) ∧
    reads 0b10011_11111_1_00000_1111111111011111#32 (.sth ⟨31, true, 0, .imm 0xFFDF⟩) ∧
    reads 0b10100_00000_0_11100_1111111111111111#32 (.st ⟨0, false, 28, .reg 31⟩) ∧
    reads 0b10101_00011_1_00001_1111111111100010#32 (.ldb ⟨3, true, 1, .reg 2⟩) ∧
    reads 0b10110_10100_0_11101_0111111111111111#32 (.ldub ⟨20, false, 29, .imm 0x7FFF⟩) ∧
    reads 0b10111_11111_1_00000_1111111111011111#32 (.stb ⟨31, true, 0, .imm 0xFFDF⟩) := by decide

/-- R83, R84, R89: the trap, call and undescribed rows. -/
theorem test_decode_control :
    reads 0b00000_11111_1_00000_1111111111011111#32 (.trap0 ⟨31, true, 0, .imm 0xFFDF⟩) ∧
    reads 0b11100_00000_0_11100_1111111111111111#32 (.op1C ⟨0, false, 28, .reg 31⟩) ∧
    reads 0b11101_00011_1_00001_1111111111100010#32 (.op1D ⟨3, true, 1, .reg 2⟩) ∧
    reads 0b11110_10100_0_11101_0111111111111111#32 (.jsr ⟨20, false, 29, .imm 0x7FFF⟩) ∧
    reads 0b11111_11111_1_00000_1111111111011111#32 (.trap ⟨31, true, 0, .imm 0xFFDF⟩) ∧
    reads 0b00010_11100_1111111111111111111110#32 (.bsr 28 0x3FFFFE) := by decide

/-- R84, R185: the conditional branches, whose condition is bits 26 to 22, and the illegal conditions. -/
theorem test_decode_branches :
    reads 0b00001_00000_0000000000000000000100#32 (.bsp 4) ∧
    reads 0b00001_00001_1111111111111111111110#32 (.bmz 0x3FFFFE) ∧
    reads 0b00001_00010_1000000000000000000000#32 (.bgt 0x200000) ∧
    reads 0b00001_00011_0111111111111111111111#32 (.ble 0x1FFFFF) ∧
    reads 0b00001_00100_0000000000000000000100#32 (.bge 4) ∧
    reads 0b00001_00101_1111111111111111111110#32 (.blt 0x3FFFFE) ∧
    reads 0b00001_00110_1000000000000000000000#32 (.bhi 0x200000) ∧
    reads 0b00001_00111_0111111111111111111111#32 (.bls 0x1FFFFF) ∧
    reads 0b00001_01000_0000000000000000000100#32 (.bcc 4) ∧
    reads 0b00001_01001_1111111111111111111110#32 (.bcs 0x3FFFFE) ∧
    reads 0b00001_01010_1000000000000000000000#32 (.bpl 0x200000) ∧
    reads 0b00001_01011_0111111111111111111111#32 (.bmi 0x1FFFFF) ∧
    reads 0b00001_01100_0000000000000000000100#32 (.bne 4) ∧
    reads 0b00001_01101_1111111111111111111110#32 (.beq 0x3FFFFE) ∧
    reads 0b00001_01110_1000000000000000000000#32 (.bvc 0x200000) ∧
    reads 0b00001_01111_0111111111111111111111#32 (.bvs 0x1FFFFF) ∧
    reads 0b00001_10000_0000000000000000000100#32 (.bccIllegal 16 4) ∧
    reads 0b00001_11111_1111111111111111111111#32 (.bccIllegal 31 0x3FFFFF) := by decide

/-- R55, R85: bytes are joined lowest address first, and fewer than four are rejected by name. -/
theorem test_decode_bytes :
    decodeBytes .little [0xE2, 0xFF, 0xE1, 0x40, 0x07] = .ok (.add ⟨3, true, 1, .reg 2⟩, [0x07]) ∧
    decodeBytes .big [0x40, 0xE1, 0xFF, 0xE2] = .ok (.add ⟨3, true, 1, .reg 2⟩, []) ∧
    decodeBytes .little [0xE2, 0xFF, 0xE1] = .error .truncated := by decide

/-! ### One step of each instruction: ALU (95_test_vectors.md sections 2.2 to 2.4) -/

/-- Vector A3 (R120). -/
theorem test_add_carry_and_overflow :
    leaves (runWord 0x40E1FFE2 (machine 0 [(1, 0x80000000), (2, 0x80000000)] 0b000000 []))
      (holds 3 0 0b000111) = true := by
  decide

/-- Vector A6 (R120). -/
theorem test_add_without_status :
    leaves (runWord 0x40C17FFF (machine 0 [(1, 0x12345678)] 0b001111 []))
      (holds 3 0x1234D677 0b001111) = true := by
  decide

/-- Vector A9 (R121). -/
theorem test_sub_borrow :
    leaves (runWord 0x48E1FFE2 (machine 0 [(1, 3), (2, 5)] 0b000000 []))
      (holds 3 0xFFFFFFFE 0b001000) = true := by
  decide

/-- Vector A12 (R121). -/
theorem test_sub_overflow :
    leaves (runWord 0x48E1FFE2 (machine 0 [(1, 0x80000000), (2, 1)] 0b000000 []))
      (holds 3 0x7FFFFFFF 0b000011) = true := by
  decide

/-- Vector A14 (R122). -/
theorem test_addc_carry_through :
    leaves (runWord 0x50E1FFE2 (machine 0 [(1, 0xFFFFFFFF), (2, 0)] 0b000001 []))
      (holds 3 0 0b000101) = true := by
  decide

/-- Vector A16 (R122). -/
theorem test_addc_overflow :
    leaves (runWord 0x50E1FFE2 (machine 0 [(1, 0x7FFFFFFF), (2, 0)] 0b000001 []))
      (holds 3 0x80000000 0b001010) = true := by
  decide

/-- Vector A18 (R123). -/
theorem test_subc_borrow_in :
    leaves (runWord 0x58E1FFE2 (machine 0 [(1, 5), (2, 3)] 0b000000 []))
      (holds 3 1 0b000001) = true := by
  decide

/-- Vector A19 (R123). -/
theorem test_subc_wraps :
    leaves (runWord 0x58E1FFE2 (machine 0 [(1, 0), (2, 0)] 0b000000 []))
      (holds 3 0xFFFFFFFF 0b001000) = true := by
  decide

/-- Vector A20 (R124). -/
theorem test_subr_order :
    leaves (runWord 0x28E1FFE2 (machine 0 [(1, 3), (2, 10)] 0b000000 []))
      (holds 3 7 0b000001) = true := by
  decide

/-- Vector A21 (R124). -/
theorem test_subr_borrow :
    leaves (runWord 0x28E1FFE2 (machine 0 [(1, 10), (2, 3)] 0b000000 []))
      (holds 3 0xFFFFFFF9 0b001000) = true := by
  decide

/-- Vector L1 (R126). -/
theorem test_and :
    leaves (runWord 0x60E1FFE2 (machine 0 [(1, 0xF0F0F0F0), (2, 0xFF00FF00)] 0b000011 []))
      (holds 3 0xF000F000 0b001011) = true := by
  decide

/-- Vector L2 (R127). -/
theorem test_andn :
    leaves (runWord 0x68E1FFE2 (machine 0 [(1, 0xF0F0F0F0), (2, 0xFF00FF00)] 0b000011 []))
      (holds 3 0x00F000F0 0b000011) = true := by
  decide

/-- Vector L13 (R128). -/
theorem test_or_sign_extended_immediate :
    leaves (runWord 0x70E1FFDF (machine 0 [(1, 0)] 0b000000 []))
      (holds 3 0xFFFFFFDF 0b001000) = true := by
  decide

/-- Vector L4 (R129). -/
theorem test_orn :
    leaves (runWord 0x78E1FFE2 (machine 0 [(1, 0xF0F0F0F0), (2, 0xFF00FF00)] 0b000011 []))
      (holds 3 0xF0FFF0FF 0b001011) = true := by
  decide

/-- Vector L5 (R130). -/
theorem test_xor :
    leaves (runWord 0x30E1FFE2 (machine 0 [(1, 0xF0F0F0F0), (2, 0xFF00FF00)] 0b000011 []))
      (holds 3 0x0FF00FF0 0b000011) = true := by
  decide

/-- Vector L6 (R131). -/
theorem test_xorn :
    leaves (runWord 0x38E1FFE2 (machine 0 [(1, 0xF0F0F0F0), (2, 0xFF00FF00)] 0b000011 []))
      (holds 3 0xF00FF00F 0b001011) = true := by
  decide

/-- Vector S4 (R140). -/
theorem test_ashr_31 :
    leaves (runWord 0xC0E1001F (machine 0 [(1, 0x80000001)] 0b000011 []))
      (holds 3 0xFFFFFFFF 0b001011) = true := by
  decide

/-- Vector S7 (R136, R137). -/
theorem test_ashr_large :
    leaves (runWord 0xC0E1FFE2 (machine 0 [(1, 0x80000001), (2, 0xFFFFFFFF)] 0b000000 []))
      (holds 3 0xFFFFFFFF 0b001000) = true := by
  decide

/-- Vector S11 (R141). -/
theorem test_lshr_31 :
    leaves (runWord 0xC8E1001F (machine 0 [(1, 0x80000001)] 0b000011 []))
      (holds 3 1 0b000011) = true := by
  decide

/-- Vector S12 (R137). -/
theorem test_lshr_32 :
    leaves (runWord 0xC8E10020 (machine 0 [(1, 0x80000001)] 0b000011 []))
      (holds 3 0 0b000111) = true := by
  decide

/-- Vector S17 (R142). -/
theorem test_ashl_4 :
    leaves (runWord 0xD0E10004 (machine 0 [(1, 0x80000001)] 0b000011 []))
      (holds 3 0x10 0b000011) = true := by
  decide

/-- Vector S19 (R137). -/
theorem test_ashl_32 :
    leaves (runWord 0xD0E10020 (machine 0 [(1, 0x80000001)] 0b000011 []))
      (holds 3 0 0b000111) = true := by
  decide

/-- Vector S24 (R143). -/
theorem test_rotl_4 :
    leaves (runWord 0xD8E10004 (machine 0 [(1, 0x80000001)] 0b000011 []))
      (holds 3 0x18 0b000011) = true := by
  decide

/-- Vector S28 (R136, R137). -/
theorem test_rotl_large :
    leaves (runWord 0xD8E1FFE2 (machine 0 [(1, 0x80000001), (2, 0xFFFFFFFF)] 0b000000 []))
      (holds 3 0xC0000000 0b001000) = true := by
  decide

/-! ### Loads, stores and address arithmetic (section 2.5) -/

/-- Vector M2 (R155, R58). -/
theorem test_ld_scaled :
    leaves (runWord 0x80E10001 (machine 0 [(1, 0x3C)] 0 loadBytes))
      (fun t => holds 3 0xFBAA9988 0b001000 t && t.memErrLog == []) = true := by
  decide

/-- Vector M10 (R57). -/
theorem test_ld_misaligned :
    leaves (runWord 0x80E10000 (machine 0 [(1, 0x41)] 0 loadBytes))
      (fun t => holds 3 0x00FBAA99 0b000000 t && t.memErrLog == []) = true := by
  decide

/-- Vector M4 (R156). -/
theorem test_ldh_sign :
    leaves (runWord 0x88E10001 (machine 0 [(1, 0x40)] 0 loadBytes))
      (fun t => holds 3 0xFFFFFBAA 0b001000 t && t.memErrLog == []) = true := by
  decide

/-- Vector M14 (R60, R64). -/
theorem test_ldh_straddles_memTop :
    leaves (runWord 0x88E10000 (machine 0 [(1, 0x1FF)] 0 loadBytes))
      (fun t => holds 3 0 0b000100 t && t.memErrLog == [⟨.outOfRange, 0, 0x1FF⟩]) = true := by
  decide

/-- Vector M5 (R157). -/
theorem test_lduh_flags_at_halfword :
    leaves (runWord 0x90E10001 (machine 0 [(1, 0x40)] 0 loadBytes))
      (fun t => holds 3 0xFBAA 0b001000 t && t.memErrLog == []) = true := by
  decide

/-- Vector M7 (R158). -/
theorem test_ldb_sign :
    leaves (runWord 0xA8E10003 (machine 0 [(1, 0x40)] 0 loadBytes))
      (fun t => holds 3 0xFFFFFFFB 0b001000 t && t.memErrLog == []) = true := by
  decide

/-- Vector M16 (R61, R64). -/
theorem test_ldb_stack_underflow :
    leaves (runWord 0xA8FDFFBF (machine 0 [(29, 0x140)] 0 loadBytes))
      (fun t => holds 3 0 0b000100 t && t.memErrLog == [⟨.stackUnderflow, 0, 0xFF⟩]) = true := by
  decide

/-- Vector M8 (R159). -/
theorem test_ldub_flags_at_byte :
    leaves (runWord 0xB0E10001 (machine 0 [(1, 0x40)] 0 loadBytes))
      (fun t => holds 3 0x99 0b001000 t && t.memErrLog == []) = true := by
  decide

/-- Vector M20, with LDUB (R62). -/
theorem test_ldub_out_of_range_before_underflow :
    leaves (runWord 0xB0FDFFDF (machine 0 [(29, 0x10)] 0 loadBytes))
      (fun t => holds 3 0 0b000100 t && t.memErrLog == [⟨.outOfRange, 0, 0xFFFFFFEF⟩]) = true := by
  decide

/-- Vector M21 (R160, R55). -/
theorem test_st_bytes :
    leaves (runWord 0xA1210000 (machine 0 [(1, 0x80), (4, 0x11223344)] 0 []))
      (fun t => holds 4 0x11223344 0b000000 t && bytesAt 0x80 t == [0x44, 0x33, 0x22, 0x11] && t.memErrLog == []) = true := by
  decide

/-- Vector M25 (R160, R61). -/
theorem test_st_suppressed :
    leaves (runWord 0xA13DFFDF (machine 0 [(29, 0x180), (4, 0xCAFEF00D)] 0 []))
      (fun t => holds 4 0xCAFEF00D 0b001000 t && bytesAt 0xFC t == [0, 0, 0, 0] && t.memErrLog == [⟨.stackUnderflow, 0, 0xFC⟩]) = true := by
  decide

/-- Vector M22 (R161). -/
theorem test_sth_truncates :
    leaves (runWord 0x99210001 (machine 0 [(1, 0x80), (4, 0x11228344)] 0 []))
      (fun t => holds 4 0x11228344 0b001000 t && bytesAt 0x80 t == [0, 0, 0x44, 0x83] && t.memErrLog == []) = true := by
  decide

/-- Vector M23 (R162). -/
theorem test_stb_zero_byte :
    leaves (runWord 0xB9210002 (machine 0 [(1, 0x80), (4, 0x11223300)] 0 []))
      (fun t => holds 4 0x11223300 0b000100 t && bytesAt 0x80 t == [0, 0, 0, 0] && t.memErrLog == []) = true := by
  decide

/-- Vector M27 (R168). -/
theorem test_lea_wraps_unchecked :
    leaves (runWord 0x18E1FFDF (machine 0 [(1, 0)] 0 []))
      (fun t => holds 3 0xFFFFFF7C 0b001000 t && t.memErrLog == []) = true := by
  decide

/-- Vector M29 (R169). -/
theorem test_leas_flags_at_halfword :
    leaves (runWord 0x20E14000 (machine 0 [(1, 0x8000)] 0 []))
      (fun t => holds 3 0x00010000 0b000100 t && t.memErrLog == []) = true := by
  decide

/-! ### Control flow (sections 1, 2.6 and 2.7) -/

/-- The sixteen conditions in the order of their codes. -/
def conditions : List Cond :=
  [.sp, .mz, .gt, .le, .ge, .lt, .hi, .ls, .cc, .cs, .pl, .mi, .ne, .eq, .vc, .vs]

/-- Table SE2: for each `N Z V C`, from 0 to 15, which conditions are taken, condition 0 leftmost. -/
def tableSE2 : List (BitVec 16) :=
  [ 0b1010100110101010,
    0b1010101001101010,
    0b1001010110101001,
    0b1001011001101001,
    0b0101100110100110,
    0b0101100101100110,
    0b0101010110100101,
    0b0101010101100101,
    0b0101010110011010,
    0b0101011001011010,
    0b0110100110011001,
    0b0110101001011001,
    0b0101010110010110,
    0b0101010101010110,
    0b0101100110010101,
    0b0101100101010101 ]

/-- SE2 (R185): every condition under every combination of the flags. -/
theorem test_condition_table :
    (List.range 16).all (fun row => (List.range 16).all fun code =>
      (conditions[code]?.getD .sp).holds
          { c := row.testBit 0, v := row.testBit 1, z := row.testBit 2, n := row.testBit 3, ie := false, pie := false } ==
        (tableSE2[row]?.getD 0).getMsbD code) = true := by decide

/-- A branch of `+0x20` bytes at 0x10, run under the status bits `sr`: its delay slot comes next, and then `after`. -/
def branchRuns (i : Instr) (sr : BitVec 6) (after : Word) : Bool :=
  leaves (runWord (encode i) (machine 0x10 [] sr [])) fun t =>
    t.pc0 == 0x14 && t.pc1 == after && t.pc2 == after + 4 && t.sr.toBits == sr && t.runState == .running

/-- SE2, SE4 (R182, R186): each branch taken under one row of the table and not taken under another. -/
theorem test_branches_first :
    branchRuns (.bsp 8) 0 0x30 = true ∧ branchRuns (.bsp 8) 15 0x18 = true ∧
    branchRuns (.bmz 8) 4 0x30 = true ∧ branchRuns (.bmz 8) 3 0x18 = true ∧
    branchRuns (.bgt 8) 0 0x30 = true ∧ branchRuns (.bgt 8) 15 0x18 = true ∧
    branchRuns (.ble 8) 2 0x30 = true ∧ branchRuns (.ble 8) 11 0x18 = true ∧
    branchRuns (.bge 8) 0 0x30 = true ∧ branchRuns (.bge 8) 13 0x18 = true ∧
    branchRuns (.blt 8) 2 0x30 = true ∧ branchRuns (.blt 8) 15 0x18 = true ∧
    branchRuns (.bhi 8) 1 0x30 = true ∧ branchRuns (.bhi 8) 15 0x18 = true ∧
    branchRuns (.bls 8) 0 0x30 = true ∧ branchRuns (.bls 8) 11 0x18 = true := by decide

/-- SE2, SE4 (R182, R186): each branch taken under one row of the table and not taken under another. -/
theorem test_branches_second :
    branchRuns (.bcc 8) 0 0x30 = true ∧ branchRuns (.bcc 8) 15 0x18 = true ∧
    branchRuns (.bcs 8) 1 0x30 = true ∧ branchRuns (.bcs 8) 14 0x18 = true ∧
    branchRuns (.bpl 8) 0 0x30 = true ∧ branchRuns (.bpl 8) 15 0x18 = true ∧
    branchRuns (.bmi 8) 8 0x30 = true ∧ branchRuns (.bmi 8) 7 0x18 = true ∧
    branchRuns (.bne 8) 0 0x30 = true ∧ branchRuns (.bne 8) 15 0x18 = true ∧
    branchRuns (.beq 8) 4 0x30 = true ∧ branchRuns (.beq 8) 11 0x18 = true ∧
    branchRuns (.bvc 8) 0 0x30 = true ∧ branchRuns (.bvc 8) 15 0x18 = true ∧
    branchRuns (.bvs 8) 2 0x30 = true ∧ branchRuns (.bvs 8) 13 0x18 = true := by decide

/-- Vector B4 (R184). -/
theorem test_bcc_illegal :
    leaves (runWord 0x0C000004 (machine 0x10 [] 0 []))
      (fun t => t.runState == .halted .illegalBranchCond && t.pc0 == 0x10 && t.pc1 == 0x14) = true := by
  decide

/-- Vector B5 with `memLen = 0x100` (R187): a target of `memLen` halts. -/
theorem test_beq_to_memLen :
    leaves (runWord 0x0B40003C (machine 0x10 [] 0b000100 []))
      (fun t => t.runState == .halted .branchTargetOutOfRange && t.pc0 == 0x10) = true := by
  decide

/-- Vector B8 (R190, R191). -/
theorem test_bsr_links :
    leaves (runWord 0x17000004 (machine 4 [] 0 []))
      (fun t => t.reg 28 == 0xC && t.pc0 == 8 && t.pc1 == 0x14 && t.pc2 == 0x18) = true := by
  decide

/-- Vector B9 with `memLen = 0x100` (R190, D21). -/
theorem test_bsr_links_then_halts :
    leaves (runWord 0x1700003F (machine 4 [] 0 []))
      (fun t => t.reg 28 == 0xC && t.runState == .halted .branchTargetOutOfRange && t.pc0 == 4) = true := by
  decide

/-- Vector B14 (R196). -/
theorem test_jsr_restores_ie :
    leaves (runWord 0xF0210000 (machine 0 [(1, 0x10)] 0b100000 []))
      (fun t => t.pc0 == 4 && t.pc1 == 0x10 && t.sr.toBits == 0b110000 && t.reg 0 == 0) = true := by
  decide

/-- Vector B17 (R195). -/
theorem test_jsr_reads_base_first :
    leaves (runWord 0xF0410001 (machine 0 [(1, 0x10)] 0 []))
      (fun t => t.reg 1 == 8 && t.pc0 == 4 && t.pc1 == 0x14) = true := by
  decide

/-- Vector T8 (R210). -/
theorem test_trap0 :
    leaves (runWord 0x00000000 (machine 0x20 [] 0b010000 []))
      (fun t => t.reg 30 == 0x20 && t.reg 31 == 0x24 && t.sr.toBits == 0b110000 && t.runState == .halted .illegalOpcode && t.pc0 == 0x20) = true := by
  decide

/-- Vector T2 (R212, R245): EXIT, whatever its code. -/
theorem test_trap_exit :
    leaves (runWord 0xF800FFE1 (machine 0x18 [(1, 1)] 0b100000 []))
      (fun t => t.reg 30 == 0x18 && t.reg 31 == 0x1C && t.sr.toBits == 0 && t.runState != .running && t.pc0 == 0x18) = true := by
  decide

/-- Vector T7 (R213). -/
theorem test_trap_number_too_large :
    leaves (runWord 0xF8000100 (machine 0x18 [] 0 []))
      (fun t => t.reg 30 == 0x18 && t.reg 31 == 0x1C && t.runState == .halted .illegalOpcode && t.pc0 == 0x18) = true := by
  decide

/-- Vector T9 (R220). -/
theorem test_op1C_refused :
    leaves (runWord 0xE0000000 (machine 0 [] 0 []))
      (fun t => t.refused && t.runState == .running && t.pc0 == 0 && t.pc1 == 4) = true := by
  decide

/-- Vector D10 (R220). -/
theorem test_op1D_refused :
    leaves (runWord 0xE8000000 (machine 0 [] 0 []))
      (fun t => t.refused && t.runState == .running && t.pc0 == 0 && t.pc1 == 4) = true := by
  decide

/-- Vector T10 with `memTop = 0x200` (R81). -/
theorem test_fetch_out_of_range :
    leaves (step (machine 0x200 [] 0 [])) (fun t => t.runState == .halted .fetchOutOfRange && t.pc0 == 0x200) = true := by
  decide

/-- R260: a word loaded after reset is decoded and run by the next step (D1). -/
theorem test_withFetchWord :
    leaves (step (State.reset.withFetchWord 32 0x40E1FFE2)) (fun t => t.pc0 == 4 && t.sr.toBits == 0b000100) = true := by decide

/-- R35, D29, C7: under `unwritten`, `ADD r3, r1, r2` with r2 never written halts before it writes r3 or advances; r0 can
always be read, and a register once written too. -/
theorem test_unwritten_register_read :
    leaves (runWord 0x40E1FFE2 (strict (machine 0 [(1, 5)] 0 [])))
      (fun t => t.runState == .halted .unwrittenRegister && t.reg 3 == 0 && t.pc0 == 0) = true ∧
    leaves (runWord 0x40E1FFE0 (strict (machine 0 [(1, 5)] 0 []))) (holds 3 5 0) = true := by decide

/-- R57, I3: under `MISALIGNED_DATA = fault` the load of vector M10 is a memory error: 0 is loaded and the run goes on. -/
theorem test_misaligned_data_fault :
    leaves (runWord 0x80E10000 (strict (machine 0 [(1, 0x41)] 0 loadBytes)))
      (fun t => holds 3 0 0b000100 t && t.memErrLog == [⟨.misaligned, 0, 0x41⟩] && t.runState == .running) = true := by
  decide

/-- R82, I4: under `MISALIGNED_FETCH = fault` a fetch at 2 is a fatal condition. -/
theorem test_misaligned_fetch_fault :
    leaves (runWord 0x40000000 (strict (machine 2 [] 0 [])))
      (fun t => t.runState == .halted .misalignedFetch && t.pc0 == 2) = true := by decide

/-- R260, R261: an image, `ADD r3, r0, #5` (R83) and one byte more, is placed from 0; `memLen` is its length, and its
first word runs first. -/
theorem test_launch :
    (State.launch [5, 0, 0x20, 0x40, 7] vectorConfig).config.memLen = 5 ∧
    Memory.read (State.launch [5, 0, 0x20, 0x40, 7] vectorConfig).mem 4 = 7 ∧
    leaves (step (State.launch [5, 0, 0xC0, 0x40, 7] vectorConfig)) (fun t => t.reg 3 == 5 && t.pc0 == 4) = true := by
  decide

/-- Writing the value that an unlisted address reads as removes the entry (R30). -/
theorem test_write_keeps_canonical :
    Memory.write (Memory.write [] 5 7) 5 0 = [] ∧ Memory.write [(9, 1)] 3 2 = [(3, 2), (9, 1)] := by decide

/-! ### Witnesses: for each statement with hypotheses, a state and operands that meet them -/

/-- A machine at 0 with `w` at `PC0` and `memLen = 0x100`. -/
def loaded (w : Word) (regs : List (Reg × Word)) (sr : BitVec 6) : State :=
  let s := machine 0 regs sr []
  s.memWrite 0 4 w

/-- DecodeReadsBackEveryEncodedInstruction: both checks at their boundary. -/
theorem witness_DecodeReadsBack :
    Instr.wf (.add ⟨31, true, 31, .imm 0xFFDF⟩) = true ∧ Instr.wf (.bccIllegal 16 0x3FFFFF) = true ∧
    Instr.wf (.bccIllegal 31 0) = true := by decide

/-- OperandTwoIsRegisterOrExtendedImmediate: the ends of the register range and of the immediates. -/
theorem witness_OperandTwo :
    (0xFFE0#16).toNat = 0xFFE0 + (0 : Reg).val ∧ (0xFFFF#16).toNat = 0xFFE0 + (31 : Reg).val ∧
    (0xFFDF#16).toNat < 0xFFE0 ∧ (0x8000#16).toNat < 0xFFE0 ∧ vectorConfig.immExtend = .sign ∧
    ({ vectorConfig with immExtend := .zero } : Config).immExtend = .zero := by decide

/-- StepRunsTheDecodedInstruction: an ADD in the last word of memory. -/
theorem witness_StepRuns :
    let s := (machine 0x1FC [] 0 []).memWrite 0x1FC 4 0x40000000
    s.enabled ∧ s.pc0.toNat + 4 = s.memTop ∧ s.config.misalignedFetch = .bytes ∧
    Instr.wf (.add ⟨0, false, 0, .imm 0⟩) = true ∧
    decodeBytes s.config.byteOrder (Memory.readBytes s.mem s.pc0.toNat 4) = .ok (.add ⟨0, false, 0, .imm 0⟩, []) := by decide

/-- LoadedWordIsRunByTheNextStep: the state after reset, and the largest word. -/
theorem witness_LoadedWord :
    State.reset.enabled ∧ State.reset.config.misalignedFetch = .bytes ∧ 0xFFFFFFFF < 2 ^ 32 := ⟨by decide, rfl, by decide⟩

/-- NoStepAfterTheRunHasEnded: one state for each clause. -/
theorem witness_NoStep :
    ({ State.reset with runState := .halted .illegalOpcode } : State).runState = .halted .illegalOpcode ∧
    ({ State.reset with runState := .exited 0 } : State).runState = .exited 0 ∧
    ({ State.reset with refused := true } : State).runState = .running := ⟨rfl, rfl, rfl⟩

/-- FetchPastMemoryHalts: `PC0 = memTop - 3`, and the state after reset with no memory. -/
theorem witness_FetchPast :
    (machine 0x1FD [] 0 []).enabled ∧ (machine 0x1FD [] 0 []).memTop < (machine 0x1FD [] 0 []).pc0.toNat + 4 := by decide

/-- The invariant of a small machine. -/
theorem loaded_inv (w : Word) : (loaded w [] 0).Inv :=
  ⟨Memory.wf_writeBytes _ _ _ Memory.wf_reset,
    Memory.bound_writeBytes _ _ _ _ (by intro c hc; cases hc) (.inr (show 0 + 4 ≤ 0x200 by decide)),
    rfl, by rfl, fun r _ => State.reset_reg r⟩

/-- EveryStepKeepsTheInvariant and the other statements about every step: a store that completes. -/
theorem witness_EveryStep : (loaded 0xA1210000 [] 0).Inv ∧ ∃ t, step (loaded 0xA1210000 [] 0) = .next t ∧ t.enabled :=
  ⟨loaded_inv _, _, rfl, by decide⟩

/-- CanonicalMemoriesThatReadAlikeAreEqual: one memory written in two orders. -/
theorem witness_Canonical :
    let m := Memory.write (Memory.write [] 9 1) 3 2
    let m' := Memory.write (Memory.write [] 3 2) 9 1
    Memory.wf m ∧ Memory.wf m' ∧ ∀ a, Memory.read m a = Memory.read m' a := by
  refine ⟨by decide, by decide, fun a => ?_⟩
  rw [show Memory.write (Memory.write [] 9 1) 3 2 = Memory.write (Memory.write [] 3 2) 9 1 from by decide]

/-- CompletedStepsAdvanceAndHaltingStepsDoNot: a transfer that completes and a step that halts. -/
theorem witness_Completed :
    (∃ t, step (loaded 0x17000004 [] 0) = .next t ∧ t.enabled ∧
      (decodeWord (loaded 0x17000004 [] 0).fetchWord).transferTarget (loaded 0x17000004 [] 0) = some t.pc1) ∧
    ∃ t, step (loaded 0x00000000 [] 0) = .next t ∧ t.runState = .halted .illegalOpcode :=
  ⟨⟨_, rfl, by decide, by decide⟩, _, rfl, rfl⟩

/-- HaltingStepsKeepMemoryLogAndFlags: each reason, and for a target out of range a BSR, a `JSR.c` and a conditional
branch; for an unwritten register an ADD and a TRAP. -/
theorem witness_Halting :
    (∃ t, step (loaded 0x0C000004 [] 0) = .next t ∧ t.runState = .halted .illegalBranchCond) ∧
    (∃ t, step (machine 0x200 [] 0 []) = .next t ∧ t.runState = .halted .fetchOutOfRange) ∧
    (∃ t, step (loaded 0xF8000000 [] 0) = .next t ∧ t.runState = .halted .illegalOpcode) ∧
    (∃ t, step (loaded 0x17000040 [] 0) = .next t ∧ t.runState = .halted .branchTargetOutOfRange) ∧
    (∃ t, step (loaded 0xF7A10000 [(1, 0x100)] 0b100000) = .next t ∧ t.runState = .halted .branchTargetOutOfRange) ∧
    (∃ t, step (loaded 0x0B400040 [] 0b000100) = .next t ∧ t.runState = .halted .branchTargetOutOfRange) ∧
    (∃ t, step (strict (machine 2 [] 0 [])) = .next t ∧ t.runState = .halted .misalignedFetch) ∧
    (∃ t, step (strict (loaded 0x40E1FFE2 [(1, 5)] 0)) = .next t ∧ t.runState = .halted .unwrittenRegister) ∧
    ∃ t, step (strict (loaded 0xF800FFE5 [] 0)) = .next t ∧ t.runState = .halted .unwrittenRegister :=
  ⟨⟨_, rfl, rfl⟩, ⟨_, rfl, rfl⟩, ⟨_, rfl, rfl⟩, ⟨_, rfl, rfl⟩, ⟨_, rfl, rfl⟩, ⟨_, rfl, rfl⟩, ⟨_, rfl, rfl⟩, ⟨_, rfl, rfl⟩,
    _, rfl, rfl⟩

/-- The statements whose hypothesis is that operands can be read (the ALU, LEA and LEAS, loads, stores, JSR, the
comparison): under `unwritten` with the registers written, or register 0, and under `zero` with none written. -/
theorem witness_Readable :
    let s := strict (machine 0 [(1, 0x10), (2, 2), (4, 4)] 0 [])
    s.canRead (formSources ⟨3, true, 1, .reg 2⟩) = true ∧ s.canRead (formSources ⟨31, true, 0, .imm 0xFFDF⟩) = true ∧
    s.canRead (storeSources ⟨4, true, 1, .reg 2⟩) = true ∧ s.canRead (Instr.ld ⟨3, true, 1, .imm 0⟩).sources = true ∧
    s.canRead (Instr.stb ⟨4, true, 1, .imm 0⟩).sources = true ∧ s.canRead [3] = false ∧
    (machine 0 [] 0 []).canRead [0, 1, 31] = true := by decide

/-- OnlyStoresAndTrapsChangeMemory, FlagsChangeOnly and InterruptBits: instructions inside and outside each class. -/
theorem witness_Frames :
    (∃ t, exec (.ld ⟨3, false, 1, .imm 0⟩) (machine 0 [] 0 []) = .next t) ∧
    Instr.isStore (.ld ⟨3, false, 1, .imm 0⟩) = false ∧ Instr.isTrap (.ld ⟨3, false, 1, .imm 0⟩) = false ∧
    Instr.affectStatus (.ld ⟨3, false, 1, .imm 0⟩) = false ∧ Instr.isAddSub (.ld ⟨3, false, 1, .imm 0⟩) = false ∧
    (∃ t, exec (.trap0 ⟨0, false, 0, .imm 0⟩) (machine 0 [] 0 []) = .next t) ∧
    Instr.isTrap (.trap0 ⟨0, false, 0, .imm 0⟩) = true :=
  ⟨⟨_, rfl⟩, rfl, rfl, rfl, rfl, ⟨_, rfl⟩, rfl⟩

/-- SubUndoesAddAndAddFlagsAreExact: destination and first operand may be the same register. -/
theorem witness_SubUndoesAdd :
    (3 : Reg) ≠ 0 ∧ (2 : Reg) ≠ 3 ∧ (strict (machine 0 [(2, 5), (3, 7)] 0 [])).canRead [3, 2] = true := by decide

/-- ShiftsAreExactForEveryAmount: amounts 31 and 32, the latter under the default of `SHIFT_LARGE`. -/
theorem witness_Shifts :
    ((machine 0 [(2, 31)] 0 []).op2 (.reg 2)).toNat < 32 ∧ ¬((machine 0 [(2, 32)] 0 []).op2 (.reg 2)).toNat < 32 ∧
    (machine 0 [(2, 32)] 0 []).config.shiftLarge = .specDefault := by decide

/-- The loads and stores in range: the last word, halfword and byte of memory, and r29 at `memLen`. -/
theorem witness_AccessInRange :
    let s := machine 0 [(1, 0x1FC), (2, 0x1FE), (3, 0x1FF), (29, 0x100)] 0 []
    (s.effAddr 4 ⟨4, true, 1, .imm 0⟩).toNat + 4 = s.memTop ∧ (s.effAddr 2 ⟨4, true, 2, .imm 0⟩).toNat + 2 = s.memTop ∧
    (s.effAddr 1 ⟨4, true, 3, .imm 0⟩).toNat + 1 = s.memTop ∧ spInvolved ⟨4, true, 29, .imm 0⟩ = true ∧
    s.config.memLen = (s.effAddr 4 ⟨4, true, 29, .imm 0⟩).toNat ∧ s.dataMisaligned 0x1FD 4 = false ∧
    s.canRead (formSources ⟨4, true, 1, .imm 0⟩) = true ∧ s.canRead (Instr.st ⟨4, true, 29, .imm 0⟩).sources = true := by
  decide

/-- AbortedLoads and AbortedStores: an access that ends one byte past memory, r29 at `memLen - 1`, and the last address at
which a word is misaligned and in range. -/
theorem witness_AccessAborted :
    let s := machine 0 [(1, 0x1FD), (29, 0xFF)] 0 []
    s.memTop < (s.effAddr 4 ⟨4, true, 1, .imm 0⟩).toNat + 4 ∧ (s.effAddr 4 ⟨4, true, 1, .imm 0⟩).toNat = 0x1FD ∧
    ¬s.memTop < (s.effAddr 1 ⟨4, true, 29, .imm 0⟩).toNat + 1 ∧
    (s.effAddr 1 ⟨4, true, 29, .imm 0⟩).toNat < s.config.memLen ∧
    s.canRead (Instr.ld ⟨4, true, 1, .imm 0⟩).sources = true ∧ s.canRead (Instr.stb ⟨4, true, 29, .imm 0⟩).sources = true ∧
    (let s' := strict (machine 0 [(1, 0x1FB), (4, 0)] 0 [])
    s'.canRead (Instr.st ⟨4, true, 1, .imm 0⟩).sources = true ∧
    ¬s'.memTop < (s'.effAddr 4 ⟨4, true, 1, .imm 0⟩).toNat + 4 ∧ s'.config.misalignedData = .fault ∧
    (s'.effAddr 4 ⟨4, true, 1, .imm 0⟩).toNat % 4 ≠ 0) := by decide

/-- MisalignedDataFaultsOnlyWhenConfigured: under `fault` a word at 1 is an error and a word at 4 is not. -/
theorem witness_Misaligned :
    leaves (exec (.ld ⟨3, false, 0, .imm 1⟩) (strict (machine 0 [] 0 []))) (fun t => t.memErrLog == []) = true ∧
    leaves (exec (.ld ⟨3, false, 1, .imm 0⟩) (strict (machine 0 [(1, 1)] 0 [])))
      (fun t => t.memErrLog == [⟨.misaligned, 0, 1⟩]) = true := by decide

/-- AccessChecksAtTheBoundaries: an address for each clause. -/
theorem witness_AccessChecks :
    let s := machine 0 [] 0 []
    (0x1FF#32).toNat + 1 = s.memTop ∧ s.config.memLen ≤ (0x1FF#32).toNat ∧ (0x200#32).toNat = s.memTop ∧
    (0xFF#32).toNat + 1 = s.config.memLen ∧ (0xFF#32).toNat + 4 ≤ s.memTop := by decide

/-- MixedWidthReadsOfAStoredWord: the last word of the address space. -/
theorem witness_MixedWidth : (machine 0 [] 0 []).config.byteOrder = .little ∧ (0xFFFFFFFC#32).toNat + 4 ≤ 2 ^ 32 := by decide

/-- StoredWordIsTheNextInstructionFetched: a store over its own delay slot. -/
theorem witness_StoredWord :
    let s := machine 0 [(1, 4), (4, 0x40000000)] 0 []
    (∃ t, exec (.st ⟨4, false, 1, .imm 0⟩) s = .next t) ∧
    s.checkAccess (s.effAddr 4 ⟨4, false, 1, .imm 0⟩) 4 (spInvolved ⟨4, false, 1, .imm 0⟩) = none ∧
    s.effAddr 4 ⟨4, false, 1, .imm 0⟩ = s.pc1 ∧ s.canRead (storeSources ⟨4, false, 1, .imm 0⟩) = true :=
  ⟨⟨_, rfl⟩, by decide, by decide, by decide⟩

/-- ConditionalBranchesTakeTheirCondition: the table's first and last rows are in it. -/
theorem witness_ConditionalBranches :
    (∃ p ∈ conditionTable, p.1 0 = .bsp 0) ∧ ∃ p ∈ conditionTable, p.1 0 = .bvs 0 :=
  ⟨⟨_, List.mem_cons_self, rfl⟩, _, List.mem_of_getElem? (i := 15) rfl, rfl⟩

/-- BranchesAfterCompareOrderTheOperands: a comparison, and a target in the image. -/
theorem witness_BranchesAfterCompare :
    ∃ t, exec (.sub ⟨0, true, 1, .reg 2⟩) (machine 0 [(1, 3), (2, 5)] 0 []) = .next t ∧
      (machine 0 [] 0 []).config.subCarry = .fused ∧ (t.relativeTarget 0x3E).toNat = 0xFC ∧ t.config.memLen = 0x100 ∧
      (machine 0 [(1, 3), (2, 5)] 0 []).canRead (formSources ⟨0, true, 1, .reg 2⟩) = true :=
  ⟨_, rfl, rfl, by decide, rfl, by decide⟩

/-- BranchConditionsAboveFifteenHalt: the first and the last such word. -/
theorem witness_IllegalConditions : (0x0C000000#32).toNat / 2 ^ 26 = 3 ∧ (0x0FFFFFFF#32).toNat / 2 ^ 26 = 3 := by decide

/-- DelaySlotRunsThenTheTarget: vector B11, a BSR in the delay slot of a BSR, and a NOP there. -/
theorem witness_DelaySlot :
    let s := machine 0 [] 0 [(4, [0x0B, 0, 0, 0x10])]
    let s' := machine 0 [] 0 [(4, [0, 0, 0, 0x40])]
    (∃ t u, exec (.bsr 0 8) s = .next t ∧ t.enabled ∧ step t = .next u ∧ u.enabled ∧
      decodeWord t.fetchWord = .bsr 0 0xB) ∧
    ∃ t u, exec (.bsr 0 8) s' = .next t ∧ t.enabled ∧ step t = .next u ∧ u.enabled ∧
      (decodeWord t.fetchWord).transferTarget t = none :=
  ⟨⟨_, _, rfl, by decide, rfl, by decide, by decide⟩, _, _, rfl, by decide, rfl, by decide, by decide⟩

/-- TrapOutsideItsEnvelopeHalts: a word over a limit, registers 0 and 6, a register of 0, immediates 0 and 256. -/
theorem witness_TrapOutside :
    let low : State := { machine 0 [] 0 [] with config := { vectorConfig with trapWordLimit := 0xF8000000 } }
    low.config.trapWordLimit.toNat < (encode (.trap ⟨0, false, 0, .imm 1⟩)).toNat ∧ (0 : Reg).val < 1 ∧ 5 < (6 : Reg).val ∧
    (machine 0 [] 0 []).readable 5 = true ∧ (machine 0 [] 0 []).reg 5 = 0 ∧ (0#16).toNat < 1 ∧ 255 < (256#16).toNat := by decide

/-- TrapExitEndsTheRun: the immediate form, and the register form with r1 and with r5. -/
theorem witness_TrapExit :
    (machine 0 [] 0 []).TrapNumber ⟨0, false, 0, .imm 1⟩ 1 ∧ (machine 0 [(1, 1)] 0 []).TrapNumber ⟨0, false, 0, .reg 1⟩ 1 ∧
    (machine 0 [(5, 1)] 0 []).TrapNumber ⟨31, true, 31, .reg 5⟩ 1 :=
  ⟨⟨by decide, by decide⟩, ⟨by decide, by decide⟩, by decide, by decide⟩

/-- TrapWithUnknownNumberIsRefused: immediate 255, and a register value above 255 (vector T3). -/
theorem witness_TrapUnknown :
    (machine 0 [] 0 []).TrapNumber ⟨0, false, 0, .imm 255⟩ 255 ∧
    (machine 0 [(3, 0x1234)] 0 []).TrapNumber ⟨0, false, 0, .reg 3⟩ 0x1234 ∧
    vectorConfig.services.lookup 255 = none ∧ vectorConfig.services.lookup 0x1234 = none :=
  ⟨⟨by decide, by decide⟩, ⟨by decide, by decide⟩, by decide, by decide⟩

/-- ServedTrapChangesOnlyWhatTheHostMay: FPUTC on standard output, with a bad descriptor too, and FGETS. -/
theorem witness_ServedTrap :
    (machine 0 [] 0 []).TrapNumber ⟨0, false, 0, .imm 3⟩ 3 ∧ vectorConfig.services.lookup 3 = some .fputc ∧
    (machine 0 [(2, 1)] 0 []).badDescriptor .fputc = false ∧ (machine 0 [(2, 3)] 0 []).badDescriptor .fputc = true ∧
    (machine 0 [] 0 []).TrapNumber ⟨0, false, 0, .imm 5⟩ 5 ∧ vectorConfig.services.lookup 5 = some .fgets ∧
    (machine 0 [] 0 []).badDescriptor .fgets = false ∧ Service.fputc ≠ .exit ∧
    (machine 0 [] 0 []).canRead (Service.args .fgets) = true ∧
    (strict (machine 0 [(1, 65), (2, 1)] 0 [])).canRead (Service.args .fputc) = true :=
  ⟨⟨by decide, by decide⟩, by decide, by decide, by decide, ⟨by decide, by decide⟩, by decide, by decide, by decide, by decide,
    by decide⟩

/-- UndescribedOpcodesAreRefused: the first and the last such word. -/
theorem witness_Undescribed : (0xE0000000#32).toNat / 2 ^ 27 = 0x1C ∧ (0xEFFFFFFF#32).toNat / 2 ^ 27 = 0x1D := by decide

/-- LaunchMeetsThePremisesAndTheInvariant: an empty image, and a stack region that fills the address space or is one byte
too large. -/
theorem witness_Launch :
    ([] : List Byte).length + (2 ^ 32 : Nat) ≤ 2 ^ 32 ∧ ¬[(7 : Byte)].length + (2 ^ 32 : Nat) ≤ 2 ^ 32 := by decide

/-- FirstStepRunsTheImagesFirstWord: an image of exactly four bytes. -/
theorem witness_FirstStep :
    decodeBytes vectorConfig.byteOrder [0, 0, 0, 0x40] = .ok (.add ⟨0, false, 0, .imm 0⟩, []) := by decide

/-- MisalignedFetchHaltsWhenConfigured: the last misaligned address in range. -/
theorem witness_MisalignedFetch :
    let s := strict (machine 0x1FB [] 0 [])
    s.enabled ∧ s.pc0.toNat + 4 ≤ s.memTop ∧ s.config.misalignedFetch = .fault ∧ s.pc0.toNat % 4 ≠ 0 := by decide

/-- UnwrittenRegisterReadsHalt: a store's data register; a TRAP whose number is in r1 or r5; an FPUTC that lacks its second
argument. -/
theorem witness_UnwrittenRead :
    let s := strict (machine 0 [(1, 3)] 0 [])
    s.config.resetRegs = .unwritten ∧ Instr.isTrap (.st ⟨31, true, 0, .imm 0⟩) = false ∧
    (31 : Reg) ∈ (Instr.st ⟨31, true, 0, .imm 0⟩).sources ∧ s.hasWritten 31 = false ∧
    (encode (.trap ⟨0, false, 0, .reg 5⟩)).toNat ≤ s.config.trapWordLimit.toNat ∧ s.hasWritten 5 = false ∧
    (strict (machine 0 [] 0 [])).hasWritten 1 = false ∧
    s.TrapNumber ⟨0, false, 0, .reg 1⟩ 3 ∧ s.config.services.lookup 3 = some .fputc ∧ (2 : Reg) ∈ Service.args .fputc ∧
    s.hasWritten 2 = false :=
  ⟨rfl, rfl, by decide, by decide, by decide, by decide, by decide, ⟨by decide, by decide⟩, by decide, by decide, by decide⟩

/-- ReadableRegistersStayReadable and DefaultSettingsKeepTheClosedListOfReasons: a step that completes under either
setting. -/
theorem witness_Settings :
    (∃ t, step (strict (loaded 0x40E1FFE0 [(1, 5)] 0)) = .next t ∧ (strict (loaded 0x40E1FFE0 [(1, 5)] 0)).readable 1 = true) ∧
    (∃ t, step (loaded 0x80E10000 [(1, 0x41)] 0) = .next t) ∧ vectorConfig.misalignedFetch = .bytes ∧
    vectorConfig.resetRegs = .zero ∧ vectorConfig.misalignedData = .bytes :=
  ⟨⟨_, rfl, by decide⟩, ⟨_, rfl⟩, rfl, rfl, rfl⟩

end Sys2Proof.Tests
end

section
/-! PROOFS. State (10_state.md). First what each operation keeps of the invariant and of the facts that no step undoes, then
the shapes of `ExecTo` and the traps that halt at an unwritten register, each settled once; the obligations follow from
`step_to`. -/

namespace Sys2Proof.Machine

/-! ### Canonical memories (R30, R35) -/

/-- A canonical memory lists exactly the addresses that do not read 0, each with the byte it reads. -/
theorem Memory.mem_iff_read (m : Memory) (hm : Memory.wf m) (x : Nat) (v : Byte) :
    (x, v) ∈ m ↔ v ≠ 0 ∧ Memory.read m x = v := by
  induction m with
  | nil => exact ⟨fun h => absurd h List.not_mem_nil, fun ⟨hv, hread⟩ => absurd hread.symm hv⟩
  | cons cell rest ih =>
    obtain ⟨a, w⟩ := cell
    obtain ⟨hsorted, hnonzero⟩ := hm
    obtain ⟨hfirst, hrest⟩ := List.pairwise_cons.mp hsorted
    have ih := ih ⟨hrest, fun c hc => hnonzero c (List.mem_cons_of_mem _ hc)⟩
    rw [List.mem_cons, Memory.read]
    by_cases hx : a = x
    · subst hx
      have hw : w ≠ 0 := hnonzero (a, w) List.mem_cons_self
      have hunlisted : (a, v) ∉ rest := fun hc => lt_irrefl a (hfirst (a, v) hc)
      rw [if_pos rfl, or_iff_left hunlisted]
      constructor
      · rintro ⟨⟩
        exact ⟨hw, rfl⟩
      · rintro ⟨-, rfl⟩
        rfl
    · rw [if_neg hx, or_iff_right fun e => hx (congrArg Prod.fst e).symm]
      exact ih

/-- Canonical memories with the same entries are the same list: the order of the entries is fixed by their addresses. -/
theorem Memory.eq_of_mem_iff (m m' : Memory) (hm : Memory.wf m) (hm' : Memory.wf m')
    (h : ∀ cell, cell ∈ m ↔ cell ∈ m') : m = m' := by
  have nodup : ∀ l : Memory, Memory.wf l → l.Nodup := fun l hl =>
    hl.1.imp fun hlt e => absurd (congrArg Prod.fst e) hlt.ne
  have perm : m.Perm m' := (List.perm_ext_iff_of_nodup (nodup m hm) (nodup m' hm')).mpr h
  exact perm.eq_of_pairwise (fun _ _ _ _ hlt hgt => absurd hlt hgt.asymm) hm.1 hm'.1

/-! ### What keeps the invariant -/

section Invariant

variable {s : State}

theorem State.Inv.setReg (h : s.Inv) (i : Reg) (v : Word) : (s.setReg i v).Inv where
  memWf := h.memWf
  memInRange := h.memInRange
  pipeline := h.pipeline
  zeroReg := (s.setReg_reg_zero i v).trans h.zeroReg
  unwrittenZero := s.setReg_unwrittenZero i v h.unwrittenZero

theorem State.Inv.setSr (h : s.Inv) (sr : StatusReg) : (s.setSr sr).Inv :=
  ⟨h.memWf, h.memInRange, h.pipeline, h.zeroReg, h.unwrittenZero⟩

theorem State.Inv.fatal (h : s.Inv) (reason : HaltReason) : (s.fatal reason).Inv :=
  ⟨h.memWf, h.memInRange, h.pipeline, h.zeroReg, h.unwrittenZero⟩

theorem State.Inv.refuse (h : s.Inv) : s.refuse.Inv :=
  ⟨h.memWf, h.memInRange, h.pipeline, h.zeroReg, h.unwrittenZero⟩

theorem State.Inv.exit (h : s.Inv) : s.exit.Inv :=
  ⟨h.memWf, h.memInRange, h.pipeline, h.zeroReg, h.unwrittenZero⟩

theorem State.Inv.countCall (h : s.Inv) : s.countCall.Inv :=
  ⟨h.memWf, h.memInRange, h.pipeline, h.zeroReg, h.unwrittenZero⟩

theorem State.Inv.recordCheck (h : s.Inv) (err : Option MemErrKind) (ea : Word) : (s.recordCheck err ea).Inv :=
  ⟨h.memWf, h.memInRange, h.pipeline, h.zeroReg, h.unwrittenZero⟩

/-- The advance makes the last slot four past the one before it, whatever they were (R181, R28). -/
theorem State.Inv.advance (h : s.Inv) : s.advance.Inv :=
  ⟨h.memWf, h.memInRange, rfl, h.zeroReg, h.unwrittenZero⟩

/-- A transfer keeps the invariant: its target breaks the pipeline's spacing, and the advance after it restores it (R187). -/
theorem State.Inv.transfer (h : s.Inv) (target : Word) : (s.transfer target).Inv := by
  rcases transfer_cases s target with e | e <;> rw [e]
  · exact h.fatal _
  · exact ⟨h.memWf, h.memInRange, rfl, h.zeroReg, h.unwrittenZero⟩

theorem State.Inv.trapEntry (h : s.Inv) : s.trapEntry.Inv := ((h.setReg _ _).setReg _ _).setSr _

/-- Bytes written inside the buffer keep memory canonical and inside the buffer (R30). -/
theorem State.Inv.writeBytes (h : s.Inv) (a : Nat) (bytes : List Byte) (hin : bytes = [] ∨ a + bytes.length ≤ s.memTop) :
    ({ s with mem := Memory.writeBytes s.mem a bytes } : State).Inv where
  memWf := Memory.wf_writeBytes s.mem a bytes h.memWf
  memInRange := Memory.bound_writeBytes s.mem a bytes s.memTop h.memInRange hin
  pipeline := h.pipeline
  zeroReg := h.zeroReg
  unwrittenZero := h.unwrittenZero

/-- A store that passes its check stays inside the buffer, and one that fails it writes nothing (R62, R63). -/
theorem State.Inv.storeChecked (h : s.Inv) (ea : Word) (n : Nat) (sp : Bool) (data : Word) (hn : 0 < n) :
    (s.storeChecked (s.checkAccess ea n sp) ea n data).Inv := by
  cases herr : s.checkAccess ea n sp with
  | some kind => exact h
  | none =>
    obtain ⟨hin, -⟩ := (checkAccess_eq_none s ea n sp hn).mp herr
    refine h.writeBytes ea.toNat (bytesOf s.config.byteOrder n data) (.inr ?_)
    rw [bytesOf_length]
    exact hin

theorem State.Inv.hostAnswer (h : s.Inv) (svc : Service) : (s.hostAnswer svc).Inv := by
  obtain ⟨a, bytes, v, ha, hin, -, -⟩ := hostAnswer_eq s svc
  rw [ha]
  exact (h.writeBytes a bytes hin).setReg 1 v

theorem State.Inv.callHost (h : s.Inv) (num : Word) : (s.callHost num).Inv := by
  rcases callHost_cases s num with ⟨-, e⟩ | ⟨-, e⟩ | ⟨svc, -, -, ⟨-, e⟩ | ⟨-, e⟩⟩ <;> rw [e]
  · exact h.refuse
  · exact h.exit.countCall
  · exact h.fatal _
  · exact (h.hostAnswer svc).countCall.advance

theorem State.Inv.afterTrap (h : s.Inv) (f : RegForm) : (s.afterTrap f).Inv := by
  rcases afterTrap_cases s f with e | ⟨-, e⟩ | ⟨num, -, -, e⟩ <;> rw [e]
  · exact h.fatal _
  · exact h.fatal _
  · exact h.callHost num

/-- Every shape an instruction ends in keeps the invariant. -/
theorem State.Inv.execTo {i : Instr} {t : State} (h : s.Inv) (he : ExecTo s i t) : t.Inv := by
  cases he with
  | compute _ d v sr => exact ((h.setReg d v).setSr sr).advance
  | load _ ea n sp d v sr => exact (((h.recordCheck _ ea).setReg d v).setSr sr).advance
  | store _ ea n sp data sr _ pos => exact (((h.recordCheck _ ea).storeChecked ea n sp data pos).setSr sr).advance
  | taken _ target => exact h.transfer target
  | notTaken => exact h.advance
  | checked => exact h.fatal _
  | illegal => exact h.fatal _
  | bsr link off => exact (h.setReg link _).transfer _
  | jsr f => exact ((h.setReg f.dst _).setSr _).transfer _
  | trap0 => exact h.trapEntry.fatal _
  | trap f => exact h.trapEntry.afterTrap f
  | unread => exact h.fatal _
  | refuse => exact h.refuse

end Invariant

/-! ### What no step undoes: the configuration, register 0, and that a register has been written -/

/-- The configuration and register 0 are as before, and every register written before is written still (R36, R21, R35). -/
structure State.Keeps (s t : State) : Prop where
  config : t.config = s.config
  zeroReg : t.reg 0 = s.reg 0
  written : ∀ r, s.hasWritten r = true → t.hasWritten r = true

theorem State.Keeps.trans {s t u : State} (h : s.Keeps t) (h' : t.Keeps u) : s.Keeps u :=
  ⟨h'.config.trans h.config, h'.zeroReg.trans h.zeroReg, fun r hr => h'.written r (h.written r hr)⟩

/-- A register that could be read still can (R35). -/
theorem State.Keeps.readable {s t : State} (h : s.Keeps t) (r : Reg) (hr : s.readable r = true) :
    t.readable r = true := by
  simp only [State.readable, Bool.or_eq_true, h.config] at hr ⊢
  exact hr.imp_right (h.written r)

theorem State.SameRegs.keeps {s t : State} (h : s.SameRegs t) (hc : t.config = s.config) : s.Keeps t :=
  ⟨hc, h.reg 0, fun r hr => (h.written r).trans hr⟩

/-- A register write never reaches register 0, and marks its register written (R21, R35). -/
theorem State.SetsOnly.keeps {s t : State} {d : Reg} {v : Word} (h : s.SetsOnly t d v) (hc : t.config = s.config) :
    s.Keeps t where
  config := hc
  zeroReg := by rw [h.reg, if_neg fun hd => hd.2 rfl]
  written r hr := by rw [h.written, hr, ite_self]

section Keeps

variable (s : State)

/-- An operation that leaves the registers and the configuration alone. -/
theorem State.keeps_of_regs_eq (t : State) (hr : t.regs = s.regs) (hw : t.written = s.written)
    (hc : t.config = s.config) : s.Keeps t :=
  State.SameRegs.keeps ⟨fun r => congrArg (·[r]) hr, fun r => congrArg (·[r]) hw⟩ hc

theorem State.keeps_setReg (i : Reg) (v : Word) : s.Keeps (s.setReg i v) := (s.setReg_setsOnly i v).keeps rfl

theorem State.keeps_fatal (reason : HaltReason) : s.Keeps (s.fatal reason) := s.keeps_of_regs_eq _ rfl rfl rfl

theorem State.keeps_transfer (target : Word) : s.Keeps (s.transfer target) :=
  have ⟨hregs, _, _, hfixed, _⟩ := transfer_frame s target
  hregs.keeps hfixed.config

theorem State.keeps_trapEntry : s.Keeps s.trapEntry :=
  ((s.keeps_setReg 30 _).trans (State.keeps_setReg _ 31 _)).trans (State.keeps_of_regs_eq _ _ rfl rfl rfl)

theorem State.keeps_hostAnswer (svc : Service) : s.Keeps (s.hostAnswer svc) := by
  obtain ⟨a, bytes, v, ha, -, -, -⟩ := hostAnswer_eq s svc
  rw [ha]
  exact (s.keeps_of_regs_eq { s with mem := Memory.writeBytes s.mem a bytes } rfl rfl rfl).trans (State.keeps_setReg _ 1 v)

theorem State.keeps_callHost (num : Word) : s.Keeps (s.callHost num) := by
  rcases callHost_cases s num with ⟨-, e⟩ | ⟨-, e⟩ | ⟨svc, -, -, ⟨-, e⟩ | ⟨-, e⟩⟩ <;> rw [e]
  · exact s.keeps_of_regs_eq _ rfl rfl rfl
  · exact s.keeps_of_regs_eq _ rfl rfl rfl
  · exact s.keeps_fatal _
  · exact (s.keeps_hostAnswer svc).trans (State.keeps_of_regs_eq _ _ rfl rfl rfl)

theorem State.keeps_afterTrap (f : RegForm) : s.Keeps (s.afterTrap f) := by
  rcases afterTrap_cases s f with e | ⟨-, e⟩ | ⟨num, -, -, e⟩ <;> rw [e]
  · exact s.keeps_fatal _
  · exact s.keeps_fatal _
  · exact s.keeps_callHost num

end Keeps

/-- Every shape an instruction ends in keeps the configuration, register 0 and the marks of written registers. -/
theorem ExecTo.keeps {s t : State} {i : Instr} (h : ExecTo s i t) : s.Keeps t := by
  cases h with
  | compute _ d v sr => exact (s.keeps_setReg d v).trans (State.keeps_of_regs_eq _ _ rfl rfl rfl)
  | load _ ea n sp d v sr =>
    have hrecord := s.keeps_of_regs_eq (s.recordCheck (s.checkAccess ea n sp) ea) rfl rfl rfl
    exact (hrecord.trans (State.keeps_setReg _ d v)).trans (State.keeps_of_regs_eq _ _ rfl rfl rfl)
  | store => exact s.keeps_of_regs_eq _ rfl rfl rfl
  | taken _ target => exact s.keeps_transfer target
  | notTaken => exact s.keeps_of_regs_eq _ rfl rfl rfl
  | checked => exact s.keeps_fatal _
  | illegal => exact s.keeps_fatal _
  | bsr link off => exact (s.keeps_setReg link _).trans (State.keeps_transfer _ _)
  | jsr f =>
    have hrestore := State.keeps_of_regs_eq (s.writeLink f.dst) ((s.writeLink f.dst).restoreIe f.c) rfl rfl rfl
    exact ((s.keeps_setReg f.dst _).trans hrestore).trans (State.keeps_transfer _ _)
  | trap0 => exact s.keeps_trapEntry.trans (State.keeps_fatal _ _)
  | trap f => exact s.keeps_trapEntry.trans (State.keeps_afterTrap _ f)
  | unread => exact s.keeps_fatal _
  | refuse => exact s.keeps_of_regs_eq _ rfl rfl rfl

/-! ### The error log (R32, R233) -/

/-- An instruction appends to the error log what one access check records, which is nothing where no check failed. -/
theorem ExecTo.memErrLog_eq {s t : State} {i : Instr} (h : ExecTo s i t) :
    ∃ err ea, t.memErrLog = (s.recordCheck err ea).memErrLog := by
  have unchanged (e : t.memErrLog = s.memErrLog) :
      ∃ err ea, t.memErrLog = (s.recordCheck err ea).memErrLog := ⟨none, 0, by simp [e]⟩
  cases h with
  | compute => exact unchanged rfl
  | load _ ea n sp => exact ⟨s.checkAccess ea n sp, ea, rfl⟩
  | store _ ea n sp => exact ⟨s.checkAccess ea n sp, ea, rfl⟩
  | taken _ target =>
    obtain ⟨-, -, -, -, hlog⟩ := transfer_frame s target
    exact unchanged hlog
  | notTaken => exact unchanged rfl
  | checked => exact unchanged rfl
  | illegal => exact unchanged rfl
  | bsr link off =>
    obtain ⟨-, -, -, -, hlog⟩ := transfer_frame (s.writeLink link) (s.relativeTarget off)
    exact unchanged hlog
  | jsr f =>
    obtain ⟨-, -, -, -, hlog⟩ :=
      transfer_frame ((s.writeLink f.dst).restoreIe f.c) (s.reg f.src1 + 4 * s.op2 f.src2)
    exact unchanged hlog
  | trap0 => exact unchanged rfl
  | trap f =>
    obtain ⟨-, -, hlog, -⟩ := afterTrap_frame s.trapEntry f
    exact unchanged hlog
  | unread => exact unchanged rfl
  | refuse => exact unchanged rfl

/-! ### The status register (R26, R111, R196, R211) -/

theorem FlagsWritten.refl (i : Instr) (sr : StatusReg) : FlagsWritten i sr sr :=
  ⟨rfl, rfl, fun _ => rfl, fun _ => ⟨rfl, rfl⟩⟩

/-- What an instruction leaves in the status register: a trap what its entry wrote, a JSR that could read its operands the
restored IE, every other the flags of its family. -/
theorem ExecTo.sr_cases {s t : State} {i : Instr} (h : ExecTo s i t) :
    (i.isTrap = true ∧ t.sr = s.trapSr) ∨
    (∃ f, i = .jsr f ∧ s.canRead i.sources = true ∧ t.sr = if f.c then { s.sr with ie := s.sr.pie } else s.sr) ∨
    (i.isTrap = false ∧ (i.isJsr && s.canRead i.sources) = false ∧ FlagsWritten i s.sr t.sr) := by
  have kept (trap : i.isTrap = false) (jsr : i.isJsr = false) (flags : FlagsWritten i s.sr t.sr) :
      i.isTrap = false ∧ (i.isJsr && s.canRead i.sources) = false ∧ FlagsWritten i s.sr t.sr :=
    ⟨trap, by rw [jsr, Bool.false_and], flags⟩
  have unchanged (e : t.sr = s.sr) : FlagsWritten i s.sr t.sr := e ▸ FlagsWritten.refl i s.sr
  cases h with
  | compute _ _ _ _ flags _ trap jsr => exact .inr (.inr (kept trap jsr flags))
  | load _ _ _ _ _ _ _ flags _ trap jsr => exact .inr (.inr (kept trap jsr flags))
  | store _ _ _ _ _ _ flags _ _ trap jsr => exact .inr (.inr (kept trap jsr flags))
  | taken _ target _ _ _ trap jsr =>
    obtain ⟨-, hsr, -⟩ := transfer_frame s target
    exact .inr (.inr (kept trap jsr (unchanged hsr)))
  | notTaken _ _ trap jsr => exact .inr (.inr (kept trap jsr (unchanged rfl)))
  | checked _ _ _ trap jsr => exact .inr (.inr (kept trap jsr (unchanged rfl)))
  | illegal => exact .inr (.inr (kept rfl rfl (unchanged rfl)))
  | bsr link off =>
    obtain ⟨-, hsr, -⟩ := transfer_frame (s.writeLink link) (s.relativeTarget off)
    exact .inr (.inr (kept rfl rfl (unchanged hsr)))
  | jsr f src =>
    obtain ⟨-, hsr, -⟩ := transfer_frame ((s.writeLink f.dst).restoreIe f.c) (s.reg f.src1 + 4 * s.op2 f.src2)
    exact .inr (.inl ⟨f, rfl, src, hsr⟩)
  | trap0 =>
    obtain ⟨⟨hsr, -⟩, -⟩ := trapSaved_fatal s .illegalOpcode
    exact .inl ⟨rfl, hsr⟩
  | trap f =>
    obtain ⟨hsr, -⟩ := afterTrap_frame s.trapEntry f
    obtain ⟨⟨hentry, -⟩, -⟩ := trapSaved_fatal s .illegalOpcode
    exact .inl ⟨rfl, hsr.trans hentry⟩
  | unread _ src trap => exact .inr (.inr ⟨trap, by rw [src, Bool.and_false], unchanged rfl⟩)
  | refuse _ _ trap jsr => exact .inr (.inr (kept trap jsr (unchanged rfl)))

/-! ### Reading an unwritten register (R35, log 12) -/

/-- An instruction with registers to read reads them first, and does nothing before. -/
theorem exec_eq_guardReads (i : Instr) (s : State) (h : i.sources ≠ []) :
    ∃ after, exec i s = .next (s.guardReads i.sources after) := by
  cases i with
  | lea f | leas f | subr f | xor f | xorn f | add f | sub f | addc f | subc f | and f | andn f | or f | orn f
  | ld f | ldh f | lduh f | sth f | st f | ldb f | ldub f | stb f | ashr f | lshr f | ashl f | rotl f | jsr f =>
    exact ⟨_, rfl⟩
  | trap0 _ | bsp _ | bmz _ | bgt _ | ble _ | bge _ | blt _ | bhi _ | bls _ | bcc _ | bcs _ | bpl _ | bmi _ | bne _
  | beq _ | bvc _ | bvs _ | bccIllegal _ _ | bsr _ _ | op1C _ | op1D _ | trap _ =>
    exact absurd rfl h

theorem State.guardReads_of_cannotRead (s : State) (rs : List Reg) (after : State) (h : s.canRead rs = false) :
    s.guardReads rs after = s.fatal .unwrittenRegister := by
  simp [State.guardReads, h]

/-- An instruction that reads a register it may not halts where it stands. -/
theorem exec_of_cannotRead (i : Instr) (s : State) (h : s.canRead i.sources = false) :
    exec i s = .next (s.fatal .unwrittenRegister) := by
  have hsources : i.sources ≠ [] := by
    intro e
    rw [e] at h
    cases h
  obtain ⟨after, hexec⟩ := exec_eq_guardReads i s hsources
  rw [hexec, s.guardReads_of_cannotRead _ _ h]

/-- A TRAP reads no register for its number but one of r1 to r5, which its entry does not write (R212). -/
theorem trapSources_range (src2 : Operand2) : ∀ r ∈ trapSources src2, r.val < 30 := by
  cases src2 with
  | imm v => exact fun r hr => absurd hr List.not_mem_nil
  | reg r =>
    rw [trapSources]
    split
    · simp only [List.mem_singleton, forall_eq]
      omega
    · exact fun q hq => absurd hq List.not_mem_nil

/-- The host's arguments stand in r1 to r3 (R245). -/
theorem Service.args_range (svc : Service) : ∀ r ∈ Service.args svc, r ≠ 0 ∧ r.val < 30 := by
  cases svc <;> decide

/-- A TRAP whose number register may not be read halts right after its entry (R35, R212). -/
theorem afterTrap_of_cannotReadNumber (s : State) (f : RegForm)
    (hlimit : (encode (.trap f)).toNat ≤ s.config.trapWordLimit.toNat) (hread : s.canRead (trapSources f.src2) = false) :
    s.trapEntry.trapHangs f = false ∧ s.trapEntry.afterTrap f = s.trapEntry.fatal .unwrittenRegister := by
  have hentryLimit : s.trapEntry.trapWordTooLarge f = false := decide_eq_false (Nat.not_lt.mpr hlimit)
  have hentryRead : s.trapEntry.canRead (trapSources f.src2) = false :=
    (trapEntry_canRead s _ (trapSources_range f.src2)).trans hread
  constructor
  · unfold State.trapHangs
    split
    · rfl
    · rw [hentryRead, Bool.and_false, Bool.false_and]
  · unfold State.afterTrap
    rw [hentryLimit, State.guardReads_of_cannotRead _ _ _ hentryRead]
    rfl

/-- A call that hangs was able to read its arguments (R245, R35). -/
theorem callHangs_canRead (e : State) (num : Word) (svc : Service) (hsvc : Config.serviceOf e.config num = some svc)
    (h : e.callHangs num = true) : e.canRead (Service.args svc) = true := by
  unfold State.callHangs at h
  rw [hsvc] at h
  cases svc with
  | fgets | fgetc =>
    simp only [Bool.and_eq_true] at h
    simp only [h]
  | exit | fflush | fputs | fputc => cases h

/-- A call whose service may not read its arguments neither hangs nor is answered (R35, R245). -/
theorem callHost_of_cannotReadArgs (e : State) (num : Word) (svc : Service)
    (hsvc : Config.serviceOf e.config num = some svc) (hread : e.canRead (Service.args svc) = false) :
    e.callHangs num = false ∧ e.callHost num = e.fatal .unwrittenRegister := by
  constructor
  · by_contra hhangs
    rw [Bool.not_eq_false] at hhangs
    rw [callHangs_canRead e num svc hsvc hhangs] at hread
    cases hread
  · rcases callHost_cases e num with ⟨hnone, -⟩ | ⟨hexit, -⟩ | ⟨svc', -, hsvc', ⟨-, e'⟩ | ⟨hread', -⟩⟩
    · rw [hsvc] at hnone
      cases hnone
    · rw [hsvc] at hexit
      cases hexit
      cases hread
    · exact e'
    · rw [hsvc] at hsvc'
      cases hsvc'
      rw [hread] at hread'
      cases hread'

/-- A TRAP that hands a number to the host is inside its word limit, may read its number's register and resolves to that
number (R212, R213). -/
theorem State.TrapNumber.resolves {s : State} {f : RegForm} {num : Word} (h : s.TrapNumber f num) :
    s.canRead (trapSources f.src2) = true ∧ s.syscallNumber f.src2 = some num := by
  obtain ⟨-, hnum⟩ := h
  cases hsrc : f.src2 with
  | reg r =>
    rw [hsrc] at hnum
    obtain ⟨hlow, hhigh, hread, rfl, hne⟩ := hnum
    constructor
    · simp [trapSources, State.canRead, hlow, hhigh, hread]
    · rw [State.syscallNumber, if_pos ⟨hlow, hhigh, hne⟩]
  | imm v =>
    rw [hsrc] at hnum
    obtain ⟨hlow, hhigh, hval⟩ := hnum
    refine ⟨rfl, ?_⟩
    have hv : v.setWidth 32 = num := by
      apply BitVec.eq_of_toNat_eq
      rw [BitVec.toNat_setWidth_of_le (by decide), hval]
    rw [State.syscallNumber, if_pos ⟨hlow, hhigh⟩, hv]

/-- A TRAP whose number's service may not read its arguments halts right after its entry (R35, R245). -/
theorem afterTrap_of_cannotReadArgs (s : State) (f : RegForm) (num : Word) (svc : Service) (hnum : s.TrapNumber f num)
    (hsvc : Config.serviceOf s.config num = some svc) (hread : s.canRead (Service.args svc) = false) :
    s.trapEntry.trapHangs f = false ∧ s.trapEntry.afterTrap f = s.trapEntry.fatal .unwrittenRegister := by
  have hlimit : s.trapEntry.trapWordTooLarge f = false := decide_eq_false (Nat.not_lt.mpr hnum.1)
  obtain ⟨hsources, hsyscall⟩ := hnum.resolves
  have hentrySyscall := (trapEntry_syscallNumber s f.src2).trans hsyscall
  have hentrySources : s.trapEntry.canRead (trapSources f.src2) = true :=
    (trapEntry_canRead s _ (trapSources_range f.src2)).trans hsources
  have hentryArgs : s.trapEntry.canRead (Service.args svc) = false :=
    (trapEntry_canRead s _ fun r hr => (Service.args_range svc r hr).2).trans hread
  obtain ⟨hhangs, hcall⟩ := callHost_of_cannotReadArgs s.trapEntry num svc hsvc hentryArgs
  constructor
  · simp only [State.trapHangs, hentrySyscall, hhangs, Bool.false_and]
  · simp only [State.afterTrap, hlimit, Bool.false_eq_true, if_false, State.guardReads_of_canRead _ _ _ hentrySources,
      State.resolveTrap, hentrySyscall, hcall]

/-- A TRAP that halts right after its entry has made the entry's writes and no other (R211, R232). -/
theorem exec_trap_of_afterTrap_fatal (s : State) (f : RegForm) (reason : HaltReason)
    (hhangs : s.trapEntry.trapHangs f = false) (hafter : s.trapEntry.afterTrap f = s.trapEntry.fatal reason) :
    ∃ t, exec (.trap f) s = .next t ∧ s.TrapSaved t ∧ s.SameR1 t ∧ t.runState = .halted reason ∧
      s.SamePipeline t ∧ s.SameMemory t ∧ s.SameFixed t ∧ t.memErrLog = s.memErrLog := by
  obtain ⟨hsaved, hr1⟩ := trapSaved_fatal s reason
  have hexec : exec (.trap f) s = .next (s.trapEntry.fatal reason) := by
    show execTrap f s = _
    rw [execTrap, hhangs, hafter]
    rfl
  exact ⟨_, hexec, hsaved, hr1, rfl, ⟨rfl, rfl, rfl⟩, fun _ => rfl, ⟨rfl, rfl, rfl⟩, rfl⟩

/-! ### The step -/

/-- Every next state of a step is a fetch that halted, or has the shape of the decoded instruction (R180, R81, R82). -/
theorem step_to (s t : State) (h : step s = .next t) :
    (∃ reason, t = s.fatal reason) ∨ ExecTo s (decodeWord s.fetchWord) t := by
  obtain ⟨-, ⟨-, e⟩ | ⟨-, -, e⟩ | ⟨-, -, e⟩⟩ := step_next s t h
  · exact .inl ⟨_, e⟩
  · exact .inl ⟨_, e⟩
  · exact .inr (exec_next _ s t e)

/-- What no instruction undoes, no step undoes. -/
theorem step_keeps (s t : State) (h : step s = .next t) : s.Keeps t := by
  rcases step_to s t h with ⟨reason, rfl⟩ | he
  · exact s.keeps_fatal reason
  · exact he.keeps

end Sys2Proof.Machine

namespace Sys2Proof.Proofs

open Sys2Proof Sys2Proof.Machine

/-- Settles O12: each shape an instruction can end in keeps the invariant, and so does a fetch that halts. -/
theorem everyStepKeepsTheInvariant : Obligations.EveryStepKeepsTheInvariant := by
  intro s t hs h
  rcases step_to s t h with ⟨reason, rfl⟩ | he
  · exact hs.fatal reason
  · exact hs.execTo he

/-- Settles O13: what a canonical memory reads says what it lists, and its addresses say in which order. -/
theorem canonicalMemoriesThatReadAlikeAreEqual : Obligations.CanonicalMemoriesThatReadAlikeAreEqual := by
  intro m m' hm hm' hread
  refine Memory.eq_of_mem_iff m m' hm hm' fun ⟨x, v⟩ => ?_
  rw [Memory.mem_iff_read m hm, Memory.mem_iff_read m' hm', hread]

/-- Settles O14: every write of a register goes through `setReg`, which discards one to register 0. -/
theorem noStepChangesRegisterZero : Obligations.NoStepChangesRegisterZero :=
  fun s t h => (step_keeps s t h).zeroReg

/-- Settles O15: the only records are those of `recordCheck`, made of the state before the step. -/
theorem configurationFixedAndErrorLogOnlyGrows : Obligations.ConfigurationFixedAndErrorLogOnlyGrows := by
  intro s t h
  refine ⟨(step_keeps s t h).config, ?_⟩
  rcases step_to s t h with ⟨reason, rfl⟩ | he
  · exact ⟨[], (List.append_nil _).symm, Nat.zero_le 1, by simp⟩
  · obtain ⟨err, ea, hlog⟩ := he.memErrLog_eq
    refine ⟨_, hlog, ?_, ?_⟩
    · cases err <;> simp
    · intro e hmem
      obtain ⟨kind, -, rfl⟩ := List.mem_map.mp hmem
      rfl

/-- Settles O19, by the three things an instruction can leave in the status register. -/
theorem flagsChangeOnlyByInstructionsThatAffectStatus :
    Obligations.FlagsChangeOnlyByInstructionsThatAffectStatus := by
  intro i s t h
  rcases (exec_next i s t h).sr_cases with ⟨-, hsr⟩ | ⟨f, -, -, hsr⟩ | ⟨-, -, flags⟩
  · rw [hsr]
    exact ⟨fun _ => ⟨rfl, rfl, rfl, rfl⟩, fun _ => ⟨rfl, rfl⟩⟩
  · rw [hsr]
    cases f.c <;> exact ⟨fun _ => ⟨rfl, rfl, rfl, rfl⟩, fun _ => ⟨rfl, rfl⟩⟩
  · refine ⟨fun hc => ?_, flags.carryOverflow⟩
    rw [flags.unaffected hc]
    exact ⟨rfl, rfl, rfl, rfl⟩

/-- Settles O20, by the three things an instruction can leave in the status register. -/
theorem interruptBitsChangeOnlyByTrapsAndJsr : Obligations.InterruptBitsChangeOnlyByTrapsAndJsr := by
  intro i s t h
  rcases (exec_next i s t h).sr_cases with ⟨htrap, hsr⟩ | ⟨f, rfl, hread, hsr⟩ | ⟨htrap, hjsr, flags⟩
  · rw [hsr, htrap]
    exact ⟨nofun, fun _ => ⟨rfl, rfl⟩, nofun⟩
  · rw [hsr, hread, show Instr.affectStatus (.jsr f) = f.c from rfl]
    cases f.c <;> exact ⟨fun _ => rfl, nofun, fun _ => rfl⟩
  · have hrestore : (i.isJsr && i.affectStatus && s.canRead i.sources) = false := by
      rw [Bool.and_right_comm, hjsr, Bool.false_and]
    rw [htrap, hrestore]
    exact ⟨fun _ => flags.pie, nofun, fun _ => flags.ie⟩

/-- Settles O58: the guard of the operand reads, then the two guarded reads of a TRAP, of its number's register and of its
service's arguments. -/
theorem unwrittenRegisterReadsHalt : Obligations.UnwrittenRegisterReadsHalt := by
  constructor
  · intro i s _ hreset hunwritten
    exact exec_of_cannotRead i s ((s.canRead_eq_false_iff _).mpr ⟨hreset, hunwritten⟩)
  · rintro f s hreset (⟨hlimit, r, hsrc, hlow, hhigh, hw⟩ | ⟨num, svc, hnum, hne, hlookup, -, r, hr, hw⟩)
    · have hr : r ∈ trapSources f.src2 := by simp [hsrc, trapSources, hlow, hhigh]
      have hnonzero : r ≠ 0 := fun e => by rw [e] at hlow; cases hlow
      have hread := (s.canRead_eq_false_iff _).mpr ⟨hreset, r, hr, hnonzero, hw⟩
      obtain ⟨hhangs, hafter⟩ := afterTrap_of_cannotReadNumber s f hlimit hread
      exact exec_trap_of_afterTrap_fatal s f _ hhangs hafter
    · have hsvc : Config.serviceOf s.config num = some svc := by rw [Config.serviceOf, if_neg hne, hlookup]
      obtain ⟨hnonzero, -⟩ := Service.args_range svc r hr
      have hread := (s.canRead_eq_false_iff _).mpr ⟨hreset, r, hr, hnonzero, hw⟩
      obtain ⟨hhangs, hafter⟩ := afterTrap_of_cannotReadArgs s f num svc hnum hsvc hread
      exact exec_trap_of_afterTrap_fatal s f _ hhangs hafter

/-- Settles O59: no step clears the mark of a written register, and the configuration stays. -/
theorem readableRegistersStayReadable : Obligations.ReadableRegistersStayReadable :=
  fun s t h => (step_keeps s t h).readable

/-- Settles O8, by the run state. -/
theorem noStepAfterTheRunHasEnded : Obligations.NoStepAfterTheRunHasEnded := by
  refine fun s => ⟨fun reason hrun => ?_, fun code hrun => ?_, fun hrun hrefused => ?_⟩
  · simp only [step, hrun]
  · simp only [step, hrun]
  · simp only [step, hrun, hrefused, if_true]

/-- Settles O10, field by field. -/
theorem resetLeavesTheStatedValues : Obligations.ResetLeavesTheStatedValues :=
  ⟨State.reset_reg, rfl, rfl, rfl, rfl, fun _ => rfl, rfl, rfl, rfl, State.reset_hasWritten⟩

/-- Settles O11: memory lists nothing and every register holds 0. -/
theorem resetMeetsTheInvariant : Obligations.ResetMeetsTheInvariant where
  memWf := Memory.wf_reset
  memInRange _ hcell := by cases hcell
  pipeline := rfl
  zeroReg := State.reset_reg 0
  unwrittenZero r _ := State.reset_reg r

end Sys2Proof.Proofs
end

section
/-! PROOFS. Memory (20_memory.md). First each load and store as the common one, and what the two leave alike whatever their
access check answers; then what an aborted one leaves, and what a written word reads as. The obligations follow from these
and from the four lemmas that say when the access check answers what. -/

namespace Sys2Proof.Machine

/-! ### The access check (R57, R60 to R64) -/

theorem State.memLen_le_memTop (s : State) : s.config.memLen ≤ s.memTop := Nat.le_add_right _ _

/-- A byte is aligned at every address, under either setting (R57). -/
theorem dataMisaligned_byte (s : State) (ea : Word) : s.dataMisaligned ea 1 = false := by
  simp [State.dataMisaligned, Nat.mod_one]

/-- An access that starts outside memory is out of range, whatever its width (R60). -/
theorem checkAccess_of_memTop_le (s : State) (ea : Word) (n : Nat) (sp : Bool) (h : s.memTop ≤ ea.toNat) :
    s.checkAccess ea n sp = some .outOfRange := by
  rw [State.checkAccess, if_pos (.inl h)]

/-- An access through r29 that lies in memory and starts below `memLen` is a stack underflow, whatever its width (R61). -/
theorem checkAccess_of_lt_memLen (s : State) (ea : Word) (n : Nat) (hin : ea.toNat + n ≤ s.memTop)
    (hlow : ea.toNat < s.config.memLen) : s.checkAccess ea n true = some .stackUnderflow := by
  have hstart := hlow.trans_le s.memLen_le_memTop
  rw [State.checkAccess, if_neg (by omega), if_pos ⟨rfl, hlow⟩]

/-- The access check answers the first of R62's two errors that applies, then misalignment (R62, R57). -/
theorem checkAccess_eq_some_of_first (s : State) (f : RegForm) (ea : Word) (n : Nat) (kind : MemErrKind) (hn : 0 < n)
    (h : if s.memTop < ea.toNat + n then kind = .outOfRange
      else if (f.src1 = 29 ∨ f.src2 = .reg 29) ∧ ea.toNat < s.config.memLen then kind = .stackUnderflow
      else kind = MemErrKind.misaligned ∧ s.config.misalignedData = .fault ∧ ea.toNat % n ≠ 0) :
    s.checkAccess ea n (spInvolved f) = some kind := by
  simp only [← spInvolved_iff] at h
  split at h
  · next hout =>
    subst h
    exact (checkAccess_eq_outOfRange s ea n _ hn).mpr hout
  · next hin =>
    rw [Nat.not_lt] at hin
    split at h
    · next hunder =>
      subst h
      exact (checkAccess_eq_stackUnderflow s ea n _ hn).mpr ⟨hin, hunder⟩
    · next hover =>
      obtain ⟨rfl, hmisaligned⟩ := h
      exact (checkAccess_eq_misaligned s ea n _ hn).mpr
        ⟨hin, fun hsp => Nat.not_lt.mp fun hlow => hover ⟨hsp, hlow⟩, (dataMisaligned_iff s ea n).mpr hmisaligned⟩

/-! ### Each load and store as the common one (R151, R152) -/

/-- Each of the five loads is the common load at its own size, with an extension that keeps 0 (R155 to R159). -/
theorem exec_sizedLoads (f : RegForm) (p : Instr × Nat) (hp : p ∈ sizedLoads f) :
    0 < p.2 ∧ p.1.sources = formSources f ∧
      ∃ extend : Word → Word, extend 0 = 0 ∧ ∀ s, exec p.1 s = loadOp p.2 extend f s := by
  simp only [sizedLoads, List.mem_cons, List.not_mem_nil, or_false] at hp
  rcases hp with rfl | rfl | rfl | rfl | rfl
  · exact ⟨four_pos, rfl, fun raw => raw, rfl, fun _ => rfl⟩
  · exact ⟨two_pos, rfl, fun raw => (raw.setWidth 16).signExtend 32, rfl, fun _ => rfl⟩
  · exact ⟨two_pos, rfl, fun raw => (raw.setWidth 16).setWidth 32, rfl, fun _ => rfl⟩
  · exact ⟨one_pos, rfl, fun raw => (raw.setWidth 8).signExtend 32, rfl, fun _ => rfl⟩
  · exact ⟨one_pos, rfl, fun raw => (raw.setWidth 8).setWidth 32, rfl, fun _ => rfl⟩

/-- Each of the three stores is the common store at its own size (R160 to R162). -/
theorem exec_sizedStores (f : RegForm) (p : Instr × Nat) (hp : p ∈ sizedStores f) :
    0 < p.2 ∧ p.2 ≤ 4 ∧ p.1.sources = storeSources f ∧ ∀ s, exec p.1 s = storeOp p.2 f s := by
  simp only [sizedStores, List.mem_cons, List.not_mem_nil, or_false] at hp
  rcases hp with rfl | rfl | rfl
  · exact ⟨four_pos, le_rfl, rfl, fun _ => rfl⟩
  · exact ⟨two_pos, by norm_num, rfl, fun _ => rfl⟩
  · exact ⟨one_pos, by norm_num, rfl, fun _ => rfl⟩

/-! ### What a load and a store leave, whatever their check answers (R151, R152, R233) -/

/-- What loads and stores leave alike: the pipeline has moved on, the run goes on, the error log holds what the access check
answered, and nothing fixed has changed. -/
structure State.EndsAccess (s t : State) (err : Option MemErrKind) (ea : Word) : Prop where
  pipeline : s.Advanced t
  fixed : s.SameFixed t
  runState : t.runState = s.runState
  memErrLog : t.memErrLog = s.memErrLog ++ err.toList.map (s.memErr ea)

section Access

variable (s : State) (size : Nat) (extend : Word → Word) (f : RegForm) (err : Option MemErrKind)

theorem State.afterLoad_endsAccess :
    s.EndsAccess (s.afterLoad size extend f err) err (s.effAddr size f) :=
  ⟨⟨rfl, rfl, rfl⟩, ⟨rfl, rfl, rfl⟩, rfl, rfl⟩

theorem State.afterStore_endsAccess : s.EndsAccess (s.afterStore size f err) err (s.effAddr size f) :=
  ⟨⟨rfl, rfl, rfl⟩, ⟨rfl, rfl, rfl⟩, rfl, rfl⟩

/-- A load changes no byte (R54). -/
theorem State.afterLoad_mem : (s.afterLoad size extend f err).mem = s.mem := rfl

/-- A load writes its destination and no other register (R151). -/
theorem State.afterLoad_setsOnly :
    s.SetsOnly (s.afterLoad size extend f err) f.dst (extend (s.loadRaw err (s.effAddr size f) size)) :=
  have hset := (s.recordCheck err (s.effAddr size f)).setReg_setsOnly f.dst _
  ⟨hset.reg, hset.written⟩

/-- A store writes no register (R152). -/
theorem State.afterStore_sameRegs : s.SameRegs (s.afterStore size f err) := ⟨fun _ => rfl, fun _ => rfl⟩

/-- An aborted load with `c = 1` takes Z and N from 0 (R63, R150). -/
theorem State.afterLoad_sr_of_aborted (kind : MemErrKind) (hextend : extend 0 = 0) :
    (s.afterLoad size extend f (some kind)).sr = if f.c then { s.sr with z := true, n := false } else s.sr := by
  have hraw : extend (s.loadRaw (some kind) (s.effAddr size f) size) = 0 := hextend
  have hz : zeroAt (8 * size) 0 = true := by simp [zeroAt]
  have hn : negAt (8 * size) 0 = false := by simp [negAt]
  simp only [State.afterLoad, hraw, State.advance_sr, State.writeZN_sr, State.setReg_sr, State.recordCheck_sr, hz, hn]

/-- A store with `c = 1` takes Z and N from its truncated data, whether or not it is performed (R152, R150). -/
theorem State.afterStore_sr (hpos : 0 < size) (hsize : size ≤ 4) :
    (s.afterStore size f err).sr = if f.c then
      { s.sr with
        z := decide ((s.reg f.dst).toNat % 2 ^ (8 * size) = 0)
        n := decide (2 ^ (8 * size - 1) ≤ (s.reg f.dst).toNat % 2 ^ (8 * size)) }
      else s.sr := by
  simp only [State.afterStore, State.advance_sr, State.writeZN_sr, State.storeChecked_sr, State.recordCheck_sr, zeroAt_eq,
    negAt_mod _ _ (Nat.mul_pos (by decide : 0 < 8) hpos), truncateTo_toNat _ _ hsize, Nat.mod_mod]

/-- An aborted store changes no byte (R63). -/
theorem State.afterStore_mem_of_aborted (kind : MemErrKind) : (s.afterStore size f (some kind)).mem = s.mem := rfl

end Access

/-- Every load and store whose registers can be read completes, with what its access check answered in the log (R63, R233). -/
theorem exec_sizedAccess (f : RegForm) (s : State) (p : Instr × Nat) (hp : p ∈ sizedLoads f ++ sizedStores f)
    (hread : s.canRead p.1.sources = true) :
    0 < p.2 ∧ ∃ t, exec p.1 s = .next t ∧
      s.EndsAccess t (s.checkAccess (s.effAddr p.2 f) p.2 (spInvolved f)) (s.effAddr p.2 f) := by
  rcases List.mem_append.mp hp with hload | hstore
  · obtain ⟨hpos, hsources, extend, -, hexec⟩ := exec_sizedLoads f p hload
    rw [hsources] at hread
    exact ⟨hpos, _, (hexec s).trans (loadOp_of_canRead _ _ _ _ hread), s.afterLoad_endsAccess _ _ _ _⟩
  · obtain ⟨hpos, -, hsources, hexec⟩ := exec_sizedStores f p hstore
    rw [hsources] at hread
    exact ⟨hpos, _, (hexec s).trans (storeOp_of_canRead _ _ _ hread), s.afterStore_endsAccess _ _ _⟩

/-- Exactly one record of a kind is appended when the access check answers that kind (R233). -/
theorem State.EndsAccess.memErrLog_iff {s t : State} {err : Option MemErrKind} {ea : Word} (h : s.EndsAccess t err ea)
    (kind : MemErrKind) : t.memErrLog = s.memErrLog ++ [s.memErr ea kind] ↔ err = some kind := by
  rw [h.memErrLog, List.append_cancel_left_eq]
  cases err with
  | none => simp
  | some k => simp [State.memErr]

/-! ### Words written and read back (R55, R67) -/

/-- A word written is read back at its address, in either byte order. -/
theorem memRead_memWrite_word (s : State) (a v : Word) : (s.memWrite a 4 v).memRead a 4 = v := by
  have hbytes := Memory.readBytes_writeBytes s.mem a.toNat (bytesOf s.config.byteOrder 4 v)
  rw [bytesOf_length] at hbytes
  rw [State.memRead, State.memWrite_mem, hbytes]
  exact wordOf_bytesOf_four _ v

/-- A word-sized store keeps every bit of its data (R152). -/
theorem truncateTo_word (d : Word) : truncateTo 4 d = d := by
  apply BitVec.eq_of_toNat_eq
  rw [truncateTo_toNat 4 d (le_refl 4)]
  exact Nat.mod_eq_of_lt d.isLt

/-! ### Memory after an instruction (R54) -/

/-- An instruction that is no store and no trap leaves memory as it was. -/
theorem ExecTo.mem_eq {s t : State} {i : Instr} (h : ExecTo s i t) (hstore : i.isStore = false)
    (htrap : i.isTrap = false) : t.mem = s.mem := by
  cases h with
  | compute | load | notTaken | checked | illegal | unread | refuse => rfl
  | store _ _ _ _ _ _ _ _ store => cases store.symm.trans hstore
  | taken _ target =>
    obtain ⟨-, -, hmem, -⟩ := transfer_frame s target
    exact hmem
  | bsr link off =>
    obtain ⟨-, -, hmem, -⟩ := transfer_frame (s.writeLink link) (s.relativeTarget off)
    exact hmem
  | jsr f =>
    obtain ⟨-, -, hmem, -⟩ :=
      transfer_frame ((s.writeLink f.dst).restoreIe f.c) (s.reg f.src1 + 4 * s.op2 f.src2)
    exact hmem
  | trap0 | trap => cases htrap

end Sys2Proof.Machine

namespace Sys2Proof.Proofs

open Sys2Proof Sys2Proof.Machine

/-- Settles O18, by the shape the instruction ends in. -/
theorem onlyStoresAndTrapsChangeMemory : Obligations.OnlyStoresAndTrapsChangeMemory := by
  intro i s t h hstore htrap a
  rw [(exec_next i s t h).mem_eq hstore htrap]

/-- Settles O33: the access check answers the kind named, and the common load then reads 0. -/
theorem abortedLoadsYieldZeroAndAreLogged : Obligations.AbortedLoadsYieldZeroAndAreLogged := by
  intro f s p hp hread kind hkind
  obtain ⟨hpos, hsources, extend, hextend, hexec⟩ := exec_sizedLoads f p hp
  have hcheck := checkAccess_eq_some_of_first s f (s.effAddr p.2 f) p.2 kind hpos hkind
  rw [hsources] at hread
  rw [hexec, loadOp_of_canRead _ _ _ _ hread, hcheck]
  have hends := s.afterLoad_endsAccess p.2 extend f (some kind)
  have hsets : s.SetsOnly (s.afterLoad p.2 extend f (some kind)) f.dst (extend 0) := s.afterLoad_setsOnly _ _ _ _
  rw [hextend] at hsets
  exact ⟨_, rfl, hsets, s.afterLoad_sr_of_aborted _ _ _ _ hextend, hends.pipeline,
    fun _ => by rw [State.afterLoad_mem], hends.fixed, hends.runState, hends.memErrLog⟩

/-- Settles O35: the access check answers the kind named, and the common store then writes no byte. -/
theorem abortedStoresChangeNoByteAndAreLogged : Obligations.AbortedStoresChangeNoByteAndAreLogged := by
  intro f s p hp hread kind hkind
  obtain ⟨hpos, hsize, hsources, hexec⟩ := exec_sizedStores f p hp
  have hcheck := checkAccess_eq_some_of_first s f (s.effAddr p.2 f) p.2 kind hpos hkind
  rw [hsources] at hread
  rw [hexec, storeOp_of_canRead _ _ _ hread, hcheck]
  have hends := s.afterStore_endsAccess p.2 f (some kind)
  have hmem := s.afterStore_mem_of_aborted p.2 f kind
  exact ⟨_, rfl, s.afterStore_sameRegs _ _ _, s.afterStore_sr _ _ _ hpos hsize, hends.pipeline, fun _ => by rw [hmem],
    hends.fixed, hends.runState, hends.memErrLog⟩

/-- Settles O36: the record is appended exactly when the access check answers `misaligned`. -/
theorem misalignedDataFaultsOnlyWhenConfigured : Obligations.MisalignedDataFaultsOnlyWhenConfigured := by
  intro f s p hp hread
  obtain ⟨hpos, t, hexec, hends⟩ := exec_sizedAccess f s p hp hread
  refine ⟨t, hexec, hends.pipeline, hends.runState, (hends.memErrLog_iff .misaligned).trans ?_⟩
  rw [checkAccess_eq_misaligned s _ _ _ hpos, dataMisaligned_iff]
  tauto

/-- Settles O39: each part read is so many bytes of the word from one of its bytes up. -/
theorem mixedWidthReadsOfAStoredWord : Obligations.MixedWidthReadsOfAStoredWord := by
  intro s a v hlittle ha
  have part (j m : Nat) (hjm : j + m ≤ 4) (hm : 0 < m) := memRead_memWrite_part s a v j m hlittle hjm ha hm
  refine ⟨memRead_memWrite_word s a v, ?_, ?_, ?_, ?_⟩
  · simpa using part 0 1 (by decide) (by decide)
  · simpa using part 1 1 (by decide) (by decide)
  · simpa using part 0 2 (by decide) (by decide)
  · have high := part 2 2 (by decide) (by decide)
    rwa [Nat.mod_eq_of_lt (by omega)] at high

/-- Settles O40: the delay slot's address is the one stored to, and a word written there is read back. -/
theorem storedWordIsTheNextInstructionFetched : Obligations.StoredWordIsTheNextInstructionFetched := by
  intro f s t hread hexec hcheck hea
  have hstore : exec (.st f) s = .next (s.afterStore 4 f none) := by
    rw [← hcheck]
    exact storeOp_of_canRead 4 f s hread
  rw [hstore] at hexec
  cases hexec
  calc (s.afterStore 4 f none).fetchWord
      = (s.memWrite (s.effAddr 4 f) 4 (truncateTo 4 (s.reg f.dst))).memRead s.pc1 4 := rfl
    _ = truncateTo 4 (s.reg f.dst) := by rw [hea, memRead_memWrite_word]
    _ = s.reg f.dst := truncateTo_word _

/-- Settles O37, by the check that answers first at each of the four boundaries. -/
theorem accessChecksAtTheBoundaries : Obligations.AccessChecksAtTheBoundaries := by
  refine fun s ea sp => ⟨fun hlast hsp => ?_, fun htop n => ?_, fun hlast n hn => ?_, fun hlast n hin => ?_⟩
  · have habove (hsp' : sp = true) : s.config.memLen ≤ ea.toNat :=
      hsp.resolve_left fun hfalse => by cases hsp'.symm.trans hfalse
    exact (checkAccess_eq_none s ea 1 sp one_pos).mpr ⟨hlast.le, habove, dataMisaligned_byte s ea⟩
  · exact checkAccess_of_memTop_le s ea n sp htop.ge
  · exact (checkAccess_eq_outOfRange s ea n sp (by omega)).mpr (by omega)
  · exact checkAccess_of_lt_memLen s ea n hin (by omega)

end Sys2Proof.Proofs
end

section
/-! PROOFS. Encoding (30_encoding.md). First the three formats a word can have and the decoder on an encoded instruction, then
operand 2, the decoder of bytes, and the fetch of a step; the obligations follow from these and the laws of decoding. -/

namespace Sys2Proof

/-! ### Words and instructions (R83, R84, R88) -/

/-- Every word is of the branch format with opcode 1 or 2, or of the register format with another opcode (R85, R89). -/
theorem word_formats (w : Word) :
    (∃ cond off, w = packBranch 0x01 cond off) ∨ (∃ link off, w = packBranch 0x02 link off) ∨
      ∃ op f, op ≠ 0x01 ∧ op ≠ 0x02 ∧ f.wf = true ∧ w = packReg op f := by
  have hbranch := packBranch_fields w
  by_cases h1 : opcodeField w = 0x01
  · rw [h1] at hbranch
    exact .inl ⟨_, _, hbranch.symm⟩
  by_cases h2 : opcodeField w = 0x02
  · rw [h2] at hbranch
    exact .inr (.inl ⟨_, _, hbranch.symm⟩)
  · exact .inr (.inr ⟨_, _, h1, h2, decodeRegForm_wf w, (packReg_decodeRegForm w).symm⟩)

/-- A decoded word is well formed and is encoded as that word (R88). -/
theorem encode_decodeWord (w : Word) : (decodeWord w).wf = true ∧ encode (decodeWord w) = w := by
  rcases word_formats w with ⟨cond, off, rfl⟩ | ⟨link, off, rfl⟩ | ⟨op, f, h1, h2, hf, rfl⟩
  · rw [decodeWord_packBranch_one]
    exact (encode_decodeBcc cond off).symm
  · rw [decodeWord_packBranch_two]
    exact ⟨rfl, rfl⟩
  · rw [decodeWord_packReg op f hf h1 h2]
    obtain ⟨hencode, hwf⟩ := encode_decodeReg op f h1 h2
    exact ⟨hwf.trans hf, hencode⟩

/-- An encoded instruction is read back from its word: by its condition, as a BSR, or by its opcode (R89, R185). -/
theorem decodeWord_encode (i : Instr) (h : i.wf = true) : decodeWord (encode i) = i := by
  cases i with
  | bsp off | bmz off | bgt off | ble off | bge off | blt off | bhi off | bls off | bcc off | bcs off | bpl off | bmi off
  | bne off | beq off | bvc off | bvs off =>
    exact decodeWord_packBranch_one _ off
  | bccIllegal cond off =>
    exact (decodeWord_packBranch_one cond off).trans (decodeBcc_illegal cond off (of_decide_eq_true h))
  | bsr link off => exact decodeWord_packBranch_two _ off
  | trap0 f | lea f | leas f | subr f | xor f | xorn f | add f | sub f | addc f | subc f | and f | andn f | or f | orn f
  | ld f | ldh f | lduh f | sth f | st f | ldb f | ldub f | stb f | ashr f | lshr f | ashl f | rotl f | op1C f | op1D f
  | jsr f | trap f =>
    exact decodeWord_packReg _ f h (by decide) (by decide)

/-! ### Operand 2 (R86, R87) -/

/-- The field `0xFFE0 + r` is register `r`. -/
theorem decodeOperand2_of_reg (raw : BitVec 16) (r : Reg) (h : raw.toNat = 0xFFE0 + r.val) :
    decodeOperand2 raw = .reg r := by
  have hfield : raw = encodeOperand2 (.reg r) := by
    apply BitVec.eq_of_toNat_eq
    simp only [encodeOperand2, BitVec.toNat_ofNat]
    omega
  rw [hfield]
  exact decodeOperand2_encodeOperand2 (.reg r) rfl

/-- A field below `0xFFE0` is the immediate it holds. -/
theorem decodeOperand2_of_lt (raw : BitVec 16) (h : raw.toNat < 0xFFE0) : decodeOperand2 raw = .imm raw :=
  decodeOperand2_encodeOperand2 (.imm raw) (decide_eq_true h)

/-- The immediates that R87 says cannot be written: the fields of -32 to -1 are those of the registers. -/
theorem toInt_outside_registers_of_lt (raw : BitVec 16) (h : raw.toNat < 0xFFE0) : ¬(-32 ≤ raw.toInt ∧ raw.toInt < 0) := by
  rw [BitVec.toInt_eq_toNat_cond]
  split <;> omega

/-! ### The decoder of bytes (R85) -/

/-- Four bytes decode as the word they stand for, and the rest is left. -/
theorem decodeBytes_append (order : ByteOrder) (bs rest : List Byte) (h : bs.length = 4) :
    decodeBytes order (bs ++ rest) = .ok (decodeWord (wordOf order bs), rest) := by
  match bs, h with
  | [_, _, _, _], _ => rfl

/-- Fewer than four bytes are no instruction. -/
theorem decodeBytes_of_length_lt (order : ByteOrder) (bs : List Byte) (h : bs.length < 4) :
    decodeBytes order bs = .error .truncated := by
  match bs, h with
  | [], _ | [_], _ | [_, _], _ | [_, _, _], _ => rfl
  | _ :: _ :: _ :: _ :: _, h => exact absurd h (by simp)

end Sys2Proof

namespace Sys2Proof.Machine

/-! ### The fetch (R80 to R82) -/

/-- The word placed at `PC0` is the one fetched there, in either byte order. -/
theorem State.placeFetchWord_fetchWord (s : State) (w : Word) : (s.placeFetchWord w).fetchWord = w :=
  memRead_memWrite_word s s.pc0 w

/-- The image of a state with a word placed at `PC0` reaches past that word. -/
theorem State.placeFetchWord_inRange (s : State) (w : Word) :
    (s.placeFetchWord w).pc0.toNat + 4 ≤ (s.placeFetchWord w).memTop :=
  calc s.pc0.toNat + 4
      ≤ max s.config.memLen (s.pc0.toNat + 4) := le_max_right _ _
    _ ≤ (s.placeFetchWord w).memTop := Nat.le_add_right _ _

/-- While enabled, a step whose fetch would leave memory is `FetchOutOfRange` (R81). -/
theorem step_of_fetchFails (s : State) (he : s.enabled) (h : s.fetchFails = true) :
    step s = .next (s.fatal .fetchOutOfRange) := by
  obtain ⟨hrunning, hrefused⟩ := he
  simp only [step, hrunning, hrefused, h]
  rfl

/-- While enabled, a step whose fetch is in range and faults for its alignment is `misalignedFetch` (R82, log 6). -/
theorem step_of_fetchMisaligned (s : State) (he : s.enabled) (hin : s.fetchFails = false)
    (h : s.fetchMisaligned = true) : step s = .next (s.fatal .misalignedFetch) := by
  obtain ⟨hrunning, hrefused⟩ := he
  simp only [step, hrunning, hrefused, hin, h]
  rfl

end Sys2Proof.Machine

namespace Sys2Proof.Proofs

open Sys2Proof Sys2Proof.Machine

/-- Settles O1, by the format of the instruction's word. -/
theorem decodeReadsBackEveryEncodedInstruction : Obligations.DecodeReadsBackEveryEncodedInstruction :=
  decodeWord_encode

/-- Settles O2, by the three formats of a word. -/
theorem everyWordDecodesAndReencodesToItself : Obligations.EveryWordDecodesAndReencodesToItself :=
  encode_decodeWord

/-- Settles O5: the field's range says which operand it is, and extending an immediate keeps its value. -/
theorem operandTwoIsRegisterOrExtendedImmediate : Obligations.OperandTwoIsRegisterOrExtendedImmediate := by
  intro s raw
  refine ⟨fun r h => ?_, fun h hsign => ⟨?_, toInt_outside_registers_of_lt raw h⟩, fun h hzero => ?_⟩
  · rw [decodeOperand2_of_reg raw r h, State.op2]
  · rw [decodeOperand2_of_lt raw h, State.op2, hsign]
    exact BitVec.toInt_signExtend_of_le (by decide)
  · rw [decodeOperand2_of_lt raw h, State.op2, hzero]
    exact BitVec.toNat_setWidth_of_le (by decide)

/-- Settles O3: each word is a closed term, and the decoder is run on it. -/
theorem handwrittenWordsDecode : Obligations.HandwrittenWordsDecode := by
  unfold Obligations.HandwrittenWordsDecode
  decide

/-- Settles O4: the first four bytes stand for the word they were laid out from. -/
theorem byteDecoderTakesFourBytes : Obligations.ByteDecoderTakesFourBytes := by
  refine ⟨fun order w rest => ?_, decodeBytes_of_length_lt⟩
  rw [decodeBytes_append order _ rest (bytesOf_length order 4 w), wordOf_bytesOf_four]

/-- Settles O7: the loaded word is in range, is the one fetched, and loading it changes neither `PC0` nor what enables a
step. -/
theorem loadedWordIsRunByTheNextStep : Obligations.LoadedWordIsRunByTheNextStep := by
  intro s w henabled haligned hw
  rw [State.withFetchWord, Nat.mod_eq_of_lt hw,
    step_eq_exec (s.placeFetchWord (BitVec.ofNat 32 w)) henabled (s.placeFetchWord_inRange _) haligned,
    State.placeFetchWord_fetchWord]

/-- Settles O9: the fetch check answers before anything else of the step. -/
theorem fetchPastMemoryHalts : Obligations.FetchPastMemoryHalts :=
  fun s henabled hpast => step_of_fetchFails s henabled (decide_eq_true hpast)

/-- Settles O57: the fetch is in range, so the check of its alignment answers. -/
theorem misalignedFetchHaltsWhenConfigured : Obligations.MisalignedFetchHaltsWhenConfigured := by
  intro s henabled hin hfault hodd
  have hinRange : s.fetchFails = false := decide_eq_false hin.not_gt
  have hmisaligned : s.fetchMisaligned = true := by
    simp only [State.fetchMisaligned, hfault, decide_eq_true hodd]
    rfl
  exact step_of_fetchMisaligned s henabled hinRange hmisaligned

end Sys2Proof.Proofs
end

section
/-! PROOFS. ALU (40_alu.md). First what the flag engine and the shifts answer as one exact value each, then the two common
pseudocodes of R114 with Z and N said of the result; the obligations follow from these, an instruction each. -/

namespace Sys2Proof.Machine

/-! ### Sums and differences (R110, R115, R116) -/

/-- `AddWithCarry` answers the low 32 bits of the exact sum and its two out-of-range tests. -/
theorem addWithCarry_eq (a b : Word) (cin : Bool) :
    addWithCarry a b cin =
      { r := a + b + BitVec.ofNat 32 cin.toNat
        carry := decide (2 ^ 32 ≤ a.toNat + b.toNat + cin.toNat)
        overflow := decide (¬signedFits (a.toInt + b.toInt + cin.toNat)) } := by
  rw [← addWithCarry_r, ← addWithCarry_carry, ← addWithCarry_overflow]

/-- With no carry in, the exact sum is that of the operands (R120). -/
theorem addWithCarry_noCarryIn (a b : Word) :
    addWithCarry a b false =
      { r := a + b
        carry := decide (2 ^ 32 ≤ a.toNat + b.toNat)
        overflow := decide (¬signedFits (a.toInt + b.toInt)) } := by
  simp [addWithCarry_eq]

/-- The result of ADDC as a number (R122). -/
theorem toNat_add_carry (a b : Word) (cin : Bool) :
    (a + b + BitVec.ofNat 32 cin.toNat).toNat = (a.toNat + b.toNat + cin.toNat) % 2 ^ 32 := by
  simp [BitVec.toNat_add]

/-- The result of SUBC as a number: adding the complement and the carry subtracts with the borrow (R123). -/
theorem toNat_sub_borrow (a b : Word) (cin : Bool) :
    ((a + ~~~b + BitVec.ofNat 32 cin.toNat).toNat : Int) = (a.toNat - b.toNat - (1 - cin.toNat : Int)) % 2 ^ 32 := by
  have hb := b.isLt
  rw [toNat_add_carry, toNat_bnot]
  omega

/-- Adding the complement, the carry says "no borrow" and the overflow is that of the difference with the borrow (R123,
D12). -/
theorem addWithCarry_bnot (a b : Word) (cin : Bool) :
    addWithCarry a (~~~b) cin =
      { r := a + ~~~b + BitVec.ofNat 32 cin.toNat
        carry := decide (b.toNat + (!cin).toNat ≤ a.toNat)
        overflow := decide (¬signedFits (a.toInt - b.toInt - (!cin).toNat)) } := by
  have hb := b.isLt
  have hborrow : cin.toNat + (!cin).toNat = 1 := by cases cin <;> rfl
  have hcarry : 2 ^ 32 ≤ a.toNat + (2 ^ 32 - 1 - b.toNat) + cin.toNat ↔ b.toNat + (!cin).toNat ≤ a.toNat := by omega
  have hsum : a.toInt + (-b.toInt - 1) + cin.toNat = a.toInt - b.toInt - (!cin).toNat := by omega
  simp only [addWithCarry_eq, toNat_bnot, toInt_bnot, hcarry, hsum]

/-- The exact number that V tests for `x - y`: the difference, or, negating first, the sum with the negated word (R116). -/
def signedDifference (mode : SubCarry) (x y : Word) : Int :=
  match mode with
  | .fused => x.toInt - y.toInt
  | .negateFirst => x.toInt + (-y).toInt

/-- `x - y` answers the difference, "no borrow" (never for a `y` of 0 negated first), and the out-of-range
test of its exact signed number. -/
theorem subtract_eq (mode : SubCarry) (x y : Word) :
    subtract mode x y =
      { r := x - y
        carry := decide (y.toNat ≤ x.toNat ∧ (mode = .negateFirst → y ≠ 0))
        overflow := decide (¬signedFits (signedDifference mode x y)) } := by
  have hcarry : (subtract mode x y).carry = decide (y.toNat ≤ x.toNat ∧ (mode = .negateFirst → y ≠ 0)) := by
    cases mode with
    | fused => simp [subtract_fused_carry]
    | negateFirst => simp [subtract_negateFirst_carry, Bool.and_comm]
  have hoverflow : (subtract mode x y).overflow = decide (¬signedFits (signedDifference mode x y)) := by
    cases mode with
    | fused => exact subtract_fused_overflow x y
    | negateFirst => exact subtract_negateFirst_overflow x y
  rw [← subtract_r mode x y, ← hcarry, ← hoverflow]

/-! ### Shifts (R136, R137, R140 to R143) -/

/-- The shift by any amount, to which the default of `SHIFT_LARGE` extends the shifts by fewer than 32 (R137, D14). -/
def exactShift (op : ShiftOp) (a : Word) (n : Nat) : Word :=
  match op with
  | .ashr => a.sshiftRight n
  | .lshr => a >>> n
  | .ashl => a <<< n
  | .rotl => a.rotateLeft n

/-- A rotation as the model writes it, the amount 0 modulo 32 apart. -/
theorem rotateLeft_eq (a : Word) (n : Nat) :
    a.rotateLeft n = if n % 32 = 0 then a else (a <<< (n % 32)) ||| (a >>> (32 - n % 32)) := by
  rw [BitVec.rotateLeft_def]
  split
  · next h => rw [h, BitVec.shiftLeft_zero, BitVec.ushiftRight_eq_zero le_rfl, BitVec.or_zero]
  · rfl

/-- A signed shift by 32 or more leaves the sign in every bit. -/
theorem sshiftRight_of_le (a : Word) (n : Nat) (h : 32 ≤ n) :
    a.sshiftRight n = if a.msb then BitVec.allOnes 32 else 0 := by
  apply BitVec.eq_of_getLsbD_eq
  intro k hk
  rw [BitVec.getLsbD_sshiftRight, if_neg (by omega)]
  cases a.msb with
  | false => simp
  | true => rw [if_pos rfl, BitVec.getLsbD_allOnes]; simp [hk]

theorem shiftSmall_eq (op : ShiftOp) (a : Word) (n : Nat) (h : n < 32) : shiftSmall op a n = exactShift op a n := by
  cases op with
  | ashr | lshr | ashl => rfl
  | rotl => rw [exactShift, rotateLeft_eq, Nat.mod_eq_of_lt h, shiftSmall]

theorem shiftLargeDefault_eq (op : ShiftOp) (a n : Word) (h : 32 ≤ n.toNat) :
    shiftLargeDefault op a n = exactShift op a n.toNat := by
  cases op with
  | ashr => exact (sshiftRight_of_le a _ h).symm
  | lshr => exact (BitVec.ushiftRight_eq_zero h).symm
  | ashl => exact (BitVec.shiftLeft_eq_zero h).symm
  | rotl => exact (rotateLeft_eq a _).symm

/-- Below 32, or under the default of `SHIFT_LARGE`, a shift is the exact one (R136, R137). -/
theorem shift_eq_exactShift (mode : ShiftLarge) (op : ShiftOp) (a n : Word)
    (h : n.toNat < 32 ∨ mode = .specDefault) : shift mode op a n = exactShift op a n.toNat := by
  rw [shift]
  split
  · next hsmall => exact shiftSmall_eq op a _ hsmall
  · next hlarge =>
    rw [h.resolve_left hlarge]
    exact shiftLargeDefault_eq op a n (by omega)

/-- ASHR is floor division of the signed number (R140). -/
theorem exactShift_ashr_toInt (a : Word) (n : Nat) : (exactShift .ashr a n).toInt = a.toInt / 2 ^ n := by
  rw [exactShift, BitVec.toInt_sshiftRight, Int.shiftRight_eq_div_pow]
  norm_cast

/-- LSHR is division of the unsigned number (R141). -/
theorem exactShift_lshr_toNat (a : Word) (n : Nat) : (exactShift .lshr a n).toNat = a.toNat / 2 ^ n := by
  rw [exactShift, BitVec.toNat_ushiftRight, Nat.shiftRight_eq_div_pow]

/-- ASHL is multiplication modulo 2^32 (R142). -/
theorem exactShift_ashl_toNat (a : Word) (n : Nat) : (exactShift .ashl a n).toNat = a.toNat * 2 ^ n % 2 ^ 32 := by
  rw [exactShift, BitVec.toNat_shiftLeft, Nat.shiftLeft_eq]

/-- ROTL moves bit `k` to bit `k + n` modulo 32 (R143). -/
theorem exactShift_rotl_getLsbD (a : Word) (n k : Nat) (hk : k < 32) :
    (exactShift .rotl a n).getLsbD ((k + n) % 32) = a.getLsbD k := by
  rw [exactShift, BitVec.getLsbD_rotateLeft]
  by_cases hwrap : (k + n) % 32 < n % 32
  · have hbit : 32 - n % 32 + (k + n) % 32 = k := by omega
    simp [hwrap, hbit]
  · have hbit : (k + n) % 32 - n % 32 = k := by omega
    simp [hwrap, hbit, Nat.mod_lt]

/-! ### The two families of R114, Z and N said of the result -/

section Families

variable (f : RegForm) (s : State)

/-- The add/sub family writes the answer of its computation: the result, and with `c = 1` all four flags. -/
theorem addSubOp_writes (compute : Word → Word → Bool → AddResult) (res : AddResult)
    (hread : s.canRead (formSources f) = true) (hres : compute (s.reg f.src1) (s.op2 f.src2) s.sr.c = res) :
    ∃ t, addSubOp compute f s = .next t ∧
      s.Computes t f.dst res.r
        (if f.c then
          { s.sr with c := res.carry, v := res.overflow, z := decide (res.r = 0), n := decide (res.r.toInt < 0) }
        else s.sr) := by
  rw [← hres, ← zeroAt_word, ← negAt_word]
  exact addSubOp_computes compute f s hread

/-- A subtraction of the two operands, in either order, writes the difference, and with `c = 1` its flags: Z says that the
operands are equal. -/
theorem addSubOp_subtract_writes (x y : Word) (compute : Word → Word → Bool → AddResult)
    (hread : s.canRead (formSources f) = true)
    (hres : compute (s.reg f.src1) (s.op2 f.src2) s.sr.c = subtract s.config.subCarry x y) :
    ∃ t, addSubOp compute f s = .next t ∧
      s.Computes t f.dst (x - y)
        (if f.c then
          { s.sr with
            c := decide (y.toNat ≤ x.toNat ∧ (s.config.subCarry = .negateFirst → y ≠ 0))
            v := decide (¬signedFits (signedDifference s.config.subCarry x y))
            z := decide (x = y)
            n := decide ((x - y).toInt < 0) }
        else s.sr) := by
  have hzero : x = y ↔ x - y = 0 := sub_eq_zero.symm
  rw [decide_eq_decide.mpr hzero]
  exact addSubOp_writes f s compute _ hread (hres.trans (subtract_eq _ x y))

/-- The logical family and the shifts write a result of which whatever holds of their computation holds, and with `c = 1` Z
and N of it. -/
theorem logicOp_writes (compute : Word → Word → Word) (P : Word → Prop) (hread : s.canRead (formSources f) = true)
    (hP : P (compute (s.reg f.src1) (s.op2 f.src2))) :
    ∃ t r, logicOp compute f s = .next t ∧ P r ∧
      s.Computes t f.dst r
        (if f.c then { s.sr with z := decide (r = 0), n := decide (r.toInt < 0) } else s.sr) := by
  obtain ⟨t, hexec, hcomputes⟩ := logicOp_computes compute f s hread
  rw [zeroAt_word, negAt_word] at hcomputes
  exact ⟨t, _, hexec, hP, hcomputes⟩

/-- A shift writes a result of which, below 32 or under the default of `SHIFT_LARGE`, whatever holds of the exact shift
holds, and with `c = 1` Z and N of it. -/
theorem logicOp_shift_writes (op : ShiftOp) (P : Word → Prop) (hread : s.canRead (formSources f) = true)
    (hP : P (exactShift op (s.reg f.src1) (s.op2 f.src2).toNat)) :
    ∃ t r, logicOp (shift s.config.shiftLarge op) f s = .next t ∧
      ((s.op2 f.src2).toNat < 32 ∨ s.config.shiftLarge = .specDefault → P r) ∧
      s.Computes t f.dst r
        (if f.c then { s.sr with z := decide (r = 0), n := decide (r.toInt < 0) } else s.sr) := by
  refine logicOp_writes f s _ (fun r => (s.op2 f.src2).toNat < 32 ∨ s.config.shiftLarge = .specDefault → P r) hread
    fun hexact => ?_
  rwa [shift_eq_exactShift _ _ _ _ hexact]

end Families

end Sys2Proof.Machine

namespace Sys2Proof.Proofs

open Sys2Proof Sys2Proof.Machine

/-- Settles O21, by the exact sum without a carry in. -/
theorem addWritesSumAndFlags : Obligations.AddWritesSumAndFlags :=
  fun f s hread => addSubOp_writes f s (fun a b _ => addWithCarry a b false) _ hread (addWithCarry_noCarryIn _ _)

/-- Settles O22: the first operand less the second. -/
theorem subWritesDifferenceAndFlags : Obligations.SubWritesDifferenceAndFlags :=
  fun f s hread =>
    addSubOp_subtract_writes f s _ _ (fun a b _ => subtract s.config.subCarry a b) hread rfl

/-- Settles O23: the second operand less the first. -/
theorem subrWritesReverseDifferenceAndFlags : Obligations.SubrWritesReverseDifferenceAndFlags :=
  fun f s hread =>
    addSubOp_subtract_writes f s _ _ (fun a b _ => subtract s.config.subCarry b a) hread rfl

/-- Settles O24, by the exact sum with the old C flag. -/
theorem addcAddsTheCarryIn : Obligations.AddcAddsTheCarryIn := by
  intro f s hread
  obtain ⟨t, hexec, hcomputes⟩ := addSubOp_writes f s addWithCarry _ hread (addWithCarry_eq _ _ _)
  exact ⟨t, _, hexec, toNat_add_carry _ _ _, hcomputes⟩

/-- Settles O25, by the exact difference with the borrow. -/
theorem subcSubtractsTheBorrowIn : Obligations.SubcSubtractsTheBorrowIn := by
  intro f s hread
  obtain ⟨t, hexec, hcomputes⟩ := addSubOp_writes f s (fun a b c => addWithCarry a (~~~b) c) _ hread
    (addWithCarry_bnot _ _ _)
  exact ⟨t, _, hexec, toNat_sub_borrow _ _ _, hcomputes⟩

/-- Settles O26: after the ADD the sum and the second operand can be read, and their difference is the first. -/
theorem subUndoesAddAndAddFlagsAreExact : Obligations.SubUndoesAddAndAddFlagsAreExact := by
  intro s d x y hd hy hread
  obtain ⟨t, hadd, hsum⟩ := addWritesSumAndFlags ⟨d, true, x, .reg y⟩ s hread
  have hsumReg : t.reg d = s.reg x + s.reg y := (hsum.regs.reg d).trans (if_pos ⟨rfl, hd⟩)
  have hotherReg : t.reg y = s.reg y := (hsum.regs.reg y).trans (if_neg fun h => hy h.1)
  have hreadAfter : t.canRead [d, y] = true := by
    have hwritten : t.hasWritten d = true := (hsum.regs.written d).trans (if_pos ⟨rfl, hd⟩)
    have hsumRead : t.readable d = true := by simp [State.readable, hwritten]
    have hotherRead : t.readable y = true :=
      (hsum.regs.keeps hsum.elsewhere.config).readable y (List.all_eq_true.mp hread y (by simp))
    simp [State.canRead, hsumRead, hotherRead]
  obtain ⟨u, hsub, hdiff⟩ := subWritesDifferenceAndFlags ⟨d, true, d, .reg y⟩ t hreadAfter
  have hback : u.reg d = s.reg x :=
    calc u.reg d
        = t.reg d - t.reg y := (hdiff.regs.reg d).trans (if_pos ⟨rfl, hd⟩)
      _ = s.reg x + s.reg y - s.reg y := by rw [hsumReg, hotherReg]
      _ = s.reg x := add_sub_cancel_right _ _
  refine ⟨t, hadd, hsum.elsewhere.runState, ?_, ?_, ?_, u, hsub, hback, ?_⟩
  · rw [hsumReg, BitVec.toNat_add]
  · rw [hsum.sr]; rfl
  · rw [hsum.sr]; rfl
  · exact hdiff.elsewhere.runState.trans hsum.elsewhere.runState

/-- Settles O27: each computation is its function of the bits. -/
theorem andAndnOrXorWriteBitwiseResults : Obligations.AndAndnOrXorWriteBitwiseResults := by
  intro f s hread p hp
  simp only [List.mem_cons, List.not_mem_nil, or_false] at hp
  rcases hp with rfl | rfl | rfl | rfl
  · exact logicOp_writes f s (fun a b => a &&& b) _ hread fun k _ => BitVec.getLsbD_and
  · exact logicOp_writes f s (fun a b => a &&& ~~~b) _ hread fun k hk => by simp [hk]
  · exact logicOp_writes f s (fun a b => a ||| b) _ hread fun k _ => BitVec.getLsbD_or
  · exact logicOp_writes f s (fun a b => a ^^^ b) _ hread fun k _ => BitVec.getLsbD_xor

/-- Settles O28: each computation is its function of the first operand's bits and the complement of the second's. -/
theorem ornXornComplementOperandTwo : Obligations.OrnXornComplementOperandTwo := by
  intro f s hread p hp
  simp only [List.mem_cons, List.not_mem_nil, or_false] at hp
  rcases hp with rfl | rfl
  · exact logicOp_writes f s (fun a b => a ||| ~~~b) _ hread fun k hk => by simp [hk]
  · exact logicOp_writes f s (fun a b => a ^^^ ~~~b) _ hread fun k hk => by simp [hk, bne]

/-- Settles O29: where the amount is below 32 or the default continues it, each shift is the exact one. -/
theorem shiftsAreExactForEveryAmount : Obligations.ShiftsAreExactForEveryAmount := by
  intro f s hread a n p hp
  simp only [List.mem_cons, List.not_mem_nil, or_false] at hp
  rcases hp with rfl | rfl | rfl | rfl
  · exact logicOp_shift_writes f s .ashr _ hread (exactShift_ashr_toInt a n)
  · exact logicOp_shift_writes f s .lshr _ hread (exactShift_lshr_toNat a n)
  · exact logicOp_shift_writes f s .ashl _ hread (exactShift_ashl_toNat a n)
  · exact logicOp_shift_writes f s .rotl _ hread (exactShift_rotl_getLsbD a n)

end Sys2Proof.Proofs
end

section
/-! PROOFS. Memory access (41_memory_access.md). First the effective address and the loaded bits as numbers, then what the
common load and the common store leave when their access check passes; each obligation adds which extension, which size and
which width of the flags its instruction has. -/

namespace Sys2Proof.Machine

/-! ### The effective address and the bits read (R55, R58) -/

/-- The effective address as a number (R58). -/
theorem effAddr_toNat (s : State) (size : Nat) (f : RegForm) :
    (s.effAddr size f).toNat = ((s.reg f.src1).toNat + (s.op2 f.src2).toNat * size) % 2 ^ 32 := by
  simp [State.effAddr, BitVec.toNat_add, BitVec.toNat_mul]

/-- The bits a load takes from its `n` bytes stand for the number of those bytes. -/
theorem memRead_setWidth_toNat (s : State) (a : Word) (n : Nat) (hn : n ≤ 4) :
    ((s.memRead a n).setWidth (8 * n)).toNat = s.numberAt a.toNat n := by
  rw [BitVec.toNat_setWidth, memRead_toNat s a n hn, Nat.mod_eq_of_lt (numberAt_lt s _ n)]

/-- One byte stands for itself in either byte order (R55). -/
theorem numberAt_one (s : State) (a : Nat) : s.numberAt a 1 = (Memory.read s.mem a).toNat := by
  cases h : s.config.byteOrder <;> simp [State.numberAt, h, natOfBytes]

/-- Reading one byte reads the byte of memory. -/
theorem memRead_setWidth_byte (s : State) (a : Word) : (s.memRead a 1).setWidth 8 = Memory.read s.mem a.toNat :=
  BitVec.eq_of_toNat_eq ((memRead_setWidth_toNat s a 1 (by decide)).trans (numberAt_one s _))

/-- A byte is 0 when its number is. -/
theorem read_eq_zero_iff (s : State) (a : Nat) : Memory.read s.mem a = 0 ↔ s.numberAt a 1 = 0 := by
  rw [numberAt_one]
  exact BitVec.toNat_inj.symm

/-- A byte is negative in the upper half of its numbers (R158). -/
theorem read_toInt_neg_iff (s : State) (a : Nat) : (Memory.read s.mem a).toInt < 0 ↔ 2 ^ 7 ≤ s.numberAt a 1 := by
  rw [numberAt_one, BitVec.toInt_neg_iff]
  omega

/-! ### The extensions of a load (R156 to R159) -/

/-- Extension without a sign keeps the number (R157, R159). -/
theorem setWidth_word_eq_ofInt {w : Nat} (x : BitVec w) : x.setWidth 32 = BitVec.ofInt 32 (x.toNat : Int) := by
  rw [BitVec.ofInt_natCast, BitVec.ofNat_toNat]

/-- Extension of the sign from bit 15 takes the upper half of the halfwords as negative (R156). -/
theorem signExtend_halfword_eq_ofInt (x : BitVec 16) :
    x.signExtend 32 = BitVec.ofInt 32 (if x.toNat < 2 ^ 15 then (x.toNat : Int) else x.toNat - 2 ^ 16) := by
  have hsigned : x.toInt = if x.toNat < 2 ^ 15 then (x.toNat : Int) else x.toNat - 2 ^ 16 := by
    rw [BitVec.toInt_eq_toNat_cond]
    split <;> split <;> omega
  exact congrArg (BitVec.ofInt 32) hsigned

/-- Extension without a sign keeps the bits it extends. -/
theorem setWidth_setWidth_word {w : Nat} (x : BitVec w) (hw : w ≤ 32) : (x.setWidth 32).setWidth w = x := by
  rw [BitVec.setWidth_setWidth_of_le x hw, BitVec.setWidth_eq]

/-- Extension of the sign keeps the bits it extends. -/
theorem setWidth_signExtend_word {w : Nat} (x : BitVec w) (hw : w ≤ 32) : (x.signExtend 32).setWidth w = x := by
  apply BitVec.eq_of_getLsbD_eq
  intro i hi
  simp only [BitVec.getLsbD_setWidth, BitVec.getLsbD_signExtend, hi, hi.trans_le hw, decide_true, Bool.true_and, if_true]

/-! ### Z and N at the width of the access (R150) -/

/-- Z at a width depends on the low bits of that width only. -/
theorem zeroAt_congr {w : Nat} {v x : Word} (h : v.setWidth w = x.setWidth w) : zeroAt w v = zeroAt w x := by
  rw [zeroAt, zeroAt, h]

/-- N at a width depends on the low bits of that width only. -/
theorem negAt_congr {w : Nat} {v x : Word} (hw : 0 < w) (h : v.setWidth w = x.setWidth w) : negAt w v = negAt w x := by
  have hbits := congrArg BitVec.toNat h
  rw [BitVec.toNat_setWidth, BitVec.toNat_setWidth] at hbits
  rw [negAt_mod v w hw, negAt_mod x w hw, hbits]

/-! ### Loads and stores that pass their check (R151, R152) -/

section Performed

variable (size : Nat) (f : RegForm) (s : State)

/-- A load that passes its check writes the extended word, and with `c = 1` Z and N of it at the width of the access. -/
theorem loadOp_computes (extend : Word → Word) (hread : s.canRead (formSources f) = true)
    (hcheck : s.checkAccess (s.effAddr size f) size (spInvolved f) = none) :
    ∃ t, loadOp size extend f s = .next t ∧
      s.Computes t f.dst (extend (s.memRead (s.effAddr size f) size))
        (if f.c then
          { s.sr with
            z := zeroAt (8 * size) (extend (s.memRead (s.effAddr size f) size))
            n := negAt (8 * size) (extend (s.memRead (s.effAddr size f) size)) }
        else s.sr) := by
  rw [loadOp_of_canRead _ _ _ _ hread, hcheck]
  exact ⟨_, rfl, afterLoad_none s size extend f⟩

/-- A load whose extension keeps the bits it read writes the number they stand for under that extension, and with `c = 1` Z
and N of the bytes read. -/
theorem loadOp_writes_number (extend : Word → Word) (value : Int) (hpos : 0 < size) (hsize : size ≤ 4)
    (hread : s.canRead (formSources f) = true)
    (hcheck : s.checkAccess (s.effAddr size f) size (spInvolved f) = none)
    (hkeeps : ∀ raw, (extend raw).setWidth (8 * size) = raw.setWidth (8 * size))
    (hvalue : extend (s.memRead (s.effAddr size f) size) = BitVec.ofInt 32 value) :
    ∃ t v, loadOp size extend f s = .next t ∧ v = BitVec.ofInt 32 value ∧
      s.Computes t f.dst v
        (if f.c then
          { s.sr with
            z := decide (s.numberAt (s.effAddr size f).toNat size = 0)
            n := decide (2 ^ (8 * size - 1) ≤ s.numberAt (s.effAddr size f).toNat size) }
        else s.sr) := by
  obtain ⟨t, hexec, hcomputes⟩ := loadOp_computes size f s extend hread hcheck
  have hwidth : 0 < 8 * size := by omega
  have hnumber := memRead_setWidth_toNat s (s.effAddr size f) size hsize
  rw [BitVec.toNat_setWidth] at hnumber
  rw [zeroAt_congr (hkeeps _), negAt_congr hwidth (hkeeps _), zeroAt_eq, negAt_mod _ _ hwidth, hnumber] at hcomputes
  exact ⟨t, _, hexec, hvalue, hcomputes⟩

/-- A store that passes its check writes the low bytes of its data register, and no other byte (R152, R55). -/
theorem State.afterStore_mem_of_performed (hsize : size ≤ 4) :
    (s.afterStore size f none).numberAt (s.effAddr size f).toNat size = (s.reg f.dst).toNat % 2 ^ (8 * size) ∧
    s.SameMemoryOutside (s.afterStore size f none) (s.effAddr size f).toNat size := by
  constructor
  · calc (s.afterStore size f none).numberAt (s.effAddr size f).toNat size
        = (s.memWrite (s.effAddr size f) size (truncateTo size (s.reg f.dst))).numberAt (s.effAddr size f).toNat size := rfl
      _ = (s.reg f.dst).toNat % 2 ^ (8 * size) := by
        rw [numberAt_memWrite, truncateTo_toNat _ _ hsize, Nat.mod_mod]
  · exact fun x hx => read_memWrite_other s _ _ size x hx

/-- LEA and LEAS write the address as a number, and with `c = 1` Z and N of its low bits (R168, R169). -/
theorem leaOp_writes_address (hpos : 0 < size) (hread : s.canRead (formSources f) = true) :
    ∃ t ea, leaOp size f s = .next t ∧
      ea.toNat = ((s.reg f.src1).toNat + (s.op2 f.src2).toNat * size) % 2 ^ 32 ∧
      s.Computes t f.dst ea
        (if f.c then
          { s.sr with
            z := decide (ea.toNat % 2 ^ (8 * size) = 0)
            n := decide (2 ^ (8 * size - 1) ≤ ea.toNat % 2 ^ (8 * size)) }
        else s.sr) := by
  obtain ⟨t, hexec, hcomputes⟩ := leaOp_computes size f s hread
  rw [zeroAt_eq, negAt_mod _ _ (by omega)] at hcomputes
  exact ⟨t, _, hexec, effAddr_toNat s size f, hcomputes⟩

end Performed

end Sys2Proof.Machine

namespace Sys2Proof.Proofs

open Sys2Proof Sys2Proof.Machine

/-- Settles O30: a word is read whole, so that its extension is the identity. -/
theorem ldReadsTheWordInRange : Obligations.LdReadsTheWordInRange := by
  intro f s hread halign htop hsp
  have hcheck := (checkAccess_eq_none s _ 4 _ four_pos).mpr ⟨htop, hsp, halign⟩
  obtain ⟨t, hexec, hcomputes⟩ := loadOp_computes 4 f s (fun raw => raw) hread hcheck
  rw [zeroAt_word, negAt_word] at hcomputes
  exact ⟨t, _, hexec, effAddr_eq s 4 f, memRead_toNat s _ 4 le_rfl, hcomputes⟩

/-- Settles O31: the halfword read is the number of its two bytes, and either extension is of that halfword. -/
theorem ldhLduhReadTheHalfwordInRange : Obligations.LdhLduhReadTheHalfwordInRange := by
  intro f s hread halign htop hsp
  refine ⟨effAddr_eq s 2 f, fun p hp => ?_⟩
  have hcheck := (checkAccess_eq_none s _ 2 _ two_pos).mpr ⟨htop, hsp, halign⟩
  have hnumber : ((s.memRead (s.effAddr 2 f) 2).setWidth 16).toNat = s.numberAt (s.effAddr 2 f).toNat 2 :=
    memRead_setWidth_toNat s _ 2 (by decide)
  have hunsigned := setWidth_word_eq_ofInt ((s.memRead (s.effAddr 2 f) 2).setWidth 16)
  have hsigned := signExtend_halfword_eq_ofInt ((s.memRead (s.effAddr 2 f) 2).setWidth 16)
  rw [hnumber] at hunsigned hsigned
  simp only [List.mem_cons, List.not_mem_nil, or_false] at hp
  rcases hp with rfl | rfl
  · exact loadOp_writes_number 2 f s (fun raw => (raw.setWidth 16).signExtend 32) _ two_pos (by decide) hread hcheck
      (fun raw => setWidth_signExtend_word (raw.setWidth 16) (by decide)) hsigned
  · exact loadOp_writes_number 2 f s (fun raw => (raw.setWidth 16).setWidth 32) _ two_pos (by decide) hread hcheck
      (fun raw => setWidth_setWidth_word (raw.setWidth 16) (by decide)) hunsigned

/-- Settles O32: the byte read is the byte of memory, and either extension is of that byte. -/
theorem ldbLdubReadTheByteInRange : Obligations.LdbLdubReadTheByteInRange := by
  intro f s hread htop hsp
  refine ⟨(effAddr_eq s 1 f).trans (by rw [BitVec.one_mul]), fun p hp => ?_⟩
  have hcheck := (checkAccess_eq_none s _ 1 _ one_pos).mpr ⟨htop, hsp, dataMisaligned_byte s _⟩
  have hbyte := memRead_setWidth_byte s (s.effAddr 1 f)
  rw [decide_eq_decide.mpr (read_eq_zero_iff s (s.effAddr 1 f).toNat),
    decide_eq_decide.mpr (read_toInt_neg_iff s (s.effAddr 1 f).toNat)]
  simp only [List.mem_cons, List.not_mem_nil, or_false] at hp
  rcases hp with rfl | rfl
  · exact loadOp_writes_number 1 f s (fun raw => (raw.setWidth 8).signExtend 32) _ one_pos (by decide) hread hcheck
      (fun raw => setWidth_signExtend_word (raw.setWidth 8) (by decide)) (congrArg (BitVec.signExtend 32) hbyte)
  · exact loadOp_writes_number 1 f s (fun raw => (raw.setWidth 8).setWidth 32) _ one_pos (by decide) hread hcheck
      (fun raw => setWidth_setWidth_word (raw.setWidth 8) (by decide))
      ((congrArg (BitVec.setWidth 32) hbyte).trans (setWidth_word_eq_ofInt _))

/-- Settles O34, by what `MemWrite` leaves at its own addresses and at the others. -/
theorem storesWriteTheirBytesAndNothingElse : Obligations.StoresWriteTheirBytesAndNothingElse := by
  intro f s p hp hread halign htop hsp
  obtain ⟨hpos, hsize, hsources, hexec⟩ := exec_sizedStores f p hp
  have hcheck := (checkAccess_eq_none s _ p.2 _ hpos).mpr ⟨htop, hsp, halign⟩
  rw [hsources] at hread
  rw [hexec, storeOp_of_canRead _ _ _ hread, hcheck]
  have hends := s.afterStore_endsAccess p.2 f none
  obtain ⟨hbytes, hothers⟩ := State.afterStore_mem_of_performed p.2 f s hsize
  exact ⟨_, rfl, effAddr_eq s p.2 f, hbytes, hothers, s.afterStore_sameRegs _ _ _, s.afterStore_sr _ _ _ hpos hsize,
    hends.pipeline, hends.fixed, hends.runState, hends.memErrLog.trans (List.append_nil _)⟩

/-- Settles O38, by the address that both write at their own scale. -/
theorem leaLeasWriteTheAddress : Obligations.LeaLeasWriteTheAddress := by
  intro f s hread p hp
  simp only [List.mem_cons, List.not_mem_nil, or_false] at hp
  rcases hp with rfl | rfl
  · exact leaOp_writes_address 4 f s four_pos hread
  · exact leaOp_writes_address 2 f s two_pos hread

end Sys2Proof.Proofs
end

section
/-! PROOFS. Control flow (42_control_flow.md). First the word that has an illegal condition, how a transfer and a call end, and
the flags of a comparison as orders of its operands; then the two ways in which any instruction leaves the pipeline. The
obligations follow from these. -/

namespace Sys2Proof

/-! ### Words with an illegal condition (R184) -/

theorem opcodeField_toNat (w : Word) : (opcodeField w).toNat = w.toNat / 2 ^ 27 % 2 ^ 5 := by
  rw [opcodeField, BitVec.extractLsb'_toNat, Nat.shiftRight_eq_div_pow]

theorem dstField_toNat (w : Word) : (dstField w).toNat = w.toNat / 2 ^ 22 % 2 ^ 5 := by
  rw [dstField, BitVec.extractLsb'_toNat, Nat.shiftRight_eq_div_pow]

/-- Opcode 1 with the top bit of the condition set: bits 31 to 26 are 3. -/
theorem decodeWord_illegalCondition (w : Word) (h : w.toNat / 2 ^ 26 = 3) :
    decodeWord w = .bccIllegal (dstField w) (off22Field w) := by
  have hopcode : opcodeField w = 0x01 := by
    apply BitVec.eq_of_toNat_eq
    rw [opcodeField_toNat]
    change w.toNat / 2 ^ 27 % 2 ^ 5 = 1
    omega
  have hcond : 16 ≤ (dstField w).toNat := by
    rw [dstField_toNat]
    omega
  calc decodeWord w
      = decodeWord (packBranch 0x01 (dstField w) (off22Field w)) := by rw [← hopcode, packBranch_fields]
    _ = decodeBcc (dstField w) (off22Field w) := decodeWord_packBranch_one _ _
    _ = .bccIllegal (dstField w) (off22Field w) := decodeBcc_illegal _ _ hcond

end Sys2Proof

namespace Sys2Proof.Machine

/-! ### The fetched instruction (R80, R180) -/

/-- The four bytes at `PC0` decode to the instruction of the word a step fetches. -/
theorem decodeBytes_fetch (s : State) :
    decodeBytes s.config.byteOrder (Memory.readBytes s.mem s.pc0.toNat 4) = .ok (decodeWord s.fetchWord, []) := rfl

theorem not_enabled_of_halted {t : State} {reason : HaltReason} (h : t.runState = .halted reason) : ¬t.enabled := by
  rintro ⟨hrunning, -⟩
  rw [h] at hrunning
  cases hrunning

/-- A step that leaves the machine able to go on has run its instruction: no fetch check failed. -/
theorem exec_of_step_enabled {s t : State} (h : step s = .next t) (ht : t.enabled) :
    exec (decodeWord s.fetchWord) s = .next t := by
  obtain ⟨-, ⟨-, rfl⟩ | ⟨-, -, rfl⟩ | ⟨-, -, hexec⟩⟩ := step_next s t h
  · exact absurd ht (not_enabled_of_halted rfl)
  · exact absurd ht (not_enabled_of_halted rfl)
  · exact hexec

/-! ### How a transfer ends (R181, R187) -/

/-- A transfer to `target` has ended: at the old delay slot with `target` after it, or, out of range, halted without an
advance. -/
def State.TransferEnded (s t : State) (target : Word) : Prop :=
  if target.toNat < s.config.memLen then
    t.runState = s.runState ∧ t.pc0 = s.pc1 ∧ t.pc1 = target ∧ t.pc2 = target + 4
  else t.runState = .halted .branchTargetOutOfRange ∧ s.SamePipeline t

/-- From a state that differs in no slot, run state or configuration, a transfer ends as from `s`. -/
theorem State.SamePipeline.transfer_ended {s u : State} (h : s.SamePipeline u) (hrun : u.runState = s.runState)
    (hconfig : u.config = s.config) (target : Word) : s.TransferEnded (u.transfer target) target := by
  rw [State.TransferEnded, transfer_eq, hconfig]
  split
  · exact ⟨hrun, h.pc1, rfl, rfl⟩
  · exact ⟨rfl, h.pc0, h.pc1, h.pc2⟩

/-- A transfer that leaves the machine able to go on went to its target. -/
theorem State.TransferEnded.of_enabled {s t : State} {target : Word} (h : s.TransferEnded t target) (ht : t.enabled) :
    t.pc0 = s.pc1 ∧ t.pc1 = target ∧ t.pc2 = target + 4 := by
  unfold State.TransferEnded at h
  split at h
  · exact h.2
  · obtain ⟨hhalted, -⟩ := h
    exact absurd ht (not_enabled_of_halted hhalted)

/-! ### How a call ends (R190, R191, R195, R196) -/

/-- A call has linked, with `c` has restored IE, and has transferred or halted; nothing else has changed. -/
structure State.Called (s t : State) (link : Reg) (c : Bool) (target : Word) : Prop where
  link : s.SetsOnly t link (s.pc0 + 8)
  sr : t.sr = { s.sr with ie := if c then s.sr.pie else s.sr.ie }
  mem : s.SameMemory t
  fixed : s.SameFixed t
  memErrLog : t.memErrLog = s.memErrLog
  ended : s.TransferEnded t target

theorem writeLink_restoreIe_transfer_called (s : State) (link : Reg) (c : Bool) (target : Word) :
    s.Called (((s.writeLink link).restoreIe c).transfer target) link c target := by
  obtain ⟨-, hsr, hmem, hfixed, hlog⟩ := transfer_frame ((s.writeLink link).restoreIe c) target
  have hsame : s.SamePipeline ((s.writeLink link).restoreIe c) := ⟨rfl, rfl, rfl⟩
  refine ⟨writeLink_transfer_setsOnly s link c target, ?_, fun a => ?_,
    ⟨hfixed.refused, hfixed.config, hfixed.hostCalls⟩, hlog, hsame.transfer_ended rfl rfl target⟩
  · rw [hsr]
    cases c <;> rfl
  · rw [hmem]
    rfl

/-- BSR is a call that restores nothing (R190). -/
theorem exec_bsr_called (link : Reg) (off : BitVec 22) (s : State) :
    ∃ t, exec (.bsr link off) s = .next t ∧ s.Called t link false (s.relativeTarget off) :=
  ⟨_, exec_bsr_eq link off s, writeLink_restoreIe_transfer_called s link false (s.relativeTarget off)⟩

/-- JSR is a call whenever its operands can be read (R195). -/
theorem exec_jsr_called (f : RegForm) (s : State) (hread : s.canRead (formSources f) = true) :
    ∃ t, exec (.jsr f) s = .next t ∧ s.Called t f.dst f.c (s.reg f.src1 + 4 * s.op2 f.src2) := by
  rw [exec_jsr_eq, s.guardReads_of_canRead _ _ hread]
  exact ⟨_, rfl, writeLink_restoreIe_transfer_called s f.dst f.c _⟩

/-- A BSR that leaves the machine able to go on is followed by its delay slot and then by its target (R182). -/
theorem bsr_of_enabled {link : Reg} {off : BitVec 22} {s t : State} (h : exec (.bsr link off) s = .next t)
    (ht : t.enabled) :
    t.pc0 = s.pc1 ∧ t.pc1 = s.relativeTarget off ∧ t.pc2 = s.relativeTarget off + 4 := by
  obtain ⟨t', hexec, hcalled⟩ := exec_bsr_called link off s
  rw [h] at hexec
  cases hexec
  exact hcalled.ended.of_enabled ht

/-! ### The pipeline after any instruction (R181, R232) -/

/-- The run cannot go on, and the pipeline stands as before. -/
structure State.Stopped (s t : State) : Prop where
  pipeline : s.SamePipeline t
  notEnabled : ¬t.enabled

/-- The run goes on one instruction further: after the delay slot comes what stood after it, or `target`. -/
structure State.MovedOn (s t : State) (target : Option Word) : Prop where
  runState : t.runState = s.runState
  pc0 : t.pc0 = s.pc1
  pc1 : t.pc1 = s.pc2 ∨ target = some t.pc1
  pc2 : t.pc2 = t.pc1 + 4

section Pipeline

variable {s e t : State}

theorem State.SamePipeline.fatal_stopped (h : s.SamePipeline e) (reason : HaltReason) : s.Stopped (e.fatal reason) :=
  ⟨⟨h.pc0, h.pc1, h.pc2⟩, not_enabled_of_halted rfl⟩

/-- The mark of a refusal keeps a step from being enabled, though the run state stands (R33). -/
theorem State.SamePipeline.refuse_stopped (h : s.SamePipeline e) : s.Stopped e.refuse :=
  ⟨⟨h.pc0, h.pc1, h.pc2⟩, nofun⟩

theorem State.TransferEnded.stopped_or_movedOn {target : Word} (h : s.TransferEnded t target) :
    s.Stopped t ∨ s.MovedOn t (some target) := by
  unfold State.TransferEnded at h
  split at h
  · obtain ⟨hrun, hpc0, rfl, hpc2⟩ := h
    exact .inr ⟨hrun, hpc0, .inr rfl, hpc2⟩
  · obtain ⟨hhalted, hpipeline⟩ := h
    exact .inl ⟨hpipeline, not_enabled_of_halted hhalted⟩

/-- An answered call moves on; a refused call, an exit and a call that may not read its arguments do not (R245). -/
theorem State.SamePipeline.callHost_stopped_or_movedOn (h : s.SamePipeline e) (hrun : e.runState = s.runState)
    (num : Word) (target : Option Word) :
    s.Stopped (e.callHost num) ∨ s.MovedOn (e.callHost num) target := by
  rcases callHost_cases e num with ⟨-, he⟩ | ⟨-, he⟩ | ⟨svc, -, -, ⟨-, he⟩ | ⟨-, he⟩⟩ <;> rw [he]
  · exact .inl h.refuse_stopped
  · exact .inl ⟨⟨h.pc0, h.pc1, h.pc2⟩, nofun⟩
  · exact .inl (h.fatal_stopped _)
  · obtain ⟨a, bytes, v, hanswer, -, -, -⟩ := hostAnswer_eq e svc
    rw [hanswer]
    exact .inr ⟨hrun, h.pc1, .inl h.pc2, rfl⟩

theorem State.SamePipeline.afterTrap_stopped_or_movedOn (h : s.SamePipeline e) (hrun : e.runState = s.runState)
    (f : RegForm) (target : Option Word) :
    s.Stopped (e.afterTrap f) ∨ s.MovedOn (e.afterTrap f) target := by
  rcases afterTrap_cases e f with he | ⟨-, he⟩ | ⟨num, -, -, he⟩ <;> rw [he]
  · exact .inl (h.fatal_stopped _)
  · exact .inl (h.fatal_stopped _)
  · exact h.callHost_stopped_or_movedOn hrun num target

/-- Every shape an instruction ends in has stopped where it stood or moved on. -/
theorem ExecTo.stopped_or_movedOn {i : Instr} (h : ExecTo s i t) :
    s.Stopped t ∨ s.MovedOn t (i.transferTarget s) := by
  have hsame : s.SamePipeline s := ⟨rfl, rfl, rfl⟩
  have hentry : s.SamePipeline s.trapEntry := ⟨rfl, rfl, rfl⟩
  cases h with
  | compute | load | store | notTaken => exact .inr ⟨rfl, rfl, .inl rfl, rfl⟩
  | taken _ target _ htarget =>
    rw [htarget]
    exact (hsame.transfer_ended rfl rfl target).stopped_or_movedOn
  | bsr link off =>
    exact (writeLink_restoreIe_transfer_called s link false (s.relativeTarget off)).ended.stopped_or_movedOn
  | jsr f => exact (writeLink_restoreIe_transfer_called s f.dst f.c _).ended.stopped_or_movedOn
  | checked | illegal | unread => exact .inl (hsame.fatal_stopped _)
  | trap0 => exact .inl (hentry.fatal_stopped _)
  | trap f => exact hentry.afterTrap_stopped_or_movedOn rfl f none
  | refuse => exact .inl hsame.refuse_stopped

end Pipeline

/-! ### Comparisons (R116, R121, R185) -/

/-- Flags as a subtraction of `b` from `a` leaves them, each as the order of the operands that it tells. -/
structure StatusReg.Compares (sr : StatusReg) (a b : Word) : Prop where
  carry : sr.c = true ↔ b.toNat ≤ a.toNat
  zero : sr.z = true ↔ a = b
  less : sr.n ≠ sr.v ↔ a.toInt < b.toInt

/-- N says the sign of the exact difference, and V that it says the wrong one. -/
theorem sub_neg_ne_overflow_iff (a b : Word) :
    decide ((a - b).toInt < 0) ≠ decide (¬signedFits (a.toInt - b.toInt)) ↔ a.toInt < b.toInt := by
  have ha := a.toInt_lt
  have ha' := a.le_toInt
  have hb := b.toInt_lt
  have hb' := b.le_toInt
  rw [BitVec.toInt_sub, Int.bmod_def, ne_eq, decide_eq_decide, signedFits]
  split <;> omega

/-- What SUB with `c = 1` leaves in the flags under the fused setting (R121). -/
theorem sub_compares (f : RegForm) (s t : State) (hc : f.c = true) (hfused : s.config.subCarry = .fused)
    (hread : s.canRead (formSources f) = true) (h : exec (.sub f) s = .next t) :
    t.sr.Compares (s.reg f.src1) (s.op2 f.src2) := by
  obtain ⟨t', hexec, hcomputes⟩ :=
    addSubOp_subtract_writes f s _ _ (fun a b _ => subtract s.config.subCarry a b) hread rfl
  have ht : t = t' := Host.Outcome.next.inj (h.symm.trans hexec)
  rw [← ht, hfused, if_pos hc] at hcomputes
  rw [hcomputes.sr]
  exact ⟨by simp, by simp, sub_neg_ne_overflow_iff _ _⟩

namespace StatusReg.Compares

variable {sr : StatusReg} {a b : Word}

theorem noCarry (h : sr.Compares a b) : sr.c = false ↔ a.toNat < b.toNat := by
  rw [← Bool.not_eq_true, h.carry, not_le]

theorem notZero (h : sr.Compares a b) : sr.z = false ↔ a ≠ b := by
  rw [← Bool.not_eq_true, h.zero]

theorem notLess (h : sr.Compares a b) : sr.n = sr.v ↔ b.toInt ≤ a.toInt := by
  rw [← not_lt, ← h.less, not_not]

theorem signedGreater (h : sr.Compares a b) : sr.z = false ∧ sr.n = sr.v ↔ b.toInt < a.toInt := by
  rw [h.notZero, h.notLess, ← BitVec.toInt_ne]
  omega

theorem signedLessOrEqual (h : sr.Compares a b) : sr.z = true ∨ sr.n ≠ sr.v ↔ a.toInt ≤ b.toInt := by
  rw [h.zero, h.less, ← BitVec.toInt_inj]
  omega

theorem unsignedGreater (h : sr.Compares a b) : sr.c = true ∧ sr.z = false ↔ b.toNat < a.toNat := by
  rw [h.carry, h.notZero, ← BitVec.toNat_ne_iff_ne]
  omega

theorem unsignedLessOrEqual (h : sr.Compares a b) : sr.c = false ∨ sr.z = true ↔ a.toNat ≤ b.toNat := by
  rw [h.noCarry, h.zero, ← BitVec.toNat_inj]
  omega

end StatusReg.Compares

/-! ### Conditional branches (R185, R186) -/

/-- The state after a conditional branch whose target is in range (R186). -/
def State.branched (s : State) (off : BitVec 22) (taken : Bool) : State :=
  if taken then { s with pc0 := s.pc1, pc1 := s.relativeTarget off, pc2 := s.relativeTarget off + 4 }
  else { s with pc0 := s.pc1, pc1 := s.pc2, pc2 := s.pc2 + 4 }

/-- Each conditional branch ends as the test of its row says (R185, R186, R189). -/
theorem exec_conditional_eq (p : (BitVec 22 → Instr) × (StatusReg → Bool)) (hp : p ∈ conditionTable)
    (off : BitVec 22) (s : State) :
    exec (p.1 off) s = .next
      (if (p.2 s.sr = true ∨ s.config.branchCheckNotTaken = true) ∧
          s.config.memLen ≤ (s.relativeTarget off).toNat then
        { s with runState := .halted .branchTargetOutOfRange }
      else s.branched off (p.2 s.sr)) := by
  obtain ⟨cond, hexec, htest⟩ := exec_conditional p hp
  rw [hexec, branchOp_eq, htest]
  rfl

/-- With its target in range, the conditional branch of row `k` is taken exactly when its test holds. -/
theorem exec_conditional_inRange {off : BitVec 22} {s : State} (hin : (s.relativeTarget off).toNat < s.config.memLen)
    (k : Nat) {p : (BitVec 22 → Instr) × (StatusReg → Bool)} (hp : conditionTable[k]? = some p) {taken : Bool}
    (htest : p.2 s.sr = taken) : exec (p.1 off) s = .next (s.branched off taken) := by
  rw [exec_conditional_eq p (List.mem_of_getElem? hp), if_neg fun h => hin.not_ge h.2, htest]

end Sys2Proof.Machine

namespace Sys2Proof.Proofs

open Sys2Proof Sys2Proof.Machine

/-- Settles O16: a step has stopped where it stood, or moved on. -/
theorem completedStepsAdvanceAndHaltingStepsDoNot : Obligations.CompletedStepsAdvanceAndHaltingStepsDoNot := by
  intro s t h
  have hends : s.Stopped t ∨ s.MovedOn t ((decodeWord s.fetchWord).transferTarget s) := by
    rcases step_to s t h with ⟨reason, rfl⟩ | he
    · exact .inl (State.SamePipeline.fatal_stopped ⟨rfl, rfl, rfl⟩ reason)
    · exact he.stopped_or_movedOn
  obtain ⟨⟨hrunning, -⟩, -⟩ := step_next s t h
  rcases hends with hstop | hmove
  · exact ⟨fun ht => absurd ht hstop.notEnabled, fun _ _ => hstop.pipeline⟩
  · refine ⟨fun _ => ⟨hmove.pc0, hmove.pc2, hmove.pc1⟩, fun reason hhalted => ?_⟩
    rw [hmove.runState, hrunning] at hhalted
    cases hhalted

/-- Settles O41, by the row of the table and the common meaning of the branches. -/
theorem conditionalBranchesTakeTheirCondition : Obligations.ConditionalBranchesTakeTheirCondition :=
  exec_conditional_eq

/-- Settles O42: each row's test is an order of the two operands, read from the flags of their comparison. -/
theorem branchesAfterCompareOrderTheOperands : Obligations.BranchesAfterCompareOrderTheOperands := by
  intro f s t hc hfused hread h off hin
  have hcmp := sub_compares f s t hc hfused hread h
  exact ⟨exec_conditional_inRange hin 2 rfl (decide_eq_decide.mpr hcmp.signedGreater),
    exec_conditional_inRange hin 3 rfl (decide_eq_decide.mpr hcmp.signedLessOrEqual),
    exec_conditional_inRange hin 4 rfl (decide_eq_decide.mpr hcmp.notLess),
    exec_conditional_inRange hin 5 rfl (decide_eq_decide.mpr hcmp.less),
    exec_conditional_inRange hin 6 rfl (decide_eq_decide.mpr hcmp.unsignedGreater),
    exec_conditional_inRange hin 7 rfl (decide_eq_decide.mpr hcmp.unsignedLessOrEqual),
    exec_conditional_inRange hin 9 rfl (decide_eq_decide.mpr hcmp.carry),
    exec_conditional_inRange hin 8 rfl (decide_eq_decide.mpr hcmp.noCarry),
    exec_conditional_inRange hin 13 rfl (decide_eq_decide.mpr hcmp.zero),
    exec_conditional_inRange hin 12 rfl (decide_eq_decide.mpr hcmp.notZero)⟩

/-- Settles O43: such a word decodes to the illegal branch, which halts where it stands. -/
theorem branchConditionsAboveFifteenHalt : Obligations.BranchConditionsAboveFifteenHalt := by
  refine ⟨fun cond off s => rfl, fun w s h => ?_⟩
  rw [decodeWord_illegalCondition w h]
  rfl

/-- Settles O44: the link write of a call stands, however its transfer ends. -/
theorem callsLinkPastTheDelaySlotWhateverTheOutcome : Obligations.CallsLinkPastTheDelaySlotWhateverTheOutcome := by
  refine ⟨fun link off s => ?_, fun f s hread => ?_⟩
  · obtain ⟨t, hexec, hcalled⟩ := exec_bsr_called link off s
    exact ⟨t, hexec, hcalled.link⟩
  · obtain ⟨t, hexec, hcalled⟩ := exec_jsr_called f s hread
    exact ⟨t, hexec, hcalled.link⟩

/-- Settles O45: BSR is a call to a relative target. -/
theorem bsrLinksThenTransfersOrHalts : Obligations.BsrLinksThenTransfersOrHalts := by
  intro link off s
  obtain ⟨t, hexec, hcalled⟩ := exec_bsr_called link off s
  exact ⟨t, hexec, hcalled.link, hcalled.sr, hcalled.mem, hcalled.fixed, hcalled.memErrLog, hcalled.ended⟩

/-- Settles O46: JSR is a call to a target read from the old registers. -/
theorem jsrLinksRestoresAndTransfersOrHalts : Obligations.JsrLinksRestoresAndTransfersOrHalts := by
  intro f s hread
  obtain ⟨t, hexec, hcalled⟩ := exec_jsr_called f s hread
  exact ⟨t, hexec, hcalled.link, hcalled.sr, hcalled.mem, hcalled.fixed, hcalled.memErrLog, hcalled.ended⟩

/-- Settles O47: the BSR puts its target after the delay slot, and the completed step after it advances to that target. -/
theorem delaySlotRunsThenTheTarget : Obligations.DelaySlotRunsThenTheTarget := by
  intro link off s t u hbsr ht hstep hu
  obtain ⟨htpc0, htpc1, htpc2⟩ := bsr_of_enabled hbsr ht
  obtain ⟨hadvanced, -⟩ := completedStepsAdvanceAndHaltingStepsDoNot t u hstep
  obtain ⟨hupc0, -, hupc1⟩ := hadvanced hu
  refine ⟨htpc0, hupc0.trans htpc1, fun hnone => ?_, fun link' off' hdecode => ?_⟩
  · rw [hnone] at hupc1
    rcases hupc1 with hnext | htarget
    · exact hnext.trans htpc2
    · cases htarget
  · have hexec := exec_of_step_enabled hstep hu
    rw [hdecode] at hexec
    obtain ⟨-, htarget, -⟩ := bsr_of_enabled hexec hu
    exact htarget

/-- Settles O6: the bytes decode to the fetched word's instruction, and with both fetch checks passed the step is its
meaning. -/
theorem stepRunsTheDecodedInstruction : Obligations.StepRunsTheDecodedInstruction := by
  intro s i henabled hin haligned _ hdecode
  rw [decodeBytes_fetch] at hdecode
  cases hdecode
  exact step_eq_exec s henabled hin haligned

end Sys2Proof.Proofs
end

section
/-! PROOFS. Traps (43_trap.md, 60_exceptions.md). First the words of the undescribed opcodes, then the two ways in which a TRAP
leaves its envelope and what it is inside it: the call of the host with its number. Last what a host's answer changes. The
obligations follow from these. -/

namespace Sys2Proof

/-! ### Words of an undescribed opcode (R220) -/

theorem decodeWord_undescribed (w : Word) (h : w.toNat / 2 ^ 27 = 0x1C ∨ w.toNat / 2 ^ 27 = 0x1D) :
    decodeWord w = .op1C (decodeRegForm w) ∨ decodeWord w = .op1D (decodeRegForm w) := by
  have hopcode : (opcodeField w).toNat = w.toNat / 2 ^ 27 := by
    rw [opcodeField_toNat]
    omega
  unfold decodeWord
  rw [hopcode]
  rcases h with h | h <;> rw [h]
  · exact .inl rfl
  · exact .inr rfl

end Sys2Proof

namespace Sys2Proof.Machine

/-! ### A trap's entry (R211) -/

/-- The entry makes its saves and leaves r1. -/
theorem trapEntry_saves (s : State) : s.TrapSaved s.trapEntry ∧ s.SameR1 s.trapEntry := by
  obtain ⟨hsaved, hr1⟩ := trapSaved_fatal s .illegalOpcode
  exact ⟨hsaved, hr1.reg, hr1.written⟩

/-! ### Operands that name no number (R212) -/

theorem syscallNumber_reg_eq_none_iff (s : State) (r : Reg) :
    s.syscallNumber (.reg r) = none ↔ r.val < 1 ∨ 5 < r.val ∨ s.reg r = 0 := by
  rw [State.syscallNumber, ite_eq_right_iff]
  simp only [reduceCtorEq, imp_false, ne_eq, not_and_or, not_not, Nat.not_le]

theorem syscallNumber_imm_eq_none_iff (s : State) (v : BitVec 16) :
    s.syscallNumber (.imm v) = none ↔ v.toNat < 1 ∨ 255 < v.toNat := by
  rw [State.syscallNumber, ite_eq_right_iff]
  simp only [reduceCtorEq, imp_false]
  omega

theorem canRead_trapSources_reg_iff (s : State) (r : Reg) :
    s.canRead (trapSources (.reg r)) = true ↔ r.val < 1 ∨ 5 < r.val ∨ s.readable r = true := by
  rw [trapSources]
  split
  · next hin =>
    obtain ⟨hlow, hhigh⟩ := hin
    rw [or_iff_right hlow.not_gt, or_iff_right hhigh.not_gt, State.canRead, List.all_cons, List.all_nil, Bool.and_true]
  · next hout =>
    have houtside : r.val < 1 ∨ 5 < r.val := by omega
    exact iff_of_true rfl (houtside.imp_right .inl)

/-! ### A TRAP outside its envelope (R212, R213) -/

/-- A word over the limit halts right after the entry. -/
theorem afterTrap_of_overLimit (s : State) (f : RegForm)
    (h : s.config.trapWordLimit.toNat < (encode (.trap f)).toNat) :
    s.trapEntry.trapHangs f = false ∧ s.trapEntry.afterTrap f = s.trapEntry.fatal .illegalOpcode := by
  have hlimit : s.trapEntry.trapWordTooLarge f = true := decide_eq_true h
  constructor
  · unfold State.trapHangs
    split
    · rfl
    · rw [hlimit, Bool.not_true, Bool.and_false]
  · rw [State.afterTrap, if_pos hlimit]

/-- An operand that can be read and names no number halts right after the entry, whatever the word. -/
theorem afterTrap_of_noNumber (s : State) (f : RegForm) (hread : s.canRead (trapSources f.src2) = true)
    (hnone : s.syscallNumber f.src2 = none) :
    s.trapEntry.trapHangs f = false ∧ s.trapEntry.afterTrap f = s.trapEntry.fatal .illegalOpcode := by
  have hentryNone := (trapEntry_syscallNumber s f.src2).trans hnone
  have hentryRead := (trapEntry_canRead s _ (trapSources_range f.src2)).trans hread
  constructor
  · rw [State.trapHangs, hentryNone]
  · rw [State.afterTrap, State.guardReads_of_canRead _ _ _ hentryRead, State.resolveTrap, hentryNone]
    exact ite_self _

/-! ### A TRAP inside its envelope (R212, R245) -/

/-- Inside its envelope a TRAP is its entry and then the host's call with its number. -/
theorem exec_trap_of_number (s : State) (f : RegForm) (num : Word) (h : s.TrapNumber f num) :
    exec (.trap f) s =
      if s.trapEntry.callHangs num then .fault .hostNeverReturns else .next (s.trapEntry.callHost num) := by
  have hlimit : s.trapEntry.trapWordTooLarge f = false := decide_eq_false (Nat.not_lt.mpr h.1)
  obtain ⟨hsources, hsyscall⟩ := h.resolves
  have hentrySyscall := (trapEntry_syscallNumber s f.src2).trans hsyscall
  have hentrySources := (trapEntry_canRead s _ (trapSources_range f.src2)).trans hsources
  have hhangs : s.trapEntry.trapHangs f = s.trapEntry.callHangs num := by
    simp only [State.trapHangs, hentrySyscall, hentrySources, hlimit, Bool.not_false, Bool.and_true]
  have hafter : s.trapEntry.afterTrap f = s.trapEntry.callHost num := by
    simp only [State.afterTrap, hlimit, Bool.false_eq_true, if_false, State.guardReads_of_canRead _ _ _ hentrySources,
      State.resolveTrap, hentrySyscall]
  show execTrap f s = _
  rw [execTrap, hhangs, hafter]

/-! ### The host's call (R245) -/

/-- Number 1 is EXIT under every configuration: it always comes back, with the run ended. -/
theorem callHost_one (e : State) : e.callHangs 1 = false ∧ e.callHost 1 = e.exit.countCall := by
  have hsvc : Config.serviceOf e.config 1 = some .exit := if_pos rfl
  exact ⟨by rw [State.callHangs, hsvc], by rw [State.callHost, hsvc]⟩

/-- Only a console read with a good descriptor may never come back. -/
theorem consoleRead_of_callHangs (e : State) (num : Word) (svc : Service)
    (hsvc : Config.serviceOf e.config num = some svc) (h : e.callHangs num = true) :
    (svc = .fgets ∨ svc = .fgetc) ∧ e.badDescriptor svc = false := by
  rw [State.callHangs, hsvc] at h
  cases svc with
  | fgets | fgetc =>
    simp only [Bool.and_eq_true, Bool.not_eq_true'] at h
    simp [h]
  | exit | fflush | fputs | fputc => cases h

/-- A service that can read its arguments answers, and the pipeline advances. -/
theorem callHost_of_canReadArgs (e : State) (num : Word) (svc : Service) (hexit : svc ≠ .exit)
    (hsvc : Config.serviceOf e.config num = some svc) (hread : e.canRead (Service.args svc) = true) :
    e.callHost num = (e.hostAnswer svc).countCall.advance := by
  rw [← e.guardReads_of_canRead _ (e.hostAnswer svc).countCall.advance hread, State.callHost, hsvc]
  cases svc with
  | exit => exact absurd rfl hexit
  | fflush | fputs | fgets | fputc | fgetc => rfl

/-- The entry does not touch a service's descriptor, which stands in r1 to r3. -/
theorem trapEntry_badDescriptor (s : State) (svc : Service) : s.trapEntry.badDescriptor svc = s.badDescriptor svc := by
  unfold State.badDescriptor
  split
  · rfl
  · next r hfd =>
    have hlow : r.val < 30 := by
      cases svc <;> cases hfd <;> decide
    rw [s.trapEntry_reg_low r hlow]

/-- The byte at `x` is none that a service may store to: it is outside FGETS's buffer, and outside the errno word where the
descriptor is bad. -/
def State.OutsideHostWrites (s : State) (svc : Service) (x : Nat) : Prop :=
  (svc = .fgets → s.badDescriptor svc = false → x < (s.reg 1).toNat ∨ (s.reg 1).toNat + (s.reg 2).toNat ≤ x) ∧
  ∀ cell, s.config.errnoCell = some cell → s.badDescriptor svc = true → x < cell.toNat ∨ cell.toNat + 4 ≤ x

/-- The entry does not move the host's buffers. -/
theorem State.OutsideHostWrites.trapEntry {s : State} {svc : Service} {x : Nat} (h : s.OutsideHostWrites svc x) :
    s.trapEntry.OutsideHostWrites svc x := by
  unfold State.OutsideHostWrites
  rw [trapEntry_badDescriptor, s.trapEntry_reg_low 1 (by decide), s.trapEntry_reg_low 2 (by decide)]
  exact h

/-- A service has answered in r1, -1 on a bad descriptor, and in the memory it may store to; nothing else has changed. -/
structure State.HostAnswered (e t : State) (svc : Service) : Prop where
  regs : ∃ v, e.SetsOnly t 1 v ∧ (e.badDescriptor svc = true → v = 0xFFFFFFFF)
  mem : ∀ x, e.OutsideHostWrites svc x → Memory.read t.mem x = Memory.read e.mem x
  sr : t.sr = e.sr
  pipeline : e.SamePipeline t
  runState : t.runState = e.runState
  fixed : e.SameFixed t
  memErrLog : t.memErrLog = e.memErrLog

theorem hostAnswer_hostAnswered (e : State) (svc : Service) : e.HostAnswered (e.hostAnswer svc) svc := by
  obtain ⟨a, bytes, v, hanswer, -, hbad, hwhere⟩ := hostAnswer_eq e svc
  rw [hanswer]
  refine ⟨⟨v, ⟨State.setReg_reg _ 1 v, State.setReg_hasWritten _ 1 v⟩, hbad⟩, fun x hx => ?_, rfl, ⟨rfl, rfl, rfl⟩, rfl,
    ⟨rfl, rfl, rfl⟩, rfl⟩
  obtain ⟨hbuffer, herrno⟩ := hx
  rcases hwhere with rfl | ⟨hdesc, cell, hcell, rfl, hlen⟩ | ⟨hdesc, hfgets, rfl, hlen⟩
  · rfl
  · have hout := herrno cell hcell hdesc
    exact Memory.read_writeBytes_other _ _ _ _ (by omega)
  · have hout := hbuffer hfgets hdesc
    exact Memory.read_writeBytes_other _ _ _ _ (by omega)

/-- What a service answers after a trap's entry still holds what the trap saved. -/
theorem State.HostAnswered.trapSaved {s t : State} {svc : Service} (h : s.trapEntry.HostAnswered t svc) :
    s.TrapSaved t := by
  obtain ⟨v, hregs, -⟩ := h.regs
  exact trapSaved_of_entry s t h.sr (fun r hr => by rw [hregs.reg, if_neg fun hc => hr hc.1])
    fun r hr => by rw [hregs.written, if_neg fun hc => hr hc.1]

end Sys2Proof.Machine

namespace Sys2Proof.Proofs

open Sys2Proof Sys2Proof.Machine

/-- Settles O52: inside its envelope the TRAP is the host's call, which hangs only as a console read and otherwise leaves the
answer of its service. -/
theorem servedTrapChangesOnlyWhatTheHostMay : Obligations.ServedTrapChangesOnlyWhatTheHostMay := by
  intro f s num svc hnum hne hlookup hexit hread
  have hsvc : Config.serviceOf s.trapEntry.config num = some svc := by
    rw [State.trapEntry_config, Config.serviceOf, if_neg hne, hlookup]
  have hargs := (trapEntry_canRead s _ fun r hr => (Service.args_range svc r hr).2).trans hread
  have hexec := exec_trap_of_number s f num hnum
  cases hhangs : s.trapEntry.callHangs num with
  | true =>
    rw [hhangs, if_pos rfl] at hexec
    obtain ⟨hconsole, hdesc⟩ := consoleRead_of_callHangs _ num svc hsvc hhangs
    rw [trapEntry_badDescriptor] at hdesc
    exact .inl ⟨hconsole, hdesc, hexec⟩
  | false =>
    rw [hhangs, if_neg Bool.false_ne_true, callHost_of_canReadArgs _ num svc hexit hsvc hargs] at hexec
    have hanswered := hostAnswer_hostAnswered s.trapEntry svc
    obtain ⟨v, hregs, hbad⟩ := hanswered.regs
    obtain ⟨hpc0, hpc1, hpc2⟩ := hanswered.pipeline
    obtain ⟨hrefused, hconfig, hcalls⟩ := hanswered.fixed
    refine .inr ⟨_, hexec, hanswered.trapSaved, ⟨hpc1, hpc2, congrArg (· + 4) hpc2⟩, hanswered.runState, hrefused, hconfig,
      hanswered.memErrLog, congrArg (· + 1) hcalls, hregs.written 1, fun hdesc => ?_, fun x hbuffer herrno => ?_⟩
    · rw [← trapEntry_badDescriptor] at hdesc
      exact (hregs.reg 1).trans (hbad hdesc)
    · exact hanswered.mem x (State.OutsideHostWrites.trapEntry ⟨hbuffer, herrno⟩)

/-- Settles O48: TRAP0 halts where its entry left it. -/
theorem trap0SavesThenHalts : Obligations.Trap0SavesThenHalts := by
  intro f s
  obtain ⟨hsaved, hr1⟩ := trapSaved_fatal s .illegalOpcode
  exact ⟨s.trapEntry.fatal .illegalOpcode, rfl, hsaved, hr1, rfl, ⟨rfl, rfl, rfl⟩, fun _ => rfl, ⟨rfl, rfl, rfl⟩, rfl⟩

/-- Settles O49: a word over the limit, and an operand that names no number. -/
theorem trapOutsideItsEnvelopeHalts : Obligations.TrapOutsideItsEnvelopeHalts := by
  intro f s h
  have hends : s.trapEntry.trapHangs f = false ∧ s.trapEntry.afterTrap f = s.trapEntry.fatal .illegalOpcode := by
    rcases h with hlimit | hoperand
    · exact afterTrap_of_overLimit s f hlimit
    · cases hsrc : f.src2 with
      | reg r =>
        rw [hsrc] at hoperand
        apply afterTrap_of_noNumber
        · rw [hsrc, canRead_trapSources_reg_iff]
          exact hoperand.imp_right (.imp_right And.left)
        · rw [hsrc, syscallNumber_reg_eq_none_iff]
          exact hoperand.imp_right (.imp_right And.right)
      | imm v =>
        rw [hsrc] at hoperand
        apply afterTrap_of_noNumber
        · rw [hsrc]
          rfl
        · rw [hsrc, syscallNumber_imm_eq_none_iff]
          exact hoperand
  obtain ⟨hhangs, hafter⟩ := hends
  exact exec_trap_of_afterTrap_fatal s f _ hhangs hafter

/-- Settles O50: inside its envelope the TRAP is the host's call, which for number 1 ends the run. -/
theorem trapExitEndsTheRun : Obligations.TrapExitEndsTheRun := by
  intro f s hnum
  obtain ⟨hhangs, hcall⟩ := callHost_one s.trapEntry
  have hexec : exec (.trap f) s = .next s.trapEntry.exit.countCall := by
    rw [exec_trap_of_number s f 1 hnum, hhangs, hcall]
    rfl
  obtain ⟨hsaved, hr1⟩ := trapEntry_saves s
  exact ⟨_, hexec, hsaved, ⟨hr1.reg, hr1.written⟩, ⟨_, rfl⟩, ⟨rfl, rfl, rfl⟩, fun _ => rfl, rfl, rfl, rfl⟩

/-- Settles O53: a word of either opcode decodes to its instruction, which is refused. -/
theorem undescribedOpcodesAreRefused : Obligations.UndescribedOpcodesAreRefused := by
  refine ⟨fun f s => ⟨rfl, rfl⟩, fun w s h => ?_⟩
  rcases decodeWord_undescribed w h with hdecode | hdecode <;> rw [hdecode] <;> rfl

end Sys2Proof.Proofs
end

section
/-! PROOFS. Exceptions (60_exceptions.md). First every way in which a step can halt, said once by its reason and the state it
leaves, then what all of them leave alone; beside it the two ways in which a step can leave the error log, and the call of a
number the host does not know. The obligations follow from these. -/

namespace Sys2Proof.Machine

/-! ### How a step halts (R231, R232) -/

/-- A fetch is a fatal condition for its alignment under `MISALIGNED_FETCH = fault` only (R82, I4). -/
theorem fetchMisaligned_iff (s : State) :
    s.fetchMisaligned = true ↔ s.config.misalignedFetch = .fault ∧ s.pc0.toNat % 4 ≠ 0 := by
  simp [State.fetchMisaligned]

/-- The state a step halts in, by reason and by the instruction at `PC0`. -/
inductive HaltTo (s : State) : Instr → HaltReason → State → Prop
  /-- The fetch leaves memory (R81). -/
  | fetch (i : Instr) (out : s.memTop < s.pc0.toNat + 4) : HaltTo s i .fetchOutOfRange (s.fatal .fetchOutOfRange)
  /-- The fetch is misaligned and may not be (R82; log 6). -/
  | misaligned (i : Instr) (mis : s.fetchMisaligned = true) : HaltTo s i .misalignedFetch (s.fatal .misalignedFetch)
  /-- A conditional branch to a target out of range (R187, R189). -/
  | branch (i : Instr) (cond : i.IsConditionalBranch) :
      HaltTo s i .branchTargetOutOfRange (s.fatal .branchTargetOutOfRange)
  /-- A conditional branch with an illegal condition (R184). -/
  | illegal (cond : BitVec 5) (off : BitVec 22) :
      HaltTo s (.bccIllegal cond off) .illegalBranchCond (s.fatal .illegalBranchCond)
  /-- BSR to a target out of range (R190). -/
  | bsr (link : Reg) (off : BitVec 22) (t : State) (call : s.Called t link false (s.relativeTarget off)) :
      HaltTo s (.bsr link off) .branchTargetOutOfRange t
  /-- JSR to a target out of range (R195). -/
  | jsr (f : RegForm) (t : State) (call : s.Called t f.dst f.c (s.reg f.src1 + 4 * s.op2 f.src2)) :
      HaltTo s (.jsr f) .branchTargetOutOfRange t
  /-- TRAP0, and TRAP outside its envelope (R210, R213). -/
  | trap (i : Instr) (trap : i.isTrap = true) : HaltTo s i .illegalOpcode (s.trapEntry.fatal .illegalOpcode)
  /-- TRAP at a register that may not be read (R35; log 12). -/
  | trapUnread (i : Instr) (trap : i.isTrap = true) (reset : s.config.resetRegs = .unwritten) :
      HaltTo s i .unwrittenRegister (s.trapEntry.fatal .unwrittenRegister)
  /-- Any other instruction at a register that may not be read (R35; log 12). -/
  | unread (i : Instr) (trap : i.isTrap = false) (reset : s.config.resetRegs = .unwritten) :
      HaltTo s i .unwrittenRegister (s.fatal .unwrittenRegister)

section Halting

variable {s t : State} {i : Instr} {reason : HaltReason}

/-- A call halts for its target only (R187). -/
theorem State.Called.reason_eq {link : Reg} {c : Bool} {target : Word} (h : s.Called t link c target)
    (hrun : s.runState = .running) (hhalt : t.runState = .halted reason) : reason = .branchTargetOutOfRange := by
  have hended := h.ended
  unfold State.TransferEnded at hended
  split at hended
  · obtain ⟨hkept, -⟩ := hended
    cases hrun.symm.trans (hkept.symm.trans hhalt)
  · obtain ⟨hout, -⟩ := hended
    cases hhalt.symm.trans hout
    rfl

/-- An instruction that halts a running machine does so in one of the ways of `HaltTo`. -/
theorem ExecTo.haltTo (h : ExecTo s i t) (hrun : s.runState = .running) (hhalt : t.runState = .halted reason) :
    HaltTo s i reason t := by
  cases h with
  | compute | load | store | notTaken | refuse => cases hrun.symm.trans hhalt
  | taken _ target cond =>
    rcases transfer_cases s target with e | e <;> rw [e] at hhalt ⊢
    · cases hhalt
      exact .branch i cond
    · cases hrun.symm.trans hhalt
  | checked _ cond =>
    cases hhalt
    exact .branch i cond
  | illegal cond off =>
    cases hhalt
    exact .illegal cond off
  | bsr link off =>
    have hcalled := writeLink_restoreIe_transfer_called s link false (s.relativeTarget off)
    cases hcalled.reason_eq hrun hhalt
    exact .bsr link off _ hcalled
  | jsr f =>
    have hcalled := writeLink_restoreIe_transfer_called s f.dst f.c (s.reg f.src1 + 4 * s.op2 f.src2)
    cases hcalled.reason_eq hrun hhalt
    exact .jsr f _ hcalled
  | trap0 f =>
    cases hhalt
    exact .trap _ rfl
  | trap f =>
    obtain ⟨rfl | ⟨rfl, hreset⟩, hafter⟩ := afterTrap_halts s.trapEntry f reason hrun hhalt <;> rw [hafter]
    · exact .trap _ rfl
    · exact .trapUnread _ rfl hreset
  | unread _ src trap =>
    cases hhalt
    obtain ⟨hreset, -⟩ := (s.canRead_eq_false_iff _).mp src
    exact .unread i trap hreset

/-- A step that halts does so at its fetch or in its decoded instruction. -/
theorem step_haltTo (h : step s = .next t) (hhalt : t.runState = .halted reason) :
    HaltTo s (decodeWord s.fetchWord) reason t := by
  obtain ⟨⟨hrun, -⟩, ⟨hout, rfl⟩ | ⟨-, hmis, rfl⟩ | ⟨-, -, hexec⟩⟩ := step_next s t h
  · cases hhalt
    exact .fetch _ hout
  · cases hhalt
    exact .misaligned _ hmis
  · exact (exec_next _ s t hexec).haltTo hrun hhalt

/-- What every halting step leaves alone (R232, R234). -/
structure State.KeptAtHalt (s t : State) : Prop where
  mem : s.SameMemory t
  memErrLog : t.memErrLog = s.memErrLog
  fixed : s.SameFixed t
  c : t.sr.c = s.sr.c
  v : t.sr.v = s.sr.v
  z : t.sr.z = s.sr.z
  n : t.sr.n = s.sr.n

theorem State.Called.keptAtHalt {link : Reg} {c : Bool} {target : Word} (h : s.Called t link c target) :
    s.KeptAtHalt t :=
  ⟨h.mem, h.memErrLog, h.fixed, by rw [h.sr], by rw [h.sr], by rw [h.sr], by rw [h.sr]⟩

theorem HaltTo.keptAtHalt (h : HaltTo s i reason t) : s.KeptAtHalt t := by
  cases h with
  | fetch | misaligned | branch | illegal | trap | trapUnread | unread =>
    exact ⟨fun _ => rfl, rfl, ⟨rfl, rfl, rfl⟩, rfl, rfl, rfl, rfl⟩
  | bsr _ _ _ call | jsr _ _ call => exact call.keptAtHalt

/-- The model's reason for a misaligned fetch needs its `fault` setting (R82; log 6). -/
theorem HaltTo.misalignedFetch_fault (h : HaltTo s i .misalignedFetch t) : s.config.misalignedFetch = .fault := by
  cases h with
  | misaligned _ mis =>
    obtain ⟨hfault, -⟩ := (fetchMisaligned_iff s).mp mis
    exact hfault

/-- The model's reason for a register read before its first write needs `RESET_REGS = unwritten` (R35; log 12). -/
theorem HaltTo.unwrittenRegister_unwritten (h : HaltTo s i .unwrittenRegister t) :
    s.config.resetRegs = .unwritten := by
  cases h with
  | trapUnread _ _ reset | unread _ _ reset => exact reset

end Halting

/-! ### What a step logs (R62, R233) -/

/-- Under `MISALIGNED_DATA = bytes` no access is an error for its alignment (R57, D3). -/
theorem checkAccess_ne_misaligned (s : State) (ea : Word) (n : Nat) (sp : Bool)
    (hbytes : s.config.misalignedData = .bytes) : s.checkAccess ea n sp ≠ some .misaligned := by
  have haligned : s.dataMisaligned ea n = false := by simp [State.dataMisaligned, hbytes]
  rw [State.checkAccess, haligned]
  split
  · nofun
  · split <;> nofun

/-- An instruction leaves the error log as it was, or appends what one access check answers. -/
theorem ExecTo.memErrLog_cases {s t : State} {i : Instr} (h : ExecTo s i t) :
    t.memErrLog = s.memErrLog ∨
      ∃ ea n sp, t.memErrLog = (s.recordCheck (s.checkAccess ea n sp) ea).memErrLog := by
  cases h with
  | load _ ea n sp | store _ ea n sp => exact .inr ⟨ea, n, sp, rfl⟩
  | compute | notTaken | checked | illegal | trap0 | unread | refuse => exact .inl rfl
  | taken _ target =>
    obtain ⟨-, -, -, -, hlog⟩ := transfer_frame s target
    exact .inl hlog
  | bsr link off => exact .inl (writeLink_restoreIe_transfer_called s link false _).memErrLog
  | jsr f => exact .inl (writeLink_restoreIe_transfer_called s f.dst f.c _).memErrLog
  | trap f =>
    obtain ⟨-, -, hlog, -⟩ := afterTrap_frame s.trapEntry f
    exact .inl hlog

/-- A record of the log after an access check is an old one, or the one of the kind that the check answers (R233). -/
theorem mem_recordCheck_memErrLog (s : State) (err : Option MemErrKind) (ea : Word) (e : MemErr)
    (h : e ∈ (s.recordCheck err ea).memErrLog) : e ∈ s.memErrLog ∨ err = some e.kind := by
  rcases List.mem_append.mp h with hold | hnew
  · exact .inl hold
  · obtain ⟨kind, hkind, rfl⟩ := List.mem_map.mp hnew
    exact .inr (Option.mem_toList.mp hkind)

/-- A record that a step appends is of a kind that some access check answers (R233). -/
theorem step_logs {s t : State} (h : step s = .next t) (e : MemErr) (he : e ∈ t.memErrLog) :
    e ∈ s.memErrLog ∨ ∃ ea n sp, s.checkAccess ea n sp = some e.kind := by
  rcases step_to s t h with ⟨reason, rfl⟩ | hexec
  · exact .inl he
  · rcases hexec.memErrLog_cases with hlog | ⟨ea, n, sp, hlog⟩ <;> rw [hlog] at he
    · exact .inl he
    · exact (mem_recordCheck_memErrLog s _ ea e he).imp_right fun hkind => ⟨ea, n, sp, hkind⟩

/-! ### A number the host does not know (R245, R236) -/

/-- The call of an unknown number comes back, refused. -/
theorem callHost_of_unknown (e : State) (num : Word) (h : Config.serviceOf e.config num = none) :
    e.callHangs num = false ∧ e.callHost num = e.refuse :=
  ⟨by rw [State.callHangs, h], by rw [State.callHost, h]⟩

end Sys2Proof.Machine

namespace Sys2Proof.Proofs

open Sys2Proof Sys2Proof.Machine

/-- Settles O17: what all halts leave alone, and then what each way to halt has written. -/
theorem haltingStepsKeepMemoryLogAndFlags : Obligations.HaltingStepsKeepMemoryLogAndFlags := by
  intro s t reason h hhalt
  obtain ⟨⟨-, hrefused⟩, -⟩ := step_next s t h
  have hto := step_haltTo h hhalt
  have hkept := hto.keptAtHalt
  refine ⟨hkept.mem, hkept.memErrLog, hkept.fixed.refused.trans hrefused, hkept.fixed, hkept.c, hkept.v, hkept.z, hkept.n,
    ?_⟩
  have hsame (r : HaltReason) : s.SameRegs (s.fatal r) ∧ (s.fatal r).sr = s.sr := ⟨⟨fun _ => rfl, fun _ => rfl⟩, rfl⟩
  generalize decodeWord s.fetchWord = i at hto ⊢
  cases hto with
  | fetch _ out => exact ⟨out, hsame _⟩
  | misaligned _ mis => exact ⟨((fetchMisaligned_iff s).mp mis).2, hsame _⟩
  | branch _ cond => exact .inr (.inr ⟨cond, hsame _⟩)
  | illegal cond off => exact ⟨⟨cond, off, rfl⟩, hsame _⟩
  | bsr link off _ call => exact .inl ⟨link, off, rfl, call.link, call.sr⟩
  | jsr f _ call => exact .inr (.inl ⟨f, rfl, call.link, call.sr⟩)
  | trap _ trap => exact ⟨trap, trapSaved_fatal s _⟩
  | trapUnread _ trap =>
    rw [trap]
    exact trapSaved_fatal s _
  | unread _ trap =>
    rw [trap]
    exact hsame _

/-- Settles O51: inside its envelope the TRAP is the host's call, which refuses a number it does not know. -/
theorem trapWithUnknownNumberIsRefused : Obligations.TrapWithUnknownNumberIsRefused := by
  intro f s num hnum hne hlookup
  have hsvc : Config.serviceOf s.trapEntry.config num = none := by
    rw [State.trapEntry_config, Config.serviceOf, if_neg hne, hlookup]
  obtain ⟨hhangs, hcall⟩ := callHost_of_unknown s.trapEntry num hsvc
  have hexec : exec (.trap f) s = .next s.trapEntry.refuse := by
    rw [exec_trap_of_number s f num hnum, hhangs, hcall]
    rfl
  obtain ⟨hsaved, hr1⟩ := trapEntry_saves s
  exact ⟨_, hexec, hsaved, ⟨hr1.reg, hr1.written⟩, rfl, rfl, ⟨rfl, rfl, rfl⟩, fun _ => rfl, rfl, rfl, rfl⟩

/-- Settles O60: the model's own reasons and kind each need their setting, by the ways to halt and by the access check. -/
theorem defaultSettingsKeepTheClosedListOfReasons : Obligations.DefaultSettingsKeepTheClosedListOfReasons := by
  refine fun s t h => ⟨fun hbytes hhalt => ?_, fun hzero hhalt => ?_, fun hbytes e he => ?_⟩
  · cases hbytes.symm.trans (step_haltTo h hhalt).misalignedFetch_fault
  · cases hzero.symm.trans (step_haltTo h hhalt).unwrittenRegister_unwritten
  · refine (step_logs h e he).imp_right fun ⟨ea, n, sp, hcheck⟩ => ?_
    cases hkind : e.kind with
    | outOfRange => exact .inl rfl
    | stackUnderflow => exact .inr rfl
    | misaligned =>
      rw [hkind] at hcheck
      exact absurd hcheck (checkAccess_ne_misaligned s ea n sp hbytes)

end Sys2Proof.Proofs
end

section
/-! PROOFS. Reset and hazards (70_reset_and_hazards.md). First what a byte decoder that answers has read, then what the launch
leaves in memory, read byte by byte and as the first word fetched, and the invariant it meets. The obligations follow from
these. -/

namespace Sys2Proof

/-! ### The bytes an answer of the decoder stands for (R85) -/

/-- A decoder of bytes that answers has read four bytes, and its instruction is that of their word. -/
theorem decodeBytes_eq_ok {order : ByteOrder} {bs rest : List Byte} {i : Instr} (h : decodeBytes order bs = .ok (i, rest)) :
    4 ≤ bs.length ∧ decodeWord (wordOf order (bs.take 4)) = i := by
  rcases Nat.lt_or_ge bs.length 4 with hshort | hlong
  · cases (decodeBytes_of_length_lt order bs hshort).symm.trans h
  · have hfour : (bs.take 4).length = 4 := List.length_take_of_le hlong
    rw [← List.take_append_drop 4 bs, decodeBytes_append order _ _ hfour] at h
    cases h
    exact ⟨hlong, rfl⟩

end Sys2Proof

namespace Sys2Proof.Machine

/-! ### The image in memory (R260) -/

/-- Bytes of memory inside the image are the image's bytes. -/
theorem State.HoldsImage.readBytes {image : List Byte} {s : State} (h : s.HoldsImage image) (a n : Nat)
    (hin : a + n ≤ image.length) : Memory.readBytes s.mem a n = (image.drop a).take n := by
  rw [Memory.readBytes_eq_map]
  apply List.ext_getElem
  · rw [List.length_map, List.length_range, List.length_take_of_le]
    rw [List.length_drop]
    omega
  · intro k hk _
    have hkn : k < n := by simpa using hk
    simp [h.bytes (a + k) (by omega)]

variable (image : List Byte) (cfg : Config)

/-- The launch writes the image over a memory that reads 0 (R260, R35). -/
theorem State.launch_holdsImage : (State.launch image cfg).HoldsImage image where
  length := rfl
  bytes a ha := by
    rw [State.launch_mem, Memory.read_writeBytes, if_pos ⟨Nat.zero_le a, by omega⟩, Nat.sub_zero,
      List.getD_eq_getElem image 0 ha]
  rest a ha := by
    rw [State.launch_mem, Memory.read_writeBytes_other [] 0 image a (.inr (by omega))]
    rfl

/-- The first fetch after the launch reads the image's first four bytes, in the configured byte order (R80, R261). -/
theorem State.launch_fetchWord (h : 4 ≤ image.length) :
    (State.launch image cfg).fetchWord = wordOf cfg.byteOrder (image.take 4) :=
  congrArg (wordOf cfg.byteOrder) ((State.launch_holdsImage image cfg).readBytes 0 4 (by omega))

/-- The image fills memory from 0 in canonical form and below `memTop`, and the rest is the reset state (R260, R35). -/
theorem State.launch_inv : (State.launch image cfg).Inv where
  memWf := Memory.wf_writeBytes [] 0 image Memory.wf_reset
  memInRange := Memory.bound_writeBytes [] 0 image _ nofun (.inr (by rw [State.launch_memTop]; omega))
  pipeline := rfl
  zeroReg := State.launch_reg image cfg 0
  unwrittenZero r _ := State.launch_reg image cfg r

end Sys2Proof.Machine

namespace Sys2Proof.Proofs

open Sys2Proof Sys2Proof.Machine

/-- Settles O54: the image stands in memory, and every other field is that of the reset state or of the configuration. -/
theorem launchPlacesTheImage : Obligations.LaunchPlacesTheImage := by
  intro image cfg
  have hsr : (State.launch image cfg).sr.toBits = 0 := by
    rw [State.launch_sr]
    decide
  exact ⟨State.launch_holdsImage image cfg, rfl,
    fun r => ⟨State.launch_reg image cfg r, State.launch_hasWritten image cfg r⟩, hsr, rfl, rfl, rfl, rfl, rfl, rfl⟩

/-- Settles O55: of the five premises only the first depends on the image and the configuration, and it is the bound. -/
theorem launchMeetsThePremisesAndTheInvariant : Obligations.LaunchMeetsThePremisesAndTheInvariant := by
  intro image cfg
  refine ⟨⟨fun premises => premises.fits, fun hfits => ?_⟩, State.launch_inv image cfg⟩
  exact { fits := hfits, imageLength := rfl, running := rfl, noMemErrors := rfl, notRefused := rfl }

/-- Settles O56: the launch is enabled at the aligned address 0, both fetch checks pass there, and the word fetched is that of
the four bytes the decoder read. -/
theorem firstStepRunsTheImagesFirstWord : Obligations.FirstStepRunsTheImagesFirstWord := by
  intro image cfg i rest hdecode
  obtain ⟨hlong, hi⟩ := decodeBytes_eq_ok hdecode
  have hin : (State.launch image cfg).pc0.toNat + 4 ≤ (State.launch image cfg).memTop :=
    calc 0 + 4
        ≤ image.length := hlong
      _ ≤ (State.launch image cfg).memTop := Nat.le_add_right _ _
  rw [step_eq_exec (State.launch image cfg) ⟨rfl, rfl⟩ hin (.inr rfl), State.launch_fetchWord image cfg hlong, hi]

end Sys2Proof.Proofs
end
